-- ==== Sys2Proof/Word.lean ====
section
/-!
DEFINITION. The words of the block's interfaces: the raw byte and the command word (spec/00_scope.md R6, `BYTEW` and
`CMDW`). Codes, widths and counts are plain natural numbers, as R7 and R182 make them: nothing in the block wraps.
-/

namespace Sys2Proof

/-- A raw or packed byte: `BYTEW = 8` bits (R6). -/
abbrev Byte := BitVec 8

/-- A command word: `CMDW = 12` bits (R6, R97). -/
abbrev CommandWord := BitVec 12

end Sys2Proof
end

