-- ==== Sys2Proof/Syntax.lean ====
section
/-!
DEFINITION. The six commands of the block (spec/30_encoding.md R98, spec/opcode_table.json), one constructor per row.
-/

namespace Sys2Proof

/-- A command (R98). A command names nothing but its context; the only operand is the data byte of a `BYTE` command
(R99, R100). -/
inductive Instr where
  /-- `ENC_INIT`: start an encode call (R121). -/
  | encInit
  /-- `ENC_BYTE c`: consume one raw input byte (R122). -/
  | encByte (c : Byte)
  /-- `ENC_END`: finish an encode call (R127). -/
  | encEnd
  /-- `DEC_INIT`: start a decode call (R141). -/
  | decInit
  /-- `DEC_BYTE b`: deliver one byte of the packed stream (R142). -/
  | decByte (b : Byte)
  /-- `DEC_END`: end of the packed stream (R151). -/
  | decEnd
deriving DecidableEq, Repr

/-- The context a command is addressed to: bit 10 of its word (R97). -/
inductive ContextId where
  | enc
  | dec
deriving DecidableEq, Repr

/-- The operation of a command: bits 9:8 of its word, 1 `INIT`, 2 `BYTE`, 3 `END` (R97). -/
inductive CmdKind where
  | init
  | byte
  | finish
deriving DecidableEq, Repr

end Sys2Proof
end

