-- ==== Sys2Proof/WellFormed.lean ====
section
/-!
DEFINITION. Well-formedness. A term of `Instr` is well-formed when its operand is a byte value, 0..255 (R98, R100),
which its type already says; a command WORD is well-formed (legal) when it matches a row of the table of
spec/30_encoding.md R98. The rows are written here from R98's `match` and `mask` columns, apart from the decoder, which
is written from the fields of R97.
-/

namespace Sys2Proof

/-- One row of R98's table: a word `w` selects the row when `(w AND mask) = pattern`. -/
structure OpcodeRow where
  mnemonic : String
  pattern : CommandWord
  mask : CommandWord
deriving DecidableEq, Repr

/-- The table of R98. -/
def opcodeRows : List OpcodeRow :=
  [ ⟨"ENC_INIT", 0x100, 0xFFF⟩,
    ⟨"ENC_BYTE", 0x200, 0xF00⟩,
    ⟨"ENC_END", 0x300, 0xFFF⟩,
    ⟨"DEC_INIT", 0x500, 0xFFF⟩,
    ⟨"DEC_BYTE", 0x600, 0xF00⟩,
    ⟨"DEC_END", 0x700, 0xFFF⟩ ]

/-- Does the word select this row (R98)? -/
def OpcodeRow.selects (r : OpcodeRow) (w : CommandWord) : Bool :=
  w &&& r.mask == r.pattern

/-- A legal command word: it matches some row of R98 (R102). -/
def legalWord (w : CommandWord) : Bool :=
  opcodeRows.any (fun r => r.selects w)

/-- The operand range check of R98 (`c = data`, 0..255). Every term passes it, because an operand is a `Byte`. -/
def Instr.wellFormed : Instr → Bool
  | .encInit => true
  | .encByte c => c.toNat ≤ 255
  | .encEnd => true
  | .decInit => true
  | .decByte b => b.toNat ≤ 255
  | .decEnd => true

end Sys2Proof
end

