-- ==== Sys2Proof/Decode.lean ====
section
/-!
DEFINITION. The command word (spec/30_encoding.md R97 to R102): a total decoder from any 12-bit word to a command or a
named rejection, and the encoder.
-/

namespace Sys2Proof

/-- Why a word is illegal, the two classes of R102. -/
inductive Reject where
  /-- `op` is `0x0`, `0x4` or `0x8 .. 0xF`, with any `data`. -/
  | illegalOp
  /-- `op` is `0x1`, `0x3`, `0x5` or `0x7` with `data != 0`. -/
  | dataNotZero
deriving DecidableEq, Repr

/-- The field `op = word[11:8]` (R97). -/
def cmdOp (w : CommandWord) : BitVec 4 := w.extractLsb' 8 4

/-- The field `data = word[7:0]`, used as is (R97, R100). -/
def cmdData (w : CommandWord) : Byte := w.extractLsb' 0 8

/-- A command whose `data` must be 0 (`INIT` and `END`, R97). -/
def withZeroData (w : CommandWord) (i : Instr) : Except Reject Instr :=
  if cmdData w = 0 then .ok i else .error .dataNotZero

/-- The decoder, total on the 4096 words (R97, R98, R101, R102). -/
def decode (w : CommandWord) : Except Reject Instr :=
  match (cmdOp w).toNat with
  | 0x1 => withZeroData w .encInit
  | 0x2 => .ok (.encByte (cmdData w))
  | 0x3 => withZeroData w .encEnd
  | 0x5 => withZeroData w .decInit
  | 0x6 => .ok (.decByte (cmdData w))
  | 0x7 => withZeroData w .decEnd
  | _ => .error .illegalOp

/-- A word from its two fields: `op` in bits 11:8, `data` in bits 7:0 (R97). -/
def mkWord (op : BitVec 4) (data : Byte) : CommandWord := op ++ data

/-- The encoder: the word of each command (R98). -/
def encode : Instr → CommandWord
  | .encInit => mkWord 0x1 0
  | .encByte c => mkWord 0x2 c
  | .encEnd => mkWord 0x3 0
  | .decInit => mkWord 0x5 0
  | .decByte b => mkWord 0x6 b
  | .decEnd => mkWord 0x7 0

/-- The context a command is addressed to (R97, R98). -/
def Instr.context : Instr → ContextId
  | .encInit => .enc
  | .encByte _ => .enc
  | .encEnd => .enc
  | .decInit => .dec
  | .decByte _ => .dec
  | .decEnd => .dec

/-- The operation of a command (R97, R98). -/
def Instr.kind : Instr → CmdKind
  | .encInit => .init
  | .encByte _ => .byte
  | .encEnd => .finish
  | .decInit => .init
  | .decByte _ => .byte
  | .decEnd => .finish

/-- The word the opcode table numbers: its `nbits` low bits, bits above them 0. `none` where the number needs more than
the 12 wires of the command port (log entry 13). -/
def tableWord (nbits w : Nat) : Option CommandWord :=
  if w % 2 ^ nbits < 4096 then some (BitVec.ofNat 12 (w % 2 ^ nbits)) else none

/-- The host's entry to the decoder: the command of the word whose bits are `w`, numbered as the opcode table numbers
them. -/
def decodeTableWord (nbits w : Nat) : Option Instr :=
  match tableWord nbits w with
  | none => none
  | some word =>
    match decode word with
    | .ok i => some i
    | .error _ => none

end Sys2Proof
end

