-- ==== Sys2Proof/Config.lean ====
section
/-!
DEFINITION. What an implementation fixes: the one open parameter `WMAX` (spec/00_scope.md R6, spec/92_eei_decisions.md
D6) and the fixed parameters of R6; and the model's one free value.
-/

namespace Sys2Proof

/-- The constants of one instance of the block. `wmax` is `WMAX`, the largest width at which a code may be written or
read; an instance has `WMAX >= 9` (R6). -/
structure Params where
  wmax : Nat
deriving DecidableEq, Repr

/-- An instance is one the spec allows: `WMAX >= 9` (R6). -/
abbrev Params.wf (p : Params) : Prop := 9 ≤ p.wmax

/-- This spec's default instance, `WMAX = 16` (R6, D6; log entry 1). -/
def Config.defaultParams : Params := { wmax := 16 }

/-- `NLIT`: number of bootstrap entries, codes 0..255 (R6). -/
def Config.nlit : Nat := 256

/-- `FIRST_CODE`: the first code given to an inserted entry (R6). -/
def Config.firstCode : Nat := 256

/-- `W0`: the code width after bootstrap (R6). -/
def Config.w0 : Nat := 9

/-- FREE VALUE. What `ctx.finfo` receives when the information word does not fit the register's `WMAX + 1` bits. R7
gives zero-extension a meaning only where the value fits, and with `WMAX = 9` the word of a decoder command does not
(DESIGN CHOICE, safe; log entry 7). Arguments: `WMAX` and the information word. -/
opaque Config.infoBeyondWidth : Nat → Nat → Nat

end Sys2Proof
end

