-- ==== Sys2Proof/Machine/State.lean ====
section
/-!
DEFINITION. The machine's state as plain data (spec/10_state.md R20 to R34), the reasons a step can stop, and the state
after hardware reset (R42).
-/

namespace Sys2Proof.Machine

open Sys2Proof

/-- The sequencing state of a context, `ctx.st` (R21). -/
inductive CtxState where
  /-- 0: no call has been started since reset. -/
  | idle
  /-- 1: a call is in progress. -/
  | active
  /-- 2: the last call completed. -/
  | done
  /-- 3: a command of this context raised a fault; terminal until hardware reset. -/
  | fault
deriving DecidableEq, Repr

/-- The code of the first fault a context raised, `ctx.fault` (R26, R210). Codes 4..7 are not used. -/
inductive FaultCode where
  /-- 0: no fault. -/
  | none
  /-- 1: the command is not legal in `ctx.st` (R211). -/
  | protocolError
  /-- 2: the code read is neither present nor the not-yet-defined code (R212). -/
  | corruptCode
  /-- 3: a code would be written or read at a width above `WMAX` (R213). -/
  | widthOverflow
deriving DecidableEq, Repr

/-- One dictionary entry `(p, b)`: the code of the string without its last byte, and that last byte (R24). -/
structure Entry where
  pre : Nat
  last : Byte
deriving DecidableEq, Repr

/-- A dictionary memory: the entries written so far, each at its code, codes strictly rising (`Memory.wf`). A code that
is not listed holds no value (R24, R42; log entry 5). The unit is one whole entry: there is no partial access (R61). -/
abbrev Memory := List (Nat × Entry)

/-- The registers both contexts have, each its own copy (R20, R21 to R27). -/
structure Ctx where
  /-- `ctx.st`, 2 bits (R21). -/
  st : CtxState
  /-- `ctx.fault`, 3 bits (R26). -/
  fault : FaultCode
  /-- `ctx.finfo`, `WMAX + 1` bits (R26). -/
  finfo : Nat
  /-- `ctx.next_code`, `256 .. 2^WMAX` (R22). -/
  nextCode : Nat
  /-- `ctx.width`, `9 .. WMAX + 1` (R23). -/
  width : Nat
  /-- `ctx.dict` (R24). -/
  dict : Memory
  /-- `ctx.out`, the bytes driven since the last `INIT` (R27). -/
  out : List Byte
  /-- `ctx.trace`, ghost: the (value, width) pairs written or read since the last `INIT` (R13, R27). -/
  trace : List (Nat × Nat)
deriving DecidableEq, Repr

/-- The encoder context (R28, R29). -/
structure Enc extends Ctx where
  /-- `enc.acc`: the pending bits as a number of `enc.nacc` bits, earliest bit most significant (R28). -/
  acc : Nat
  /-- `enc.nacc`, 0..7 (R28). -/
  nacc : Nat
  /-- `enc.cur_valid`: is there a current match (R29)? -/
  curValid : Bool
  /-- `enc.cur_code`: the code of the current match; read only under `enc.cur_valid` (R29). -/
  curCode : Nat
deriving DecidableEq, Repr

/-- The decoder context (R30 to R33). -/
structure Dec extends Ctx where
  /-- `dec.have_prev`: has a code of this call been processed (R30)? -/
  havePrev : Bool
  /-- `dec.prev_code`; read only under `dec.have_prev` (R31). -/
  prevCode : Nat
  /-- `dec.prev_first`; read only under `dec.have_prev` (R32). -/
  prevFirst : Byte
  /-- `dec.rbuf`: the buffered bits as a number of `dec.nrbuf` bits, earliest bit most significant (R33). -/
  rbuf : Nat
  /-- `dec.nrbuf` (R33). -/
  nrbuf : Nat
deriving DecidableEq, Repr

/-- What the host drives on the block's inputs: a command word on the command port (R12, R97), or the reset input
(R240), between commands (log entries 2, 3). -/
inductive HostEvent where
  | command (w : CommandWord)
  | reset
deriving DecidableEq, Repr

/-- The whole machine. -/
structure State where
  /-- The constants of this instance, `WMAX` (R6, R35 (f)); the model's own field, written by no step (log entry 1). -/
  params : Params
  /-- What the host drives next, first event first; the model's own field (R11, R12; log entry 2). -/
  port : List HostEvent
  /-- The encoder context. -/
  enc : Enc
  /-- The decoder context. -/
  dec : Dec
  /-- `cmd_fault`: an illegal command word has been seen since reset (R34). -/
  cmdFault : Bool
deriving DecidableEq, Repr

/-- Why the machine stops. None of these is a fault of the block (those are next states, R219): each is the model's own
answer where the spec says a location holds no value or does not exist. No state that a run from reset reaches raises
one. -/
inductive Fault where
  /-- Raised by DEC_BYTE through `Str`: a dictionary read of a code whose entry holds no value (R42, R61), or of a chain
  that does not descend (R46). Safe. -/
  | dictNoValue (code : Nat)
  /-- Raised by ENC_BYTE and DEC_BYTE through `Insert`: a dictionary write outside the codes `256 .. 2^WMAX - 1` of the
  memory (R60, R72). Safe. -/
  | dictNoEntry (code : Nat)
deriving DecidableEq, Repr

/-- Why an instruction has no meaning. -/
inductive Refusal where
  /-- Raised by `exec` for an instruction not modelled yet; no arm of `exec` answers it now. Safe. -/
  | notModelled (mnemonic : String)
deriving DecidableEq, Repr

/-- The registers common to both contexts after hardware reset (R42). -/
def Ctx.reset : Ctx :=
  { st := .idle
    fault := .none
    finfo := 0
    nextCode := Config.firstCode
    width := Config.w0
    dict := []
    out := []
    trace := [] }

/-- The encoder context after hardware reset (R42). `enc.cur_code` has no value in the spec: DESIGN CHOICE 0, log
entry 4. -/
def Enc.reset : Enc :=
  { Ctx.reset with acc := 0, nacc := 0, curValid := false, curCode := 0 }

/-- The decoder context after hardware reset (R42). `dec.prev_code` and `dec.prev_first` have no value in the spec:
DESIGN CHOICE 0, log entry 4. -/
def Dec.reset : Dec :=
  { Ctx.reset with havePrev := false, prevCode := 0, prevFirst := 0, rbuf := 0, nrbuf := 0 }

/-- An instance with the given constants right after reset, before any command has arrived (R42, R242). -/
def State.resetAt (p : Params) : State :=
  { params := p, port := [], enc := Enc.reset, dec := Dec.reset, cmdFault := false }

/-- The machine right after reset, at the spec's default `WMAX` (R6, R42). -/
def State.reset : State := State.resetAt Config.defaultParams

end Sys2Proof.Machine
end

