-- ==== Sys2Proof/Machine/Operands.lean ====
section
/-!
DEFINITION. Numbers, bit fields and bit sequences (spec/00_scope.md R7, R8), the byte forms of the streams
(spec/20_memory.md R65 to R69), and the dictionary memory's read and write of one entry (R61). The only operand a
command has is its data byte, used as is (spec/30_encoding.md R100).
-/

namespace Sys2Proof.Machine

open Sys2Proof

/-- `bitlen(n)`: bits of the shortest binary numeral of `n` (R7). -/
def bitlen (n : Nat) : Nat := if n = 0 then 0 else Nat.log2 n + 1

/-- `v[lo+n-1 : lo]`, the field of `n` bits of `v` from bit `lo` up, as a number (R7). -/
def bitField (v lo n : Nat) : Nat := v / 2 ^ lo % 2 ^ n

/-- A number below 256 as a byte. -/
def byteOf (v : Nat) : Byte := BitVec.ofNat 8 v

/-- `bitsMSB(v, w)`: the bit sequence `v[w-1], .., v[0]` (R8, R65). -/
def bitsMSB (v : Nat) : Nat → List Bool
  | 0 => []
  | w + 1 => v.testBit w :: bitsMSB v w

/-- `val(q)`: the number whose numeral, most significant bit first, is the bit sequence `q` (R8). -/
def bitsVal (q : List Bool) : Nat :=
  q.foldl (fun n b => 2 * n + b.toNat) 0

/-- The bits of a byte in stream order: bit 7 first (R66, R100). -/
def byteBits (b : Byte) : List Bool := bitsMSB b.toNat 8

/-- The bits of a byte stream in time order (R66). -/
def streamBits (s : List Byte) : List Bool := s.flatMap byteBits

/-- The bits of a code sequence, no gap between codes (R90, R192). -/
def codeBits (t : List (Nat × Nat)) : List Bool := t.flatMap (fun c => bitsMSB c.1 c.2)

/-- The sum of the widths of a code trace (R47, R90). -/
def traceWidths (t : List (Nat × Nat)) : Nat := (t.map Prod.snd).sum

/-- The `n` earliest whole bytes of the `t` bits in `q`, earliest byte first: the loop of `WriteBits` (R191). -/
def leadingBytes : Nat → Nat → Nat → List Byte
  | 0, _, _ => []
  | n + 1, q, t => byteOf (bitField q (t - 8) 8) :: leadingBytes n q (t - 8)

/-- The canonical form of a dictionary memory: codes strictly rising. -/
abbrev Memory.wf (m : Memory) : Prop := m.Pairwise (fun x y => x.1 < y.1)

/-- The entry written at code `k`, if one has been written. -/
def Memory.read (m : Memory) (k : Nat) : Option Entry :=
  match m with
  | [] => none
  | x :: rest => if x.1 = k then some x.2 else Memory.read rest k

/-- Store a whole entry at code `k`, keeping the codes in order (R61). -/
def Memory.write (m : Memory) (k : Nat) (e : Entry) : Memory :=
  match m with
  | [] => [(k, e)]
  | x :: rest =>
    if k < x.1 then (k, e) :: x :: rest
    else if x.1 = k then (k, e) :: rest
    else x :: Memory.write rest k e

end Sys2Proof.Machine
end

