-- ==== Sys2Proof/Machine/Flags.lean ====
section
/-!
DEFINITION. The block has no condition codes (spec/10_state.md R39). This file holds what the one-bit flags guard (the
current match, the previous code), the numeric values of the state and fault registers, and the table that says which
command is legal in which state (R38).
-/

namespace Sys2Proof.Machine

open Sys2Proof

/-- The 2-bit value of `ctx.st` (R21). -/
def CtxState.value : CtxState → BitVec 2
  | .idle => 0
  | .active => 1
  | .done => 2
  | .fault => 3

/-- The 3-bit value of `ctx.fault` (R210). -/
def FaultCode.value : FaultCode → BitVec 3
  | .none => 0
  | .protocolError => 1
  | .corruptCode => 2
  | .widthOverflow => 3

/-- The current match, as its code, or `none` when it is empty. The only reader of `enc.cur_code`, which holds no value
while `enc.cur_valid = 0` (R29, R42). -/
def Enc.currentMatch (e : Enc) : Option Nat :=
  if e.curValid then some e.curCode else none

/-- The previous code and its first byte, or `none` before the first code of a call. The only reader of `dec.prev_code`
and `dec.prev_first`, which hold no value while `dec.have_prev = 0` (R31, R32, R42). -/
def Dec.previous (d : Dec) : Option (Nat × Byte) :=
  if d.havePrev then some (d.prevCode, d.prevFirst) else none

/-- What the legality table of R38 says of a command. -/
inductive Legality where
  /-- The command is performed. -/
  | performed
  /-- The command raises `ProtocolError`. -/
  | notLegal
  /-- The command changes no state at all. -/
  | ignored
deriving DecidableEq, Repr

/-- The legality table (R38, R211, R221). -/
def legality : CtxState → CmdKind → Legality
  | .idle, .init => .performed
  | .idle, .byte => .notLegal
  | .idle, .finish => .notLegal
  | .active, .init => .notLegal
  | .active, .byte => .performed
  | .active, .finish => .performed
  | .done, .init => .performed
  | .done, .byte => .notLegal
  | .done, .finish => .notLegal
  | .fault, _ => .ignored

end Sys2Proof.Machine
end

