-- ==== Sys2Proof/Machine/Ops.lean ====
section
/-!
DEFINITION. The named operations of the block: dictionary access, `Str`, `Lookup`, `Insert`, `Bootstrap`, `Grow`
(spec/42_width_policy_dictionary.md), the bit writer and reader (spec/43_bit_channel.md), `Out`, fault entry
(spec/60_exceptions.md R219), and hardware reset, the only way out of a fault (R221, R240).
-/

namespace Sys2Proof.Machine

open Sys2Proof

/-- How the body of a command ends: with the context's new registers, with `raise F(info)` (R9), or with a stop of the
model. -/
inductive Result (α : Type) where
  | ok (a : α)
  | raise (f : FaultCode) (info : Nat)
  | stop (r : Fault)
deriving DecidableEq, Repr

/-- Go on with the value, or end as before: no statement after a `raise` is performed (R9). -/
def Result.andThen {α β : Type} (r : Result α) (f : α → Result β) : Result β :=
  match r with
  | .ok a => f a
  | .raise c info => .raise c info
  | .stop reason => .stop reason

/-! ### Dictionary and width policy -/

/-- `Bootstrap(ctx)` (R171): nothing else is written, the dictionary memory in particular. -/
def Ctx.bootstrap (c : Ctx) : Ctx :=
  { c with nextCode := Config.firstCode, width := Config.w0 }

/-- Does the entry of code `k` hold a value (R24)? -/
def Ctx.holdsValue (c : Ctx) (k : Nat) : Bool :=
  Config.firstCode ≤ k && k < c.nextCode

/-- `DictRead(ctx, k)`; `none` where the entry holds no value (R24, R61). -/
def Ctx.dictRead (c : Ctx) (k : Nat) : Option Entry :=
  if c.holdsValue k then c.dict.read k else none

/-- The walk of `Str` with at most `fuel` dictionary reads (R173). Codes 0..255 are hardwired (R172). -/
def Ctx.strWalk (c : Ctx) : Nat → Nat → Option (List Byte)
  | 0, k => if k < Config.nlit then some [byteOf k] else none
  | fuel + 1, k =>
    if k < Config.nlit then some [byteOf k]
    else
      match c.dictRead k with
      | none => none
      | some e =>
        match Ctx.strWalk c fuel e.pre with
        | none => none
        | some s => some (s ++ [e.last])

/-- `Str(ctx, k)` (R173), first byte first. `k` reads are more than it can need, because a prefix code is below its
entry's code (R46); `none` where a read of the chain has no value (log entry 9). -/
def Ctx.str (c : Ctx) (k : Nat) : Option (List Byte) := c.strWalk k k

/-- `Str(ctx, k)` for a command: a read of what holds no value stops the machine (R42). -/
def Ctx.strOrStop (c : Ctx) (k : Nat) : Result (List Byte) :=
  match c.str k with
  | some s => .ok s
  | none => .stop (.dictNoValue k)

/-- `Lookup(ctx, p, b)` (R174): the code of the entry `(p, b)`, `none` for a miss. The lowest such code, if there were
several (log entry 10). -/
def Ctx.lookup (c : Ctx) (p : Nat) (b : Byte) : Option Nat :=
  (c.dict.find? (fun x => c.holdsValue x.1 && x.2 == ⟨p, b⟩)).map Prod.fst

/-- `Insert(ctx, p, b)` (R175): the entry `(p, b)` at `next_code`, then `next_code + 1`. A write outside the memory's
codes `256 .. 2^WMAX - 1` (R60) stops the machine (log entry 8). -/
def Ctx.insert (prm : Params) (p : Nat) (b : Byte) (c : Ctx) : Result Ctx :=
  if Config.firstCode ≤ c.nextCode ∧ c.nextCode < 2 ^ prm.wmax then
    .ok { c with dict := c.dict.write c.nextCode ⟨p, b⟩, nextCode := c.nextCode + 1 }
  else .stop (.dictNoEntry c.nextCode)

/-- `WidthOf(occ)` (R178). -/
def widthOf (occ : Nat) : Nat := bitlen occ

/-- `Grow(ctx, occ)` (R179): no limit check. -/
def Ctx.grow (occ : Nat) (c : Ctx) : Ctx :=
  if occ = 2 ^ c.width then { c with width := c.width + 1 } else c

/-- `Out(ctx, s)` (R63). -/
def Ctx.emit (s : List Byte) (c : Ctx) : Ctx := { c with out := c.out ++ s }

/-- `W(j) = bitlen(255 + j)`: the width of code ordinal `j` (R92). -/
def ordinalWidth (j : Nat) : Nat := bitlen (255 + j)

/-! ### The bit writer -/

/-- `WriteBits(v, w)` (R191). -/
def Enc.writeBits (v w : Nat) (e : Enc) : Enc :=
  let q := e.acc * 2 ^ w + bitField v 0 w
  let t := e.nacc + w
  { e with
    out := e.out ++ leadingBytes (t / 8) q t
    nacc := t % 8
    acc := bitField q 0 (t % 8)
    trace := e.trace ++ [(bitField v 0 w, w)] }

/-- `Flush()` (R193): pad bits are 0. -/
def Enc.flush (e : Enc) : Enc :=
  if 0 < e.nacc then
    { e with out := e.out ++ [byteOf (e.acc * 2 ^ (8 - e.nacc))], acc := 0, nacc := 0 }
  else e

/-! ### The bit reader -/

/-- `AppendByte(b)` (R195). -/
def Dec.appendByte (b : Byte) (d : Dec) : Dec :=
  { d with rbuf := d.rbuf * 256 + b.toNat, nrbuf := d.nrbuf + 8 }

/-- `ExtractCode(w)` (R196): the code and the reader without its bits. -/
def Dec.extractCode (w : Nat) (d : Dec) : Nat × Dec :=
  let n := bitField d.rbuf (d.nrbuf - w) w
  (n, { d with
        rbuf := bitField d.rbuf 0 (d.nrbuf - w)
        nrbuf := d.nrbuf - w
        trace := d.trace ++ [(n, w)] })

/-! ### Fault entry and hardware reset -/

/-- `zext(info)` into the `WMAX + 1` bits of `ctx.finfo` (R7, R26, R219); a free value of that many bits where it does
not fit (log entry 7). -/
def zextInfo (prm : Params) (info : Nat) : Nat :=
  if info < 2 ^ (prm.wmax + 1) then info
  else Config.infoBeyondWidth prm.wmax info % 2 ^ (prm.wmax + 1)

/-- Fault entry (R219): `ctx.st`, `ctx.fault`, `ctx.finfo`, and nothing else of the context as it was before the
command. -/
def Ctx.enterFault (prm : Params) (f : FaultCode) (info : Nat) (c : Ctx) : Ctx :=
  { c with st := .fault, fault := f, finfo := zextInfo prm info }

/-- Fault entry of the encoder context; the other context and `cmd_fault` are untouched (R219). -/
def State.enterEncFault (f : FaultCode) (info : Nat) (s : State) : State :=
  { s with enc := { s.enc with toCtx := s.enc.toCtx.enterFault s.params f info } }

/-- Fault entry of the decoder context; the other context and `cmd_fault` are untouched (R219). -/
def State.enterDecFault (f : FaultCode) (info : Nat) (s : State) : State :=
  { s with dec := { s.dec with toCtx := s.dec.toCtx.enterFault s.params f info } }

/-- `IllegalCommand` (R215): `cmd_fault` and nothing else. -/
def State.illegalCommand (s : State) : State := { s with cmdFault := true }

/-- The reset input (R240), common to both contexts: every register at its value of R42. The dictionary memories are not
cleared; none of their entries holds a value, because `next_code` is 256 (R241). The instance's constants and what the
host drives next are not the block's registers. -/
def State.hardReset (s : State) : State :=
  { State.resetAt s.params with
    port := s.port
    enc := { Enc.reset with dict := s.enc.dict }
    dec := { Dec.reset with dict := s.dec.dict } }

/-! ### One command of a context -/

/-- A command of the encoder context: the legality table (R38), then the body. All of the body's writes take effect
together, or, if it raises, only fault entry's (R12, R219). `word` is the command's own word, the information word of a
`ProtocolError` (R211). -/
def State.onEnc (kind : CmdKind) (word : CommandWord) (body : Enc → Result Enc) (s : State) :
    Host.Outcome State Fault Refusal :=
  match legality s.enc.st kind with
  | .ignored => .next s
  | .notLegal => .next (s.enterEncFault .protocolError word.toNat)
  | .performed =>
    match body s.enc with
    | .ok e => .next { s with enc := e }
    | .raise f info => .next (s.enterEncFault f info)
    | .stop r => .fault r

/-- A command of the decoder context, as `State.onEnc`. -/
def State.onDec (kind : CmdKind) (word : CommandWord) (body : Dec → Result Dec) (s : State) :
    Host.Outcome State Fault Refusal :=
  match legality s.dec.st kind with
  | .ignored => .next s
  | .notLegal => .next (s.enterDecFault .protocolError word.toNat)
  | .performed =>
    match body s.dec with
    | .ok d => .next { s with dec := d }
    | .raise f info => .next (s.enterDecFault f info)
    | .stop r => .fault r

end Sys2Proof.Machine
end

