-- ==== Sys2Proof/Machine/Decoder.lean ====
section
/-!
DEFINITION. The decoder commands (spec/41_decoder.md).
-/

namespace Sys2Proof.Machine

open Sys2Proof

/-- The body of `DEC_INIT` (R141). `dec.prev_code` and `dec.prev_first` keep whatever they held. -/
def decInitBody (d : Dec) : Result Dec :=
  .ok { d with
        toCtx := { d.toCtx.bootstrap with out := [], trace := [], st := .active }
        havePrev := false
        rbuf := 0
        nrbuf := 0 }

/-- The four classes of a code value (R94). -/
inductive CodeClass where
  /-- Literal: the string is the one byte. -/
  | lit
  /-- Dictionary code: the string is stored. -/
  | ref
  /-- Not-yet-defined code: the entry this very step is about to insert. -/
  | kwk
  /-- Corrupt. -/
  | bad
deriving DecidableEq, Repr

/-- The class of code value `n` (R94). -/
def Dec.codeClass (d : Dec) (n : Nat) : CodeClass :=
  if n < d.nextCode then (if n < Config.nlit then .lit else .ref)
  else if n = d.nextCode ∧ d.havePrev = true then .kwk
  else .bad

/-- The resolved string of a later code `n`, with previous code `pc` and previous first byte `pf` (R145 steps 3a, 3b;
R146 to R148). -/
def resolveCode (pc : Nat) (pf : Byte) (n : Nat) (c : Ctx) : Result (List Byte) :=
  if n < c.nextCode then c.strOrStop n
  else if n = c.nextCode then (c.strOrStop pc).andThen fun s => .ok (s ++ [pf])
  else .raise .corruptCode n

/-- `ProcessCode(n)` for the first code of a call: no insertion, no width check (R145 step 2). Only `n <= 255` gets past
the test when `dec.next_code = 256`, as it is then. -/
def processFirst (n : Nat) (d : Dec) : Result Dec :=
  if d.nextCode ≤ n then .raise .corruptCode n
  else .ok { d with
             toCtx := d.toCtx.emit [byteOf n]
             prevCode := n
             prevFirst := byteOf n
             havePrev := true }

/-- `ProcessCode(n)` for a later code (R145 step 3): output, insertion, previous code, growth at occupancy
`dec.next_code + 1` (R180). A resolved string is never empty. -/
def processLater (prm : Params) (pc : Nat) (pf : Byte) (n : Nat) (d : Dec) : Result Dec :=
  (resolveCode pc pf n d.toCtx).andThen fun resolved =>
    let f := resolved.headD 0
    ((d.toCtx.emit resolved).insert prm pc f).andThen fun ctx =>
      .ok { d with toCtx := ctx.grow (ctx.nextCode + 1), prevCode := n, prevFirst := f }

/-- `ProcessCode(n)` (R145). -/
def processCode (prm : Params) (n : Nat) (d : Dec) : Result Dec :=
  match d.previous with
  | none => processFirst n d
  | some (pc, pf) => processLater prm pc pf n d

/-- The body of `DEC_BYTE b` (R142 to R144, R217). -/
def decByteBody (prm : Params) (b : Byte) (d : Dec) : Result Dec :=
  let d1 := d.appendByte b
  if d1.nrbuf < d1.width then .ok d1
  else if prm.wmax < d1.width then .raise .widthOverflow d1.nextCode
  else
    let x := d1.extractCode d1.width
    processCode prm x.1 x.2

/-- The body of `DEC_END` (R151): the buffered bits stay, unread. -/
def decEndBody (d : Dec) : Result Dec := .ok { d with st := .done }

/-- `DEC_INIT` (R141). -/
def execDecInit (s : State) : Host.Outcome State Fault Refusal :=
  s.onDec .init (encode .decInit) decInitBody

/-- `DEC_BYTE b` (R142). -/
def execDecByte (b : Byte) (s : State) : Host.Outcome State Fault Refusal :=
  s.onDec .byte (encode (.decByte b)) (decByteBody s.params b)

/-- `DEC_END` (R151). -/
def execDecEnd (s : State) : Host.Outcome State Fault Refusal :=
  s.onDec .finish (encode .decEnd) decEndBody

end Sys2Proof.Machine
end

