-- ==== Sys2Proof/Machine/Encoder.lean ====
section
/-!
DEFINITION. The encoder commands (spec/40_encoder.md).
-/

namespace Sys2Proof.Machine

open Sys2Proof

/-- The body of `ENC_INIT` (R121). `enc.cur_code` keeps whatever it held. -/
def encInitBody (e : Enc) : Result Enc :=
  .ok { e with
        toCtx := { e.toCtx.bootstrap with out := [], trace := [], st := .active }
        curValid := false
        acc := 0
        nacc := 0 }

/-- The miss branch of `ENC_BYTE c` with current match `m`, the four effects in the document's order (R122, R124). -/
def encMiss (prm : Params) (m : Nat) (c : Byte) (e : Enc) : Result Enc :=
  if prm.wmax < e.width then .raise .widthOverflow e.nextCode
  else
    let e1 := e.writeBits m e.width
    (e1.toCtx.insert prm m c).andThen fun ctx =>
      .ok { e1 with toCtx := ctx.grow ctx.nextCode, curCode := c.toNat }

/-- The body of `ENC_BYTE c` (R122, R123, R125). -/
def encByteBody (prm : Params) (c : Byte) (e : Enc) : Result Enc :=
  match e.currentMatch with
  | none => .ok { e with curCode := c.toNat, curValid := true }
  | some m =>
    match e.toCtx.lookup m c with
    | some k => .ok { e with curCode := k }
    | none => encMiss prm m c e

/-- The final emission of `ENC_END`: no insertion, no growth (R126). -/
def encFinalCode (prm : Params) (e : Enc) : Result Enc :=
  match e.currentMatch with
  | none => .ok e
  | some m =>
    if prm.wmax < e.width then .raise .widthOverflow e.nextCode
    else .ok { e.writeBits m e.width with curValid := false }

/-- The body of `ENC_END` (R127). -/
def encEndBody (prm : Params) (e : Enc) : Result Enc :=
  (encFinalCode prm e).andThen fun e1 => .ok { e1.flush with st := .done }

/-- `ENC_INIT` (R121). -/
def execEncInit (s : State) : Host.Outcome State Fault Refusal :=
  s.onEnc .init (encode .encInit) encInitBody

/-- `ENC_BYTE c` (R122). -/
def execEncByte (c : Byte) (s : State) : Host.Outcome State Fault Refusal :=
  s.onEnc .byte (encode (.encByte c)) (encByteBody s.params c)

/-- `ENC_END` (R127). -/
def execEncEnd (s : State) : Host.Outcome State Fault Refusal :=
  s.onEnc .finish (encode .encEnd) (encEndBody s.params)

end Sys2Proof.Machine
end

