-- ==== Sys2Proof/Machine/Step.lean ====
section
/-!
DEFINITION. One step of the block: the acceptance and complete execution of one command word (spec/00_scope.md R12), or
the reset input between commands (R240), or, while nothing has arrived, waiting (R242, R252). How a program comes to
run from reset: the host drives its command words; see log entry 2.
-/

namespace Sys2Proof.Machine

open Sys2Proof

/-- Execute a command word as it arrives on the command port: the decoded command, or `IllegalCommand` (R98, R102,
R215). -/
def State.acceptWord (w : CommandWord) (s : State) : Host.Outcome State Fault Refusal :=
  match decode w with
  | .ok i => exec i s
  | .error _ => .next s.illegalCommand

/-- One step (R12). With no event to accept, the state is held unchanged (R252). -/
def step (s : State) : Host.Outcome State Fault Refusal :=
  match s.port with
  | [] => .next s
  | .reset :: rest => .next { s with port := rest }.hardReset
  | .command w :: rest => { s with port := rest }.acceptWord w

/-- The state with the word whose bits are `w` driven on the command port as the next event. A number that is no 12-bit
word cannot be driven, and nothing is (log entry 13). -/
def State.withFetchWord (s : State) (nbits w : Nat) : State :=
  match tableWord nbits w with
  | some word => { s with port := .command word :: s.port }
  | none => s

end Sys2Proof.Machine
end

