-- ==== Sys2Proof/Machine/Status.lean ====
section
/-!
DEFINITION. The read-only status outputs (spec/10_state.md R40): views of registers, with no write side.
-/

namespace Sys2Proof.Machine

open Sys2Proof

/-- The status outputs of R40. The integer outputs show the register's own value: see log entry 11 for `WMAX > 30`. -/
structure StatusOutputs where
  encSt : BitVec 2
  decSt : BitVec 2
  encFault : BitVec 3
  decFault : BitVec 3
  encFinfo : Nat
  decFinfo : Nat
  encWidth : Nat
  decWidth : Nat
  encNextCode : Nat
  decNextCode : Nat
  decNrbuf : Nat
  cmdFault : Bool
deriving DecidableEq, Repr

/-- What the host sees between commands (R40). Reading changes nothing. -/
def State.statusOutputs (s : State) : StatusOutputs :=
  { encSt := s.enc.st.value
    decSt := s.dec.st.value
    encFault := s.enc.fault.value
    decFault := s.dec.fault.value
    encFinfo := s.enc.finfo
    decFinfo := s.dec.finfo
    encWidth := s.enc.width
    decWidth := s.dec.width
    encNextCode := s.enc.nextCode
    decNextCode := s.dec.nextCode
    decNrbuf := s.dec.nrbuf
    cmdFault := s.cmdFault }

end Sys2Proof.Machine
end

