-- ==== Sys2Proof/Machine/Script.lean ====
section
/-!
DEFINITION. Command sequences: the pseudo-commands of spec/30_encoding.md R105 and their execution, command after
command (spec/20_memory.md R73). Machinery for statements about a whole call (spec/00_scope.md R13).
-/

namespace Sys2Proof.Machine

open Sys2Proof

/-- `ENC_BYTES b0 .. bn` (R105). -/
def encBytes (s : List Byte) : List Instr := s.map Instr.encByte

/-- `DEC_BYTES b0 .. bn` (R105). -/
def decBytes (s : List Byte) : List Instr := s.map Instr.decByte

/-- `ENC_STR "text"`: the bytes of its ASCII characters (R105). Of a character outside ASCII, of which R105 says nothing,
the low 8 bits of its code point (DESIGN CHOICE, unsafe; log entry 15). -/
def encStr (text : String) : List Instr :=
  encBytes (text.toList.map fun ch => byteOf ch.toNat)

/-- `ENCODE b0 .. bn` (R105). -/
def encodeScript (s : List Byte) : List Instr := .encInit :: (encBytes s ++ [.encEnd])

/-- `DECODE b0 .. bn` (R105). -/
def decodeScript (s : List Byte) : List Instr := .decInit :: (decBytes s ++ [.decEnd])

/-- Go on from a next state; a fault or a refusal of the model ends the sequence. -/
def outcomeThen (o : Host.Outcome State Fault Refusal)
    (f : State → Host.Outcome State Fault Refusal) : Host.Outcome State Fault Refusal :=
  match o with
  | .next s => f s
  | .fault r => .fault r
  | .refused r => .refused r

/-- Execute a sequence of commands, in order, one at a time (R73, R104). -/
def execAll : List Instr → State → Host.Outcome State Fault Refusal
  | [], s => .next s
  | i :: rest, s => outcomeThen (exec i s) (execAll rest)

/-- The state with a script about to be driven on the command port. -/
def State.withScript (s : State) (script : List Instr) : State :=
  { s with port := script.map (fun i => HostEvent.command (encode i)) ++ s.port }

/-- The strings of a code sequence, one after the other (R128 (d), R152); `none` if one of them has no value. -/
def Ctx.strAll (c : Ctx) : List Nat → Option (List Byte)
  | [] => some []
  | k :: rest =>
    match c.str k with
    | none => none
    | some s =>
      match Ctx.strAll c rest with
      | none => none
      | some t => some (s ++ t)

/-- The string of the current match; the empty sequence when it is empty (R29). -/
def Enc.matchText (e : Enc) : Option (List Byte) :=
  match e.currentMatch with
  | none => some []
  | some k => e.toCtx.str k

/-- The input the encoder has consumed in this call, as its state spells it: the strings of the codes written, then the
current match (R128 (d)). -/
def Enc.text (e : Enc) : Option (List Byte) :=
  match e.toCtx.strAll (e.trace.map Prod.fst), e.matchText with
  | some s, some t => some (s ++ t)
  | _, _ => none

/-- The registers of a context a command can read: the dictionary entries that hold a value (R24), the others left
out. -/
def Ctx.readable (c : Ctx) : Ctx :=
  { c with dict := c.dict.filter (fun x => c.holdsValue x.1) }

/-- The encoder context without what holds no value: `enc.cur_code` while `enc.cur_valid = 0` (R29), and unreadable
dictionary entries. -/
def Enc.readable (e : Enc) : Enc :=
  { e with toCtx := e.toCtx.readable, curCode := if e.curValid then e.curCode else 0 }

/-- The decoder context without what holds no value: `dec.prev_code` and `dec.prev_first` while `dec.have_prev = 0`
(R31, R32), and unreadable dictionary entries. -/
def Dec.readable (d : Dec) : Dec :=
  { d with
    toCtx := d.toCtx.readable
    prevCode := if d.havePrev then d.prevCode else 0
    prevFirst := if d.havePrev then d.prevFirst else 0 }

/-- The state without what holds no value (R24, R42, 93_implementation_defined.md P5). -/
def State.readable (s : State) : State :=
  { s with enc := s.enc.readable, dec := s.dec.readable }

end Sys2Proof.Machine
end

