-- ==== Sys2Proof/Safety.lean ====
section
/-!
DEFINITION. What counts as a sound state, in the terms claims use: the invariants the spec's rules keep (spec/10_state.md
R43 to R47, spec/42_width_policy_dictionary.md R177 and R181, spec/43_bit_channel.md R198), and when a call has
succeeded (spec/60_exceptions.md R220).
-/

namespace Sys2Proof.Machine

open Sys2Proof

/-- What holds of the registers both contexts have. -/
structure CtxInv (prm : Params) (c : Ctx) : Prop where
  /-- The codes written are 256, 257, and so on, in order (R175); so the memory is in canonical form. -/
  codes : c.dict.map Prod.fst = List.range' Config.firstCode c.dict.length
  /-- Every code below `next_code` has been written (R24). -/
  filled : c.nextCode ≤ Config.firstCode + c.dict.length
  /-- No code of `2^WMAX` or above is stored (R60, R181). -/
  inMemory : Config.firstCode + c.dict.length ≤ 2 ^ prm.wmax
  /-- Prefix order (R46). -/
  descends : ∀ x ∈ c.dict, x.2.pre < x.1
  /-- `next_code` starts at 256 (R22). -/
  nextCodeLow : Config.firstCode ≤ c.nextCode
  /-- The fault register records the state `FAULT` (R26, R219). -/
  faultRecorded : c.st = .fault ↔ c.fault ≠ .none
  /-- `ctx.finfo` is 0 when there is no fault (R26). -/
  infoZero : c.fault = .none → c.finfo = 0
  /-- `ctx.finfo` has `WMAX + 1` bits (R26). -/
  infoFits : c.finfo < 2 ^ (prm.wmax + 1)

/-- What holds of the encoder context. -/
structure EncInv (prm : Params) (e : Enc) : Prop where
  ctx : CtxInv prm e.toCtx
  /-- Encoder width invariant (R43). -/
  width : e.width = widthOf e.nextCode
  /-- The current match is a code of the dictionary (R29). -/
  current : e.curValid = true → e.curCode < e.nextCode
  /-- `enc.nacc` is 0..7 (R28). -/
  naccLow : e.nacc < 8
  /-- `enc.acc` has `enc.nacc` bits (R28). -/
  accFits : e.acc < 2 ^ e.nacc
  /-- No two entries that hold a value hold the same pair (R177 (c)). -/
  distinct : ((e.dict.take (e.nextCode - Config.firstCode)).map Prod.snd).Nodup
  /-- With no current match, a call in progress has written nothing yet (R123). -/
  emptyMatch : e.st = .active → e.curValid = false →
    e.nextCode = Config.firstCode ∧ e.nacc = 0 ∧ e.out = [] ∧ e.trace = []
  /-- After `ENC_END` the match and the writer are empty (R127, D25). -/
  doneEmpty : e.st = .done → e.curValid = false ∧ e.nacc = 0

/-- What holds of the decoder context. -/
structure DecInv (prm : Params) (d : Dec) : Prop where
  ctx : CtxInv prm d.toCtx
  /-- Decoder width invariant (R44). -/
  width : d.width = widthOf (d.nextCode + 1)
  /-- `dec.next_code` is at most `2^WMAX - 1` (R181). -/
  nextCodeHigh : d.nextCode < 2 ^ prm.wmax
  /-- The previous code is a code of the dictionary (R31). -/
  previous : d.havePrev = true → d.prevCode < d.nextCode
  /-- `dec.prev_first` is the first byte of the previous string (R32, R149). -/
  previousFirst : d.havePrev = true → ∃ s, d.toCtx.str d.prevCode = some (d.prevFirst :: s)
  /-- Before the first code nothing has been inserted or read (R30, R145). -/
  noPrevious : d.havePrev = false → d.nextCode = Config.firstCode ∧ d.trace = []
  /-- Reader invariant (R198). -/
  nrbufLow : d.nrbuf < d.width
  /-- `dec.rbuf` has `dec.nrbuf` bits (R33). -/
  rbufFits : d.rbuf < 2 ^ d.nrbuf

/-- The machine's invariant. -/
structure State.Inv (s : State) : Prop where
  params : s.params.wf
  enc : EncInv s.params s.enc
  dec : DecInv s.params s.dec

/-- The codes of a call carry the widths `W(1), W(2), ..` of R92, and code ordinal `j` is at most `254 + j` (R95). -/
def TraceOrdinals (t : List (Nat × Nat)) : Prop :=
  ∀ j (h : j < t.length), t[j].2 = ordinalWidth (j + 1) ∧ t[j].1 ≤ 254 + (j + 1)

/-- What the encoder's output and trace are, over the call (R47, R90, R92, R95, R124). -/
structure EncStream (e : Enc) : Prop where
  /-- Nothing has been written before the first call (R21). -/
  idle : e.st = .idle → e.out = [] ∧ e.trace = []
  ordinals : TraceOrdinals e.trace
  /-- During a call: the codes' bits are the output's bits, then the pending bits (R47, R90). -/
  active : e.st = .active → codeBits e.trace = streamBits e.out ++ bitsMSB e.acc e.nacc
  /-- Each code so far was a miss emission and one insertion (R124). -/
  count : e.st = .active → e.nextCode = 256 + e.trace.length
  /-- After the call: the codes' bits, then 0 to 7 zero bits (R69, R90). -/
  done : e.st = .done →
    streamBits e.out =
      codeBits e.trace ++ List.replicate ((8 - traceWidths e.trace % 8) % 8) false
  /-- After the call: every code but the last was a miss emission (R128 (b)). -/
  doneCount : e.st = .done →
    (e.trace = [] ∧ e.nextCode = 256) ∨ (e.trace ≠ [] ∧ e.nextCode = 255 + e.trace.length)

/-- What the decoder's output and trace are, over the call (R37, R92, R95, R152). -/
structure DecStream (d : Dec) : Prop where
  ordinals : TraceOrdinals d.trace
  /-- One insertion per code after the first (R37, R145). -/
  count : d.havePrev = true → d.trace ≠ [] ∧ d.nextCode = 255 + d.trace.length
  /-- The output is the strings of the codes read, in order (R145, R250). -/
  output : d.toCtx.strAll (d.trace.map Prod.fst) = some d.out

/-- The machine's stream invariant. -/
structure State.StreamInv (s : State) : Prop where
  enc : EncStream s.enc
  dec : DecStream s.dec

/-- A context in which a new call may start: `INIT` is performed (R38). -/
abbrev Ctx.ready (c : Ctx) : Prop := c.st = .idle ∨ c.st = .done

/-- A call has succeeded: its context is in `DONE` (R220). -/
abbrev Ctx.succeeded (c : Ctx) : Prop := c.st = .done

end Sys2Proof.Machine
end

