-- ==== Sys2Proof/Certificates/Slice0/Obligations.lean ====
section
/-!
DEFINITION. The statements about the model, one `def Obligations.<Name> : Prop` each, in the order of the spec's files.
Each docstring names the rule of spec/ it formalises.
-/

open Sys2Proof Sys2Proof.Machine

/-! ### Command words (spec/30_encoding.md) -/

/-- R98: the six rows, with every operand value. -/
def Obligations.TableWordsDecode : Prop :=
  decode 0x100 = .ok .encInit ∧
  (∀ c : Byte, decode (BitVec.ofNat 12 (0x200 + c.toNat)) = .ok (.encByte c)) ∧
  decode 0x300 = .ok .encEnd ∧
  decode 0x500 = .ok .decInit ∧
  (∀ b : Byte, decode (BitVec.ofNat 12 (0x600 + b.toNat)) = .ok (.decByte b)) ∧
  decode 0x700 = .ok .decEnd

/-- Words written out bit by bit from the encoding patterns of the opcode table, two of them illegal (R102). -/
def Obligations.SampleWordsDecode : Prop :=
  decode 0b000100000000 = .ok .encInit ∧
  decode 0b001001000001 = .ok (.encByte 0x41) ∧
  decode 0b001100000000 = .ok .encEnd ∧
  decode 0b010100000000 = .ok .decInit ∧
  decode 0b011011000000 = .ok (.decByte 0xC0) ∧
  decode 0b011100000000 = .ok .decEnd ∧
  decode 0b000100000001 = .error .dataNotZero ∧
  decode 0b010000000000 = .error .illegalOp

/-- The decoder and the encoder agree on every word and every command: a word decodes to a command exactly when it is
that command's word (R97, R98). -/
def Obligations.DecodeEncodeAgree : Prop :=
  ∀ (w : CommandWord) (i : Instr), decode w = .ok i ↔ encode i = w

/-- R102: which words are illegal and why, by their `op` and `data` fields; that these are the words that match no row
of R98, 3580 of the 4096; and that an illegal word sets `cmd_fault` and changes neither context. -/
def Obligations.IllegalWordsAreRejected : Prop :=
  ∀ w : CommandWord,
    (decode w = .error .illegalOp ↔
      w.toNat / 256 = 0 ∨ w.toNat / 256 = 4 ∨ 8 ≤ w.toNat / 256) ∧
    (decode w = .error .dataNotZero ↔
      (w.toNat / 256 = 1 ∨ w.toNat / 256 = 3 ∨ w.toNat / 256 = 5 ∨ w.toNat / 256 = 7) ∧
        w.toNat % 256 ≠ 0) ∧
    ((∃ r, decode w = .error r) ↔ legalWord w = false) ∧
    ((List.range 4096).filter (fun n => legalWord (BitVec.ofNat 12 n))).length = 516 ∧
    ((List.range 4096).filter (fun n => !legalWord (BitVec.ofNat 12 n))).length = 3580 ∧
    (legalWord w = false → ∀ s : State, s.acceptWord w = .next { s with cmdFault := true })

/-! ### The step (spec/00_scope.md R12, spec/70_reset_and_hazards.md) -/

/-- A step executes the decoded command, with the command port moved past its word (R12). -/
def Obligations.StepRunsDecodedCommand : Prop :=
  ∀ (s : State) (w : CommandWord) (rest : List HostEvent) (i : Instr),
    s.port = .command w :: rest → decode w = .ok i → step s = exec i { s with port := rest }

/-- R215: an illegal word sets `cmd_fault` and changes nothing else (the command port moves past the word); no command
clears it, and every command is performed as it would be without it. -/
def Obligations.IllegalWordSetsCmdFault : Prop :=
  ∀ s : State,
    (∀ (w : CommandWord) (rest : List HostEvent),
      s.port = .command w :: rest → legalWord w = false →
        step s = .next { s with port := rest, cmdFault := true }) ∧
    (∀ (i : Instr) (t : State), exec i s = .next t →
      t.cmdFault = s.cmdFault ∧
      exec i { s with cmdFault := true } = .next { t with cmdFault := true })

/-- With no command to perform the block holds its state (R252). -/
def Obligations.WaitingChangesNothing : Prop :=
  ∀ s : State, s.port = [] → step s = .next s

/-- R42, for the reset input in any state: every register at its value of the table; what has no value there is not
readable. The instance's constants and the rest of the port stay. -/
def Obligations.ResetInputSetsTable : Prop :=
  ∀ (s : State) (rest : List HostEvent), s.port = .reset :: rest →
    ∃ t, step s = .next t ∧ t.params = s.params ∧ t.port = rest ∧
      t.enc.st = .idle ∧ t.dec.st = .idle ∧ t.enc.fault = .none ∧ t.dec.fault = .none ∧
      t.enc.finfo = 0 ∧ t.dec.finfo = 0 ∧ t.cmdFault = false ∧
      t.enc.nextCode = 256 ∧ t.dec.nextCode = 256 ∧ t.enc.width = 9 ∧ t.dec.width = 9 ∧
      (∀ k, t.enc.toCtx.dictRead k = none ∧ t.dec.toCtx.dictRead k = none) ∧
      t.enc.curValid = false ∧ t.enc.currentMatch = none ∧ t.enc.acc = 0 ∧ t.enc.nacc = 0 ∧
      t.dec.havePrev = false ∧ t.dec.previous = none ∧ t.dec.rbuf = 0 ∧ t.dec.nrbuf = 0 ∧
      t.enc.out = [] ∧ t.dec.out = [] ∧ t.enc.trace = [] ∧ t.dec.trace = []

/-- R42, for the model's reset state. -/
def Obligations.ResetStateHasTableValues : Prop :=
  State.reset.enc.st = .idle ∧ State.reset.dec.st = .idle ∧
  State.reset.enc.fault = .none ∧ State.reset.dec.fault = .none ∧
  State.reset.enc.finfo = 0 ∧ State.reset.dec.finfo = 0 ∧ State.reset.cmdFault = false ∧
  State.reset.enc.nextCode = 256 ∧ State.reset.dec.nextCode = 256 ∧
  State.reset.enc.width = 9 ∧ State.reset.dec.width = 9 ∧
  (∀ k, State.reset.enc.toCtx.dictRead k = none ∧ State.reset.dec.toCtx.dictRead k = none) ∧
  State.reset.enc.curValid = false ∧ State.reset.enc.currentMatch = none ∧
  State.reset.enc.acc = 0 ∧ State.reset.enc.nacc = 0 ∧
  State.reset.dec.havePrev = false ∧ State.reset.dec.previous = none ∧
  State.reset.dec.rbuf = 0 ∧ State.reset.dec.nrbuf = 0 ∧
  State.reset.enc.out = [] ∧ State.reset.dec.out = [] ∧
  State.reset.enc.trace = [] ∧ State.reset.dec.trace = []

/-- R40: each status output is a view of its register: the numeric values of `ctx.st` and `ctx.fault` (R21, R210) and the
integer registers themselves, which fit the outputs' widths: `WMAX + 1` bits, or 5 bits when `WMAX <= 30`. That
`enc_width`, `dec_width` and `dec_nrbuf` show the register's own value also for `WMAX > 30`, where 5 bits may not hold it,
is the model's choice (DESIGN CHOICE, log entry 11) and rests on no rule. -/
def Obligations.StatusOutputsShowRegisters : Prop :=
  ∀ s : State,
    (s.statusOutputs.encSt = 0 ↔ s.enc.st = .idle) ∧
    (s.statusOutputs.encSt = 1 ↔ s.enc.st = .active) ∧
    (s.statusOutputs.encSt = 2 ↔ s.enc.st = .done) ∧
    (s.statusOutputs.encSt = 3 ↔ s.enc.st = .fault) ∧
    (s.statusOutputs.decSt = 0 ↔ s.dec.st = .idle) ∧
    (s.statusOutputs.decSt = 1 ↔ s.dec.st = .active) ∧
    (s.statusOutputs.decSt = 2 ↔ s.dec.st = .done) ∧
    (s.statusOutputs.decSt = 3 ↔ s.dec.st = .fault) ∧
    (s.statusOutputs.encFault = 0 ↔ s.enc.fault = .none) ∧
    (s.statusOutputs.encFault = 1 ↔ s.enc.fault = .protocolError) ∧
    (s.statusOutputs.encFault = 2 ↔ s.enc.fault = .corruptCode) ∧
    (s.statusOutputs.encFault = 3 ↔ s.enc.fault = .widthOverflow) ∧
    (s.statusOutputs.decFault = 0 ↔ s.dec.fault = .none) ∧
    (s.statusOutputs.decFault = 1 ↔ s.dec.fault = .protocolError) ∧
    (s.statusOutputs.decFault = 2 ↔ s.dec.fault = .corruptCode) ∧
    (s.statusOutputs.decFault = 3 ↔ s.dec.fault = .widthOverflow) ∧
    s.statusOutputs.encFinfo = s.enc.finfo ∧ s.statusOutputs.decFinfo = s.dec.finfo ∧
    s.statusOutputs.encWidth = s.enc.width ∧ s.statusOutputs.decWidth = s.dec.width ∧
    s.statusOutputs.encNextCode = s.enc.nextCode ∧
    s.statusOutputs.decNextCode = s.dec.nextCode ∧
    s.statusOutputs.decNrbuf = s.dec.nrbuf ∧ s.statusOutputs.cmdFault = s.cmdFault ∧
    (s.Inv →
      s.statusOutputs.encFinfo < 2 ^ (s.params.wmax + 1) ∧
      s.statusOutputs.decFinfo < 2 ^ (s.params.wmax + 1) ∧
      s.statusOutputs.encNextCode < 2 ^ (s.params.wmax + 1) ∧
      s.statusOutputs.decNextCode < 2 ^ (s.params.wmax + 1) ∧
      (s.params.wmax ≤ 30 → s.statusOutputs.encWidth < 2 ^ 5 ∧
        s.statusOutputs.decWidth < 2 ^ 5 ∧ s.statusOutputs.decNrbuf < 2 ^ 5))

/-! ### The encoder commands (spec/40_encoder.md) -/

/-- R121. -/
def Obligations.EncInitMeaning : Prop :=
  encode .encInit = 0x100 ∧
  ∀ s : State,
    (s.enc.toCtx.ready →
      exec .encInit s = .next { s with enc := { s.enc with
        st := .active, nextCode := 256, width := 9, curValid := false, acc := 0, nacc := 0,
        out := [], trace := [] } }) ∧
    (s.enc.toCtx.ready → ∀ t, exec .encInit s = .next t → ∀ k, t.enc.toCtx.dictRead k = none) ∧
    (s.enc.st = .active →
      exec .encInit s = .next { s with enc := { s.enc with
        st := .fault, fault := .protocolError, finfo := zextInfo s.params 0x100 } }) ∧
    (s.enc.st = .fault → exec .encInit s = .next s)

/-- R122, with the search of R174 written out: `ENC_BYTE c` on an empty match, on a hit, on a miss at a width the
hardware has (it outputs 1 or 2 bytes at widths up to 16), on a miss at a width it has not (exactly when the dictionary
memory is full), and in the states where it is not performed. -/
def Obligations.EncByteMeaning : Prop :=
  ∀ (s : State) (c : Byte),
    (encode (.encByte c)).toNat = 0x200 + c.toNat ∧
    (s.enc.st = .fault → exec (.encByte c) s = .next s) ∧
    (s.enc.toCtx.ready →
      exec (.encByte c) s = .next { s with enc := { s.enc with
        st := .fault, fault := .protocolError,
        finfo := zextInfo s.params (0x200 + c.toNat) } }) ∧
    (s.Inv → s.enc.st = .active →
      (s.params.wmax < s.enc.width ↔ s.enc.nextCode = 2 ^ s.params.wmax) ∧
      (s.enc.width ≤ 16 → 1 ≤ (s.enc.nacc + s.enc.width) / 8 ∧
        (s.enc.nacc + s.enc.width) / 8 ≤ 2) ∧
      (s.enc.curValid = false →
        exec (.encByte c) s = .next { s with enc := { s.enc with
          curCode := c.toNat, curValid := true } }) ∧
      (s.enc.curValid = true →
        (∀ k, s.enc.toCtx.dictRead k = some ⟨s.enc.curCode, c⟩ →
          exec (.encByte c) s = .next { s with enc := { s.enc with curCode := k } }) ∧
        ((∀ k, s.enc.toCtx.dictRead k ≠ some ⟨s.enc.curCode, c⟩) →
          (s.params.wmax < s.enc.width →
            exec (.encByte c) s = .next { s with enc := { s.enc with
              st := .fault, fault := .widthOverflow,
              finfo := zextInfo s.params s.enc.nextCode } }) ∧
          (s.enc.width ≤ s.params.wmax →
            exec (.encByte c) s = .next { s with enc := { s.enc with
              out := s.enc.out ++ leadingBytes ((s.enc.nacc + s.enc.width) / 8)
                (s.enc.acc * 2 ^ s.enc.width + s.enc.curCode) (s.enc.nacc + s.enc.width),
              nacc := (s.enc.nacc + s.enc.width) % 8,
              acc := (s.enc.acc * 2 ^ s.enc.width + s.enc.curCode) %
                2 ^ ((s.enc.nacc + s.enc.width) % 8),
              trace := s.enc.trace ++ [(s.enc.curCode, s.enc.width)],
              dict := s.enc.dict.write s.enc.nextCode ⟨s.enc.curCode, c⟩,
              nextCode := s.enc.nextCode + 1,
              width := if s.enc.nextCode + 1 = 2 ^ s.enc.width then s.enc.width + 1
                else s.enc.width,
              curCode := c.toNat } }))))

/-- R127: `ENC_END` with an empty match, with a final code at a width the hardware has (and its flush, R193), with one
at a width it has not, and in the states where it is not performed. -/
def Obligations.EncEndMeaning : Prop :=
  encode .encEnd = 0x300 ∧
  ∀ s : State,
    (s.enc.st = .fault → exec .encEnd s = .next s) ∧
    (s.enc.toCtx.ready →
      exec .encEnd s = .next { s with enc := { s.enc with
        st := .fault, fault := .protocolError, finfo := zextInfo s.params 0x300 } }) ∧
    (s.Inv → s.enc.st = .active →
      (s.enc.curValid = false →
        exec .encEnd s = .next { s with enc := { s.enc with st := .done } }) ∧
      (s.enc.curValid = true → s.params.wmax < s.enc.width →
        exec .encEnd s = .next { s with enc := { s.enc with
          st := .fault, fault := .widthOverflow,
          finfo := zextInfo s.params s.enc.nextCode } }) ∧
      (s.enc.curValid = true → s.enc.width ≤ s.params.wmax →
        exec .encEnd s = .next { s with enc := { s.enc with
          out := s.enc.out ++ leadingBytes ((s.enc.nacc + s.enc.width) / 8)
              (s.enc.acc * 2 ^ s.enc.width + s.enc.curCode) (s.enc.nacc + s.enc.width) ++
            (if (s.enc.nacc + s.enc.width) % 8 = 0 then []
              else [byteOf ((s.enc.acc * 2 ^ s.enc.width + s.enc.curCode) %
                2 ^ ((s.enc.nacc + s.enc.width) % 8) *
                  2 ^ (8 - (s.enc.nacc + s.enc.width) % 8))]),
          nacc := 0,
          acc := 0,
          trace := s.enc.trace ++ [(s.enc.curCode, s.enc.width)],
          curValid := false,
          st := .done } }))

/-- R246: the entry a miss inserts is found by the very next `Lookup` of its pair. -/
def Obligations.InsertedEntryIsFoundNext : Prop :=
  ∀ (s t : State) (c : Byte), s.Inv → s.enc.st = .active → s.enc.curValid = true →
    (∀ k, s.enc.toCtx.dictRead k ≠ some ⟨s.enc.curCode, c⟩) → s.enc.width ≤ s.params.wmax →
    exec (.encByte c) s = .next t →
      t.enc.toCtx.lookup s.enc.curCode c = some s.enc.nextCode

/-- R45: the code of the current match is below `next_code`, which fits the width, so no set bit is dropped. -/
def Obligations.EmittedCodeFitsWidth : Prop :=
  ∀ (p : Params) (e : Enc), EncInv p e → e.curValid = true →
    e.curCode < e.nextCode ∧ e.nextCode < 2 ^ e.width ∧ bitField e.curCode 0 e.width = e.curCode

/-- R22, R23, R122, R181, R213: the ranges of `next_code` and `width`; a width register above `WMAX` means, in `enc`, a
full dictionary memory, and in `dec` the last code but one inserted. -/
def Obligations.WidthAboveLimitMeansFull : Prop :=
  (∀ (p : Params) (e : Enc), p.wf → EncInv p e →
    256 ≤ e.nextCode ∧ e.nextCode ≤ 2 ^ p.wmax ∧ 9 ≤ e.width ∧ e.width ≤ p.wmax + 1 ∧
    (p.wmax < e.width ↔ e.nextCode = 2 ^ p.wmax)) ∧
  (∀ (p : Params) (d : Dec), p.wf → DecInv p d →
    256 ≤ d.nextCode ∧ d.nextCode + 1 ≤ 2 ^ p.wmax ∧ 9 ≤ d.width ∧ d.width ≤ p.wmax + 1 ∧
    (p.wmax < d.width ↔ d.nextCode + 1 = 2 ^ p.wmax))

/-- R128 (d), one command at a time: the codes written and the current match spell the input consumed. -/
def Obligations.EncoderSpellsItsInput : Prop :=
  ∀ s t : State, s.Inv → s.StreamInv → s.enc.st = .active →
    (∀ c : Byte, exec (.encByte c) s = .next t → t.enc.st = .active →
      ∃ x, s.enc.text = some x ∧ t.enc.text = some (x ++ [c])) ∧
    (exec .encEnd s = .next t → t.enc.st = .done →
      ∃ x, s.enc.text = some x ∧ t.enc.toCtx.strAll (t.enc.trace.map Prod.fst) = some x)

/-- R128 (a) to (e), R95, for a whole encode call that raises no fault: how many codes, what `next_code` ends at, each
code's width and bound, what the codes spell, and how many bytes they fill. -/
def Obligations.EncodeCallProperties : Prop :=
  ∀ (s t : State) (input : List Byte), s.Inv → s.enc.toCtx.ready →
    execAll (encodeScript input) s = .next t → t.enc.toCtx.succeeded →
      (input = [] → t.enc.trace = [] ∧ t.enc.nextCode = 256) ∧
      (input ≠ [] → t.enc.trace ≠ [] ∧ t.enc.nextCode = 255 + t.enc.trace.length) ∧
      (∀ j (h : j < t.enc.trace.length),
        t.enc.trace[j].2 = ordinalWidth (j + 1) ∧ t.enc.trace[j].1 ≤ 254 + (j + 1)) ∧
      t.enc.toCtx.strAll (t.enc.trace.map Prod.fst) = some input ∧
      t.enc.out.length = (traceWidths t.enc.trace + 7) / 8

/-- R90, for a whole encode call that raises no fault: the packed stream is the bits of the codes, each at the width of
its ordinal, most significant bit first and with no gap, then the pad bits, all 0; it is empty when there is no code. -/
def Obligations.PackedStreamIsCodesThenPad : Prop :=
  ∀ (s t : State) (input : List Byte), s.Inv → s.enc.toCtx.ready →
    execAll (encodeScript input) s = .next t → t.enc.toCtx.succeeded →
      (∀ j (h : j < t.enc.trace.length), t.enc.trace[j].2 = ordinalWidth (j + 1)) ∧
      streamBits t.enc.out = codeBits t.enc.trace ++
        List.replicate ((8 - traceWidths t.enc.trace % 8) % 8) false ∧
      (t.enc.trace = [] → t.enc.out = [])

/-! ### The decoder commands (spec/41_decoder.md) -/

/-- R141. -/
def Obligations.DecInitMeaning : Prop :=
  encode .decInit = 0x500 ∧
  ∀ s : State,
    (s.dec.toCtx.ready →
      exec .decInit s = .next { s with dec := { s.dec with
        st := .active, nextCode := 256, width := 9, havePrev := false, rbuf := 0, nrbuf := 0,
        out := [], trace := [] } }) ∧
    (s.dec.toCtx.ready → ∀ t, exec .decInit s = .next t → ∀ k, t.dec.toCtx.dictRead k = none) ∧
    (s.dec.st = .active →
      exec .decInit s = .next { s with dec := { s.dec with
        st := .fault, fault := .protocolError, finfo := zextInfo s.params 0x500 } }) ∧
    (s.dec.st = .fault → exec .decInit s = .next s)

/-- R142, R144: `DEC_BYTE b` where it is not performed, where no code is complete, and where one is complete at a width
the hardware has not. -/
def Obligations.DecByteWithoutCode : Prop :=
  ∀ (s : State) (b : Byte),
    (s.dec.st = .fault → exec (.decByte b) s = .next s) ∧
    (s.dec.toCtx.ready →
      exec (.decByte b) s = .next { s with dec := { s.dec with
        st := .fault, fault := .protocolError,
        finfo := zextInfo s.params (0x600 + b.toNat) } }) ∧
    (s.dec.st = .active → s.dec.nrbuf + 8 < s.dec.width →
      exec (.decByte b) s = .next { s with dec := { s.dec with
        rbuf := s.dec.rbuf * 256 + b.toNat, nrbuf := s.dec.nrbuf + 8 } }) ∧
    (s.dec.st = .active → s.dec.width ≤ s.dec.nrbuf + 8 → s.params.wmax < s.dec.width →
      exec (.decByte b) s = .next { s with dec := { s.dec with
        st := .fault, fault := .widthOverflow,
        finfo := zextInfo s.params s.dec.nextCode } })

/-- R145 step 2: `DEC_BYTE` completing the first code of a call, a literal: no insertion, no growth. -/
def Obligations.DecByteFirstCode : Prop :=
  ∀ (s : State) (b : Byte) (n : Nat), s.Inv → s.dec.st = .active →
    s.dec.width ≤ s.dec.nrbuf + 8 → s.dec.width ≤ s.params.wmax →
    n = (s.dec.rbuf * 256 + b.toNat) / 2 ^ (s.dec.nrbuf + 8 - s.dec.width) →
    s.dec.havePrev = false → n ≤ 255 →
      exec (.decByte b) s = .next { s with dec := { s.dec with
        rbuf := (s.dec.rbuf * 256 + b.toNat) % 2 ^ (s.dec.nrbuf + 8 - s.dec.width),
        nrbuf := s.dec.nrbuf + 8 - s.dec.width,
        trace := s.dec.trace ++ [(n, s.dec.width)],
        out := s.dec.out ++ [byteOf n],
        prevCode := n, prevFirst := byteOf n, havePrev := true } }

/-- R146: `DEC_BYTE` completing a later code that is present in the dictionary. -/
def Obligations.DecBytePresentCode : Prop :=
  ∀ (s : State) (b : Byte) (n : Nat), s.Inv → s.dec.st = .active →
    s.dec.width ≤ s.dec.nrbuf + 8 → s.dec.width ≤ s.params.wmax →
    n = (s.dec.rbuf * 256 + b.toNat) / 2 ^ (s.dec.nrbuf + 8 - s.dec.width) →
    s.dec.havePrev = true → n < s.dec.nextCode →
      ∃ f tail, s.dec.toCtx.str n = some (f :: tail) ∧
        (n ≤ 255 → f = byteOf n ∧ tail = []) ∧
        exec (.decByte b) s = .next { s with dec := { s.dec with
          rbuf := (s.dec.rbuf * 256 + b.toNat) % 2 ^ (s.dec.nrbuf + 8 - s.dec.width),
          nrbuf := s.dec.nrbuf + 8 - s.dec.width,
          trace := s.dec.trace ++ [(n, s.dec.width)],
          out := s.dec.out ++ (f :: tail),
          dict := s.dec.dict.write s.dec.nextCode ⟨s.dec.prevCode, f⟩,
          nextCode := s.dec.nextCode + 1,
          width := if s.dec.nextCode + 2 = 2 ^ s.dec.width then s.dec.width + 1
            else s.dec.width,
          prevCode := n, prevFirst := f } }

/-- R147: `DEC_BYTE` completing the not-yet-defined code: the previous string extended by its own first byte is output,
the entry then inserted has exactly that string, and the code is present for the next step. -/
def Obligations.DecByteNotYetDefinedCode : Prop :=
  ∀ (s : State) (b : Byte), s.Inv → s.dec.st = .active →
    s.dec.width ≤ s.dec.nrbuf + 8 → s.dec.width ≤ s.params.wmax →
    s.dec.nextCode = (s.dec.rbuf * 256 + b.toNat) / 2 ^ (s.dec.nrbuf + 8 - s.dec.width) →
    s.dec.havePrev = true →
      ∃ tail t, s.dec.toCtx.str s.dec.prevCode = some (s.dec.prevFirst :: tail) ∧
        exec (.decByte b) s = .next t ∧
        t = { s with dec := { s.dec with
          rbuf := (s.dec.rbuf * 256 + b.toNat) % 2 ^ (s.dec.nrbuf + 8 - s.dec.width),
          nrbuf := s.dec.nrbuf + 8 - s.dec.width,
          trace := s.dec.trace ++ [(s.dec.nextCode, s.dec.width)],
          out := s.dec.out ++ (s.dec.prevFirst :: tail ++ [s.dec.prevFirst]),
          dict := s.dec.dict.write s.dec.nextCode ⟨s.dec.prevCode, s.dec.prevFirst⟩,
          nextCode := s.dec.nextCode + 1,
          width := if s.dec.nextCode + 2 = 2 ^ s.dec.width then s.dec.width + 1
            else s.dec.width,
          prevCode := s.dec.nextCode } } ∧
        t.dec.toCtx.str s.dec.nextCode =
          some (s.dec.prevFirst :: tail ++ [s.dec.prevFirst]) ∧
        t.dec.prevCode < t.dec.nextCode

/-- R148, R212: `DEC_BYTE` completing a corrupt code: nothing is output, nothing is inserted, the byte is not kept. -/
def Obligations.DecByteCorruptCode : Prop :=
  ∀ (s : State) (b : Byte) (n : Nat), s.Inv → s.dec.st = .active →
    s.dec.width ≤ s.dec.nrbuf + 8 → s.dec.width ≤ s.params.wmax →
    n = (s.dec.rbuf * 256 + b.toNat) / 2 ^ (s.dec.nrbuf + 8 - s.dec.width) →
    (s.dec.nextCode < n ∨ (s.dec.havePrev = false ∧ 256 ≤ n)) →
      exec (.decByte b) s = .next { s with dec := { s.dec with
        st := .fault, fault := .corruptCode, finfo := n } }

/-- R143: a `DEC_BYTE` that completes a code takes exactly one code out and leaves at most 7 bits, fewer than the
width. -/
def Obligations.AtMostOneCodePerByte : Prop :=
  ∀ (s t : State) (b : Byte), s.Inv → s.dec.st = .active →
    exec (.decByte b) s = .next t → t.dec.st = .active →
      (s.dec.nrbuf + 8 < s.dec.width → t.dec.trace = s.dec.trace) ∧
      (s.dec.width ≤ s.dec.nrbuf + 8 →
        t.dec.nrbuf ≤ 7 ∧ t.dec.nrbuf < t.dec.width ∧
        ∃ n, n < 2 ^ s.dec.width ∧ t.dec.trace = s.dec.trace ++ [(n, s.dec.width)])

/-- R151. -/
def Obligations.DecEndMeaning : Prop :=
  encode .decEnd = 0x700 ∧
  ∀ s : State,
    (s.dec.st = .active →
      exec .decEnd s = .next { s with dec := { s.dec with st := .done } }) ∧
    (s.dec.toCtx.ready →
      exec .decEnd s = .next { s with dec := { s.dec with
        st := .fault, fault := .protocolError, finfo := zextInfo s.params 0x700 } }) ∧
    (s.dec.st = .fault → exec .decEnd s = .next s)

/-- R94: the classes by condition, and what each means: the string of a literal, of a dictionary code and of the
not-yet-defined code, and the fault of a corrupt code; the table for the first code of a call. -/
def Obligations.CodeClassesAndStrings : Prop :=
  ∀ (p : Params) (d : Dec), DecInv p d → ∀ n : Nat,
    (d.codeClass n = .lit ↔ n ≤ 255) ∧
    (d.codeClass n = .ref ↔ 256 ≤ n ∧ n < d.nextCode) ∧
    (d.codeClass n = .kwk ↔ n = d.nextCode ∧ d.havePrev = true) ∧
    (d.codeClass n = .bad ↔ d.nextCode < n ∨ (n = d.nextCode ∧ d.havePrev = false)) ∧
    (d.codeClass n = .lit → d.toCtx.str n = some [byteOf n]) ∧
    (d.codeClass n = .ref → ∃ x, d.toCtx.str n = some x ∧ 2 ≤ x.length) ∧
    (d.codeClass n = .kwk → ∃ x, d.toCtx.str d.prevCode = some x ∧
      resolveCode d.prevCode d.prevFirst n d.toCtx = .ok (x ++ [d.prevFirst])) ∧
    (d.codeClass n = .bad → processCode p n d = .raise .corruptCode n) ∧
    (d.havePrev = false → (d.codeClass n = .lit ↔ n ≤ 255) ∧ (d.codeClass n = .bad ↔ 256 ≤ n))

/-- R95, R37: at code ordinal 1 the decoder accepts exactly the values up to 255, at ordinal `j >= 2` exactly those up to
`254 + j`; every other value makes it faulty. -/
def Obligations.DecoderAcceptsOrdinalRange : Prop :=
  ∀ (s : State) (b : Byte) (n : Nat), s.Inv → s.StreamInv → s.dec.st = .active →
    s.dec.width ≤ s.dec.nrbuf + 8 → s.dec.width ≤ s.params.wmax →
    n = (s.dec.rbuf * 256 + b.toNat) / 2 ^ (s.dec.nrbuf + 8 - s.dec.width) →
      ∃ t, exec (.decByte b) s = .next t ∧
        (n ≤ (if s.dec.trace = [] then 255 else 254 + (s.dec.trace.length + 1)) →
          t.dec.st = .active) ∧
        ((if s.dec.trace = [] then 255 else 254 + (s.dec.trace.length + 1)) < n →
          t.dec.st = .fault ∧ t.dec.fault = .corruptCode ∧ t.dec.finfo = n)

/-- R152, the round trip: decoding, in the same machine, the packed stream of an encode call that raised no fault
completes without fault, reads the codes the encoder wrote and returns the input. -/
def Obligations.DecodeRestoresEncodedInput : Prop :=
  ∀ (s t : State) (input : List Byte), s.Inv → s.enc.toCtx.ready → s.dec.toCtx.ready →
    execAll (encodeScript input) s = .next t → t.enc.toCtx.succeeded →
      ∃ u, execAll (decodeScript t.enc.out) t = .next u ∧ u.dec.toCtx.succeeded ∧
        u.dec.trace = t.enc.trace ∧ u.dec.out = input ∧ u.enc = t.enc

/-! ### Dictionary and width policy (spec/42_width_policy_dictionary.md, spec/30_encoding.md) -/

/-- R178: `WidthOf(occ)` is 9 at 256, and is `w` exactly on `2^(w-1) <= occ < 2^w`. -/
def Obligations.WidthOfSteps : Prop :=
  widthOf 256 = 9 ∧
  ∀ w occ : Nat, 9 ≤ w → 256 ≤ occ → (widthOf occ = w ↔ 2 ^ (w - 1) ≤ occ ∧ occ < 2 ^ w)

/-- R92: the ordinals of width `w`. -/
def Obligations.OrdinalWidthTable : Prop :=
  ∀ w j : Nat, 9 ≤ w → 1 ≤ j →
    (ordinalWidth j = w ↔ 2 ^ (w - 1) - 255 ≤ j ∧ j ≤ 2 ^ w - 256)

/-- R179: `Grow` after an insertion keeps `ctx.width = WidthOf(occ)` and changes no other register. -/
def Obligations.GrowKeepsWidthOf : Prop :=
  ∀ (c : Ctx) (occ : Nat), c.width = widthOf occ →
    c.grow (occ + 1) = { c with width := widthOf (occ + 1) }

/-- R174: in `enc`, `Lookup` hits exactly the one code whose entry is the pair, and misses when there is none; it answers
whether the prefix code's string extended by the byte is a dictionary string, and with which code. -/
def Obligations.LookupFindsThePair : Prop :=
  ∀ (p : Params) (e : Enc), EncInv p e → ∀ (pre : Nat) (b : Byte),
    (∀ k, e.toCtx.lookup pre b = some k ↔ e.toCtx.dictRead k = some ⟨pre, b⟩) ∧
    (e.toCtx.lookup pre b = none ↔ ∀ k, e.toCtx.dictRead k ≠ some ⟨pre, b⟩) ∧
    (pre < e.nextCode → ∀ k, e.toCtx.lookup pre b = some k ↔
      k < e.nextCode ∧ ∃ x, e.toCtx.str pre = some x ∧ e.toCtx.str k = some (x ++ [b]))

/-- R173: the string of every code of the dictionary, and that a code from `next_code` on has none. -/
def Obligations.StrOfEveryCode : Prop :=
  ∀ (p : Params) (c : Ctx), CtxInv p c → ∀ k,
    (k ≤ 255 → c.str k = some [byteOf k]) ∧
    (c.nextCode ≤ k → c.str k = none) ∧
    (256 ≤ k → k < c.nextCode → ∃ e x, c.dictRead k = some e ∧ e.pre < k ∧ c.str e.pre = some x ∧
      c.str k = some (x ++ [e.last]) ∧ 2 ≤ (x ++ [e.last]).length)

/-- R176: every non-empty prefix of a dictionary string is a dictionary string. -/
def Obligations.DictionaryIsPrefixClosed : Prop :=
  ∀ (p : Params) (c : Ctx), CtxInv p c → ∀ k x, k < c.nextCode → c.str k = some x →
    ∀ y, y <+: x → y ≠ [] → ∃ j, j < c.nextCode ∧ c.str j = some y

/-- R177 (c): no two codes of the encoder's dictionary have the same string. -/
def Obligations.EncoderStringsAreDistinct : Prop :=
  ∀ (p : Params) (e : Enc), EncInv p e → ∀ j k, j < e.nextCode → k < e.nextCode →
    e.toCtx.str j = e.toCtx.str k → j = k

/-- R22, R177 (a) and (b): but for `INIT`, no command lowers `next_code`, none raises it by more than 1, and no entry
that holds a value is changed. -/
def Obligations.EntriesArePermanent : Prop :=
  ∀ (i : Instr) (s t : State), exec i s = .next t →
    (i ≠ .encInit → s.enc.nextCode ≤ t.enc.nextCode ∧ t.enc.nextCode ≤ s.enc.nextCode + 1 ∧
      ∀ k, k < s.enc.nextCode → t.enc.toCtx.dictRead k = s.enc.toCtx.dictRead k) ∧
    (i ≠ .decInit → s.dec.nextCode ≤ t.dec.nextCode ∧ t.dec.nextCode ≤ s.dec.nextCode + 1 ∧
      ∀ k, k < s.dec.nextCode → t.dec.toCtx.dictRead k = s.dec.toCtx.dictRead k)

/-! ### The bit channel (spec/43_bit_channel.md) -/

/-- R191, in bits: `WriteBits` puts the `w` low-order bits after the bits already there, hands out every whole byte and
keeps 0 to 7 bits; it touches nothing but the writer, the output and the trace. -/
def Obligations.WriteBitsAppendsCode : Prop :=
  ∀ (e : Enc) (v w : Nat), e.nacc < 8 → e.acc < 2 ^ e.nacc →
    ∃ o a n, e.writeBits v w = { e with
        out := e.out ++ o, acc := a, nacc := n, trace := e.trace ++ [(v % 2 ^ w, w)] } ∧
      o.length = (e.nacc + w) / 8 ∧ n = (e.nacc + w) % 8 ∧ a < 2 ^ n ∧
      streamBits o ++ bitsMSB a n = bitsMSB e.acc e.nacc ++ bitsMSB v w

/-- R193, R194, in bits: `Flush` fills the last byte with zeros below the pending bits, and writes nothing when none are
pending. -/
def Obligations.FlushPadsWithZeros : Prop :=
  ∀ e : Enc, e.acc < 2 ^ e.nacc → e.nacc < 8 →
    (e.nacc = 0 → e.flush = e) ∧
    (0 < e.nacc → ∃ b : Byte,
      e.flush = { e with out := e.out ++ [b], acc := 0, nacc := 0 } ∧
      byteBits b = bitsMSB e.acc e.nacc ++ List.replicate (8 - e.nacc) false)

/-- R195, R196, in bits: `AppendByte` puts 8 bits, bit 7 first, after the buffered bits, and `ExtractCode` takes the `w`
earliest out. -/
def Obligations.ReaderKeepsBitOrder : Prop :=
  ∀ d : Dec, d.rbuf < 2 ^ d.nrbuf →
    (∀ b : Byte,
      d.appendByte b = { d with rbuf := d.rbuf * 256 + b.toNat, nrbuf := d.nrbuf + 8 } ∧
      (d.appendByte b).rbuf < 2 ^ (d.appendByte b).nrbuf ∧
      bitsMSB (d.appendByte b).rbuf (d.appendByte b).nrbuf =
        bitsMSB d.rbuf d.nrbuf ++ byteBits b) ∧
    (∀ w, w ≤ d.nrbuf →
      (d.extractCode w).1 < 2 ^ w ∧
      (d.extractCode w).2.rbuf < 2 ^ (d.extractCode w).2.nrbuf ∧
      (d.extractCode w).2 = { d with
        rbuf := (d.extractCode w).2.rbuf, nrbuf := d.nrbuf - w,
        trace := d.trace ++ [((d.extractCode w).1, w)] } ∧
      bitsMSB (d.extractCode w).1 w ++
          bitsMSB (d.extractCode w).2.rbuf (d.extractCode w).2.nrbuf =
        bitsMSB d.rbuf d.nrbuf)

/-- R47: writer alignment, from the invariants. -/
def Obligations.WriterAlignment : Prop :=
  ∀ (p : Params) (e : Enc), EncInv p e → EncStream e →
    (e.st = .active →
      e.nacc = traceWidths e.trace % 8 ∧ e.out.length = traceWidths e.trace / 8) ∧
    (e.st = .done → e.out.length = (traceWidths e.trace + 7) / 8 ∧ e.nacc = 0)

/-! ### Faults (spec/60_exceptions.md) -/

/-- R38: for each command, the state of its context after it, by the state before it. -/
def Obligations.LegalityTable : Prop :=
  ∀ (i : Instr) (s t : State), exec i s = .next t →
    (i.context = .enc →
      (s.enc.toCtx.ready → i.kind = .init → t.enc.st = .active) ∧
      (s.enc.toCtx.ready → i.kind ≠ .init →
        t.enc.st = .fault ∧ t.enc.fault = .protocolError) ∧
      (s.enc.st = .active → i.kind = .init →
        t.enc.st = .fault ∧ t.enc.fault = .protocolError) ∧
      (s.enc.st = .active → i.kind = .byte → t.enc.st = .active ∨ t.enc.st = .fault) ∧
      (s.enc.st = .active → i.kind = .finish → t.enc.st = .done ∨ t.enc.st = .fault) ∧
      (s.enc.st = .fault → t = s)) ∧
    (i.context = .dec →
      (s.dec.toCtx.ready → i.kind = .init → t.dec.st = .active) ∧
      (s.dec.toCtx.ready → i.kind ≠ .init →
        t.dec.st = .fault ∧ t.dec.fault = .protocolError) ∧
      (s.dec.st = .active → i.kind = .init →
        t.dec.st = .fault ∧ t.dec.fault = .protocolError) ∧
      (s.dec.st = .active → i.kind = .byte → t.dec.st = .active ∨ t.dec.st = .fault) ∧
      (s.dec.st = .active → i.kind = .finish → t.dec.st = .done ∨ t.dec.st = .fault) ∧
      (s.dec.st = .fault → t = s))

/-- R211, R38: each command in each state where it is not legal. -/
def Obligations.ProtocolErrorWhereNotLegal : Prop :=
  ∀ (i : Instr) (s : State),
    (i.context = .enc →
      (s.enc.st = .active ∧ i.kind = .init) ∨ (s.enc.toCtx.ready ∧ i.kind ≠ .init) →
      exec i s = .next { s with enc := { s.enc with
        st := .fault, fault := .protocolError,
        finfo := zextInfo s.params (encode i).toNat } }) ∧
    (i.context = .dec →
      (s.dec.st = .active ∧ i.kind = .init) ∨ (s.dec.toCtx.ready ∧ i.kind ≠ .init) →
      exec i s = .next { s with dec := { s.dec with
        st := .fault, fault := .protocolError,
        finfo := zextInfo s.params (encode i).toNat } })

/-- R7, R26: the information word is stored as it is when it fits the register, which every command word does from
`WMAX = 10` on; the register never holds more than `WMAX + 1` bits. What it holds of a word that does not fit is the
model's free value (log entry 7). -/
def Obligations.InfoWordIsZeroExtended : Prop :=
  ∀ (p : Params) (info : Nat),
    (info < 2 ^ (p.wmax + 1) → zextInfo p info = info) ∧
    zextInfo p info < 2 ^ (p.wmax + 1) ∧
    (10 ≤ p.wmax → ∀ i : Instr, zextInfo p (encode i).toNat = (encode i).toNat)

/-- R219: a command that raises a fault leaves the state exactly as before it, but for `ctx.st`, `ctx.fault` and
`ctx.finfo` of its own context. -/
def Obligations.FaultEntryIsPrecise : Prop :=
  ∀ (i : Instr) (s t : State), exec i s = .next t →
    (s.enc.st ≠ .fault → t.enc.st = .fault →
      i.context = .enc ∧ ∃ f info, f ≠ FaultCode.none ∧
        t = { s with enc := { s.enc with
          st := .fault, fault := f, finfo := zextInfo s.params info } }) ∧
    (s.dec.st ≠ .fault → t.dec.st = .fault →
      i.context = .dec ∧ ∃ f info, f ≠ FaultCode.none ∧
        t = { s with dec := { s.dec with
          st := .fault, fault := f, finfo := zextInfo s.params info } })

/-- R221: every command of a context in `FAULT` is ignored, `INIT` included; no step but the reset input changes the
context, and the reset input brings both contexts back to `IDLE` with no fault recorded. -/
def Obligations.FaultIsTerminal : Prop :=
  ∀ s : State,
    (∀ i : Instr,
      (i.context = .enc → s.enc.st = .fault → exec i s = .next s) ∧
      (i.context = .dec → s.dec.st = .fault → exec i s = .next s)) ∧
    (∀ t, step s = .next t → (∀ rest, s.port ≠ .reset :: rest) →
      (s.enc.st = .fault → t.enc = s.enc) ∧ (s.dec.st = .fault → t.dec = s.dec)) ∧
    (∀ t rest, step s = .next t → s.port = .reset :: rest →
      t.enc.st = .idle ∧ t.enc.fault = .none ∧ t.enc.finfo = 0 ∧
      t.dec.st = .idle ∧ t.dec.fault = .none ∧ t.dec.finfo = 0)

/-- R34: `cmd_fault` is set by an illegal word alone and cleared by the reset input alone. -/
def Obligations.CmdFaultIsSticky : Prop :=
  ∀ s t : State, step s = .next t →
    (∀ rest, s.port = .reset :: rest → t.cmdFault = false) ∧
    ((∀ rest, s.port ≠ .reset :: rest) →
      (t.cmdFault = true ↔
        s.cmdFault = true ∨ ∃ w rest, s.port = .command w :: rest ∧ legalWord w = false))

/-- R213 (c): a larger `WMAX` changes nothing about a command that raises no fault. -/
def Obligations.WidthLimitOnlyRemovesBehaviour : Prop :=
  ∀ (i : Instr) (s t : State) (p : Params), s.params.wmax ≤ p.wmax →
    exec i s = .next t → t.enc.st ≠ .fault → t.dec.st ≠ .fault →
      exec i { s with params := p } = .next { t with params := p }

/-! ### The two contexts (spec/00_scope.md R12, spec/10_state.md R20) -/

/-- R12, R20: a command of one context writes nothing of the other, nor `cmd_fault`, nor anything that is not the
block's. -/
def Obligations.CommandsKeepToTheirContext : Prop :=
  ∀ (i : Instr) (s t : State), exec i s = .next t →
    t.params = s.params ∧ t.port = s.port ∧ t.cmdFault = s.cmdFault ∧
    (i.context = .enc → t.dec = s.dec) ∧ (i.context = .dec → t.enc = s.enc)

/-- R12: commands of the two contexts may be interleaved in any way. -/
def Obligations.CommandsOfTwoContextsCommute : Prop :=
  ∀ (i j : Instr) (s : State), s.Inv → i.context = .enc → j.context = .dec →
    execAll [i, j] s = execAll [j, i] s

/-- R63, R27: but for `INIT`, a command only appends to the output and to the trace. -/
def Obligations.OutputsAreAppendOnly : Prop :=
  ∀ (i : Instr) (s t : State), exec i s = .next t →
    (i ≠ .encInit → s.enc.out <+: t.enc.out ∧ s.enc.trace <+: t.enc.trace) ∧
    (i ≠ .decInit → s.dec.out <+: t.dec.out ∧ s.dec.trace <+: t.dec.trace)

/-- R42, 93_implementation_defined.md P5: what holds no value is never read. Two states of the same machine that differ
only there are carried by any step to states that differ only there; so the reset values the model names for
`enc.cur_code`, `dec.prev_code` and `dec.prev_first` (DESIGN CHOICE, log entry 4) cannot be seen. -/
def Obligations.ValuelessStateIsNeverRead : Prop :=
  ∀ s t : State, s.Inv → t.Inv → s.readable = t.readable →
    ∃ s' t', step s = .next s' ∧ step t = .next t' ∧ s'.readable = t'.readable

/-! ### Invariants (spec/10_state.md R43 to R47) -/

/-- The invariant holds after reset, at every `WMAX` the spec allows. -/
def Obligations.ResetMeetsInvariant : Prop :=
  ∀ p : Params, p.wf → (State.resetAt p).Inv ∧ (State.resetAt p).StreamInv

/-- R22, R24, R26, R28, R29, R31 to R33, R43, R44, R46, R177, R181, R198: every step keeps the invariant. -/
def Obligations.StepKeepsInvariant : Prop :=
  ∀ s t : State, s.Inv → step s = .next t → t.Inv

/-- The model stops in no state that meets the invariant: every command word, the reset input and waiting have a next
state. -/
def Obligations.StepAlwaysAnswers : Prop :=
  ∀ s : State, s.Inv → ∃ t, step s = .next t

/-- R37, R47, R90, R92, R95, R124: every step keeps the stream invariant, which says what the packed stream is. -/
def Obligations.StepKeepsStreamInvariant : Prop :=
  ∀ s t : State, s.Inv → s.StreamInv → step s = .next t → t.StreamInv
end

