-- ==== Sys2Proof/Laws/Bits.lean ====
section
/-!
SUPPORT. Bit lengths and bit sequences (spec/00_scope.md R7, R8): when `bitlen` changes, and how bit sequences join and
split.
-/

namespace Sys2Proof.Machine

open Sys2Proof

theorem bitlen_le_iff (n w : Nat) : bitlen n ≤ w ↔ n < 2 ^ w := by
  unfold bitlen
  split
  · rename_i h
    simp [h]
  · rename_i h
    rw [Nat.succ_le_iff, Nat.log2_lt h]

theorem lt_two_pow_bitlen (n : Nat) : n < 2 ^ bitlen n := (bitlen_le_iff n _).1 le_rfl

theorem bitlen_mono {a b : Nat} (h : a ≤ b) : bitlen a ≤ bitlen b :=
  (bitlen_le_iff a _).2 (h.trans_lt (lt_two_pow_bitlen b))

/-- `bitlen` steps up exactly when the new number is a power of two (R178, R179). -/
theorem bitlen_succ (n : Nat) :
    bitlen (n + 1) = if n + 1 = 2 ^ bitlen n then bitlen n + 1 else bitlen n := by
  have hlt := lt_two_pow_bitlen n
  split
  · rename_i h
    apply le_antisymm
    · rw [bitlen_le_iff, pow_succ]
      omega
    · have : ¬ bitlen (n + 1) ≤ bitlen n := by
        rw [bitlen_le_iff]
        omega
      omega
  · apply le_antisymm
    · rw [bitlen_le_iff]
      omega
    · exact bitlen_mono (Nat.le_succ n)

@[simp] theorem length_bitsMSB (v w : Nat) : (bitsMSB v w).length = w := by
  induction w with
  | zero => rfl
  | succ w ih => simp [bitsMSB, ih]

@[simp] theorem bitsMSB_zero (v : Nat) : bitsMSB v 0 = [] := rfl

/-- A bit sequence splits into the high part and the low part (R8). -/
theorem bitsMSB_add (q n w : Nat) :
    bitsMSB q (n + w) = bitsMSB (q / 2 ^ w) n ++ bitsMSB q w := by
  induction n with
  | zero => simp
  | succ n ih =>
    rw [show n + 1 + w = (n + w) + 1 by omega, bitsMSB, ih, bitsMSB, List.cons_append,
      Nat.testBit_div_two_pow]

/-- Only the `w` low-order bits count (R191). -/
theorem bitsMSB_mod {v n w : Nat} (h : w ≤ n) : bitsMSB (v % 2 ^ n) w = bitsMSB v w := by
  induction w with
  | zero => rfl
  | succ w ih =>
    rw [bitsMSB, bitsMSB, ih (by omega), Nat.testBit_mod_two_pow]
    simp only [show w < n by omega, decide_true, Bool.true_and]

/-- A number made of a high part and a low part has their bits one after the other. -/
theorem bitsMSB_mul_add (a b n w : Nat) (h : b < 2 ^ w) :
    bitsMSB (a * 2 ^ w + b) (n + w) = bitsMSB a n ++ bitsMSB b w := by
  have hpos : 0 < 2 ^ w := by positivity
  rw [bitsMSB_add, show a * 2 ^ w + b = b + 2 ^ w * a by ring, Nat.add_mul_div_left _ _ hpos,
    Nat.div_eq_of_lt h, Nat.zero_add, ← bitsMSB_mod (n := w) le_rfl, Nat.add_mul_mod_self_left,
    Nat.mod_eq_of_lt h]

/-- The bits determine the number (R8: `val(bitsMSB(v, w)) = v`). -/
theorem bitsMSB_inj {a b w : Nat} (ha : a < 2 ^ w) (hb : b < 2 ^ w)
    (h : bitsMSB a w = bitsMSB b w) : a = b := by
  induction w generalizing a b with
  | zero => simp_all
  | succ w ih =>
    simp only [bitsMSB, List.cons.injEq] at h
    have hm : a % 2 ^ w = b % 2 ^ w :=
      ih (Nat.mod_lt _ (by positivity)) (Nat.mod_lt _ (by positivity))
        (by rw [bitsMSB_mod le_rfl, bitsMSB_mod le_rfl]; exact h.2)
    apply Nat.eq_of_testBit_eq
    intro i
    rcases lt_trichotomy i w with hi | rfl | hi
    · have := congrArg (fun x => Nat.testBit x i) hm
      simpa [Nat.testBit_mod_two_pow, hi] using this
    · exact h.1
    · rw [Nat.testBit_lt_two_pow (lt_of_lt_of_le ha (Nat.pow_le_pow_right (by omega) hi)),
        Nat.testBit_lt_two_pow (lt_of_lt_of_le hb (Nat.pow_le_pow_right (by omega) hi))]

theorem bitsMSB_shift_zero (v n z : Nat) :
    bitsMSB (v * 2 ^ z) (n + z) = bitsMSB v n ++ List.replicate z false := by
  have h0 : ∀ z, bitsMSB 0 z = List.replicate z false := by
    intro z
    induction z with
    | zero => rfl
    | succ z ih => simp [bitsMSB, ih, List.replicate_succ]
  have := bitsMSB_mul_add v 0 n z (by positivity)
  rw [h0] at this
  simpa using this

@[simp] theorem streamBits_nil : streamBits [] = [] := rfl

@[simp] theorem streamBits_append (s t : List Byte) :
    streamBits (s ++ t) = streamBits s ++ streamBits t := by
  simp [streamBits]

@[simp] theorem streamBits_cons (b : Byte) (t : List Byte) :
    streamBits (b :: t) = byteBits b ++ streamBits t := by
  simp [streamBits]

@[simp] theorem length_byteBits (b : Byte) : (byteBits b).length = 8 := by simp [byteBits]

@[simp] theorem length_streamBits (s : List Byte) : (streamBits s).length = 8 * s.length := by
  induction s with
  | nil => rfl
  | cons b t ih =>
    simp [ih]
    omega

theorem byteBits_byteOf (v : Nat) : byteBits (byteOf v) = bitsMSB v 8 := by
  simp only [byteBits, byteOf, BitVec.toNat_ofNat]
  exact bitsMSB_mod le_rfl

@[simp] theorem codeBits_nil : codeBits [] = [] := rfl

@[simp] theorem codeBits_append (s t : List (Nat × Nat)) :
    codeBits (s ++ t) = codeBits s ++ codeBits t := by
  simp [codeBits]

@[simp] theorem codeBits_cons (c : Nat × Nat) (t : List (Nat × Nat)) :
    codeBits (c :: t) = bitsMSB c.1 c.2 ++ codeBits t := by
  simp [codeBits]

@[simp] theorem traceWidths_append (s t : List (Nat × Nat)) :
    traceWidths (s ++ t) = traceWidths s + traceWidths t := by
  simp [traceWidths]

theorem length_codeBits (t : List (Nat × Nat)) : (codeBits t).length = traceWidths t := by
  induction t with
  | nil => rfl
  | cons c t ih => simp [ih, traceWidths]

@[simp] theorem length_leadingBytes (n q t : Nat) : (leadingBytes n q t).length = n := by
  induction n generalizing t with
  | zero => rfl
  | succ n ih => simp [leadingBytes, ih]

/-- The whole bytes taken off the front, then the bits that stay, are the bits there were (R191). -/
theorem streamBits_leadingBytes (n q t : Nat) (h : 8 * n ≤ t) :
    streamBits (leadingBytes n q t) ++ bitsMSB q (t - 8 * n) = bitsMSB q t := by
  induction n generalizing t with
  | zero => simp [leadingBytes]
  | succ n ih =>
    rw [leadingBytes, streamBits_cons, List.append_assoc,
      show t - 8 * (n + 1) = (t - 8) - 8 * n by omega, ih (t - 8) (by omega), byteBits_byteOf,
      bitField, bitsMSB_mod le_rfl]
    rw [← bitsMSB_add q 8 (t - 8), show 8 + (t - 8) = t by omega]

end Sys2Proof.Machine
end

