-- ==== Sys2Proof/Laws/Memory.lean ====
section
/-!
SUPPORT. The dictionary memory: read after write, the canonical form, and what a memory looks like whose codes are
consecutive.
-/

namespace Sys2Proof.Machine

open Sys2Proof

@[simp] theorem Memory.read_nil (k : Nat) : Memory.read [] k = none := rfl

@[simp] theorem Memory.read_write_same (m : Memory) (k : Nat) (e : Entry) :
    (m.write k e).read k = some e := by
  induction m with
  | nil => simp [Memory.write, Memory.read]
  | cons x rest ih =>
    unfold Memory.write
    split
    · simp [Memory.read]
    · split
      · simp [Memory.read]
      · rename_i h
        simp [Memory.read, h, ih]

theorem Memory.read_write_other (m : Memory) (k j : Nat) (e : Entry) (h : j ≠ k) :
    (m.write k e).read j = m.read j := by
  induction m with
  | nil => simp [Memory.write, Memory.read, Ne.symm h]
  | cons x rest ih =>
    unfold Memory.write
    split
    · simp [Memory.read, Ne.symm h]
    · split
      · rename_i hx
        simp [Memory.read, hx, Ne.symm h]
      · simp [Memory.read, ih]

theorem Memory.mem_write (m : Memory) (k : Nat) (e : Entry) (x : Nat × Entry)
    (h : x ∈ m.write k e) : x = (k, e) ∨ x ∈ m := by
  induction m with
  | nil => exact .inl (by simpa [Memory.write] using h)
  | cons y rest ih =>
    unfold Memory.write at h
    split at h
    · simpa using h
    · split at h
      · rcases List.mem_cons.1 h with h | h
        · exact .inl h
        · exact .inr (List.mem_cons_of_mem _ h)
      · rcases List.mem_cons.1 h with h | h
        · exact .inr (by simp [h])
        · rcases ih h with h | h
          · exact .inl h
          · exact .inr (List.mem_cons_of_mem _ h)

/-- A write keeps the canonical form. -/
theorem Memory.wf_write (m : Memory) (k : Nat) (e : Entry) (h : m.wf) : (m.write k e).wf := by
  induction m with
  | nil => simp [Memory.write, Memory.wf]
  | cons y rest ih =>
    obtain ⟨hy, hrest⟩ := List.pairwise_cons.1 h
    unfold Memory.write
    split
    · rename_i hk
      refine List.pairwise_cons.2 ⟨fun x hx => ?_, h⟩
      rcases List.mem_cons.1 hx with rfl | hx
      · exact hk
      · exact hk.trans (hy x hx)
    · split
      · rename_i hk
        exact List.pairwise_cons.2 ⟨fun x hx => hk ▸ hy x hx, hrest⟩
      · rename_i hlt hne
        refine List.pairwise_cons.2 ⟨fun x hx => ?_, ih hrest⟩
        rcases Memory.mem_write rest k e x hx with rfl | hx
        · show y.1 < k
          omega
        · exact hy x hx

/-- In a canonical memory, the entry read at a code is the one listed there. -/
theorem Memory.read_eq_some_iff (m : Memory) (h : m.wf) (k : Nat) (e : Entry) :
    m.read k = some e ↔ (k, e) ∈ m := by
  induction m with
  | nil => simp
  | cons y rest ih =>
    obtain ⟨hy, hrest⟩ := List.pairwise_cons.1 h
    unfold Memory.read
    split
    · rename_i hk
      constructor
      · intro he
        exact List.mem_cons.2 (.inl (Prod.ext hk.symm (Option.some.inj he).symm))
      · intro hm
        rcases List.mem_cons.1 hm with h' | h'
        · simp [← h']
        · have := hy _ h'
          simp_all
    · rename_i hk
      rw [ih hrest, List.mem_cons]
      constructor
      · exact .inr
      · rintro (h' | h')
        · exact absurd (by rw [← h']) hk
        · exact h'

/-- A memory whose codes are consecutive from `b` is canonical. -/
theorem Memory.wf_of_codes (m : Memory) (b : Nat)
    (h : m.map Prod.fst = List.range' b m.length) : m.wf := by
  have : (m.map Prod.fst).Pairwise (· < ·) := by
    rw [h]
    exact List.pairwise_lt_range'
  exact List.pairwise_map.1 this

/-- In a memory with consecutive codes from `b`, code `b + i` is at position `i`. -/
theorem Memory.read_of_codes (m : Memory) (b i : Nat)
    (h : m.map Prod.fst = List.range' b m.length) : m.read (b + i) = (m[i]?).map Prod.snd := by
  induction m generalizing b i with
  | nil => simp
  | cons x rest ih =>
    simp only [List.map_cons, List.length_cons, List.range'_succ, List.cons.injEq] at h
    cases i with
    | zero => simp [Memory.read, h.1]
    | succ i =>
      have hx : x.1 ≠ b + (i + 1) := by omega
      rw [Memory.read, if_neg hx, show b + (i + 1) = (b + 1) + i by omega, ih (b + 1) i h.2]
      simp

/-- A code below the first holds nothing. -/
theorem Memory.read_below_of_codes (m : Memory) (b k : Nat)
    (h : m.map Prod.fst = List.range' b m.length) (hk : k < b) : m.read k = none := by
  induction m generalizing b with
  | nil => simp
  | cons x rest ih =>
    simp only [List.map_cons, List.length_cons, List.range'_succ, List.cons.injEq] at h
    have hx : x.1 ≠ k := by omega
    rw [Memory.read, if_neg hx]
    exact ih (b + 1) h.2 (by omega)

/-- A write at a code already listed, or at the next one, in a memory with consecutive codes. -/
theorem Memory.write_of_codes (m : Memory) (b i : Nat) (e : Entry)
    (h : m.map Prod.fst = List.range' b m.length) (hi : i ≤ m.length) :
    m.write (b + i) e = m.take i ++ (b + i, e) :: m.drop (i + 1) := by
  induction m generalizing b i with
  | nil =>
    obtain rfl : i = 0 := by simpa using hi
    simp [Memory.write]
  | cons x rest ih =>
    simp only [List.map_cons, List.length_cons, List.range'_succ, List.cons.injEq] at h
    cases i with
    | zero => simp [Memory.write, h.1]
    | succ i =>
      have h1 : ¬ b + (i + 1) < x.1 := by omega
      have h2 : x.1 ≠ b + (i + 1) := by omega
      rw [Memory.write, if_neg h1, if_neg h2, show b + (i + 1) = (b + 1) + i by omega,
        ih (b + 1) i h.2 (by simpa using hi)]
      simp

theorem Memory.length_write_of_codes (m : Memory) (b i : Nat) (e : Entry)
    (h : m.map Prod.fst = List.range' b m.length) (hi : i ≤ m.length) :
    (m.write (b + i) e).length = max m.length (i + 1) := by
  rw [Memory.write_of_codes m b i e h hi]
  simp
  omega

/-- Such a write leaves the codes consecutive. -/
theorem Memory.codes_write (m : Memory) (b i : Nat) (e : Entry)
    (h : m.map Prod.fst = List.range' b m.length) (hi : i ≤ m.length) :
    (m.write (b + i) e).map Prod.fst = List.range' b (m.write (b + i) e).length := by
  rw [Memory.length_write_of_codes m b i e h hi, Memory.write_of_codes m b i e h hi]
  simp only [List.map_append, List.map_cons, List.map_take, List.map_drop, h]
  apply List.ext_getElem
  · simp
    omega
  · intro n h1 h2
    simp only [List.getElem_append, List.length_take, List.length_range', List.getElem_take,
      List.getElem_range', List.getElem_cons, List.getElem_drop]
    split
    · omega
    · split <;> omega

theorem Memory.take_write_of_codes (m : Memory) (b i : Nat) (e : Entry)
    (h : m.map Prod.fst = List.range' b m.length) (hi : i ≤ m.length) :
    (m.write (b + i) e).take (i + 1) = m.take i ++ [(b + i, e)] := by
  rw [Memory.write_of_codes m b i e h hi, List.take_append]
  have : min i m.length = i := by omega
  simp [this, List.take_take]

end Sys2Proof.Machine
end

