-- ==== Sys2Proof/Laws/State.lean ====
section
/-!
SUPPORT. One lemma per field and update of the state's records, so that no later proof unfolds a record update.
-/

namespace Sys2Proof.Machine

open Sys2Proof

/-! ### `Bootstrap` (R171) -/

@[simp] theorem Ctx.bootstrap_st (c : Ctx) :
    c.bootstrap.st = c.st := rfl

@[simp] theorem Ctx.bootstrap_fault (c : Ctx) :
    c.bootstrap.fault = c.fault := rfl

@[simp] theorem Ctx.bootstrap_finfo (c : Ctx) :
    c.bootstrap.finfo = c.finfo := rfl

@[simp] theorem Ctx.bootstrap_nextCode (c : Ctx) :
    c.bootstrap.nextCode = 256 := rfl

@[simp] theorem Ctx.bootstrap_width (c : Ctx) :
    c.bootstrap.width = 9 := rfl

@[simp] theorem Ctx.bootstrap_dict (c : Ctx) :
    c.bootstrap.dict = c.dict := rfl

@[simp] theorem Ctx.bootstrap_out (c : Ctx) :
    c.bootstrap.out = c.out := rfl

@[simp] theorem Ctx.bootstrap_trace (c : Ctx) :
    c.bootstrap.trace = c.trace := rfl

/-! ### `Out` (R63) -/

@[simp] theorem Ctx.emit_st (c : Ctx) (s : List Byte) :
    (c.emit s).st = c.st := rfl

@[simp] theorem Ctx.emit_fault (c : Ctx) (s : List Byte) :
    (c.emit s).fault = c.fault := rfl

@[simp] theorem Ctx.emit_finfo (c : Ctx) (s : List Byte) :
    (c.emit s).finfo = c.finfo := rfl

@[simp] theorem Ctx.emit_nextCode (c : Ctx) (s : List Byte) :
    (c.emit s).nextCode = c.nextCode := rfl

@[simp] theorem Ctx.emit_width (c : Ctx) (s : List Byte) :
    (c.emit s).width = c.width := rfl

@[simp] theorem Ctx.emit_dict (c : Ctx) (s : List Byte) :
    (c.emit s).dict = c.dict := rfl

@[simp] theorem Ctx.emit_out (c : Ctx) (s : List Byte) :
    (c.emit s).out = c.out ++ s := rfl

@[simp] theorem Ctx.emit_trace (c : Ctx) (s : List Byte) :
    (c.emit s).trace = c.trace := rfl

/-! ### `Grow` (R179) -/

@[simp] theorem Ctx.grow_st (c : Ctx) (occ : Nat) :
    (c.grow occ).st = c.st := by
  unfold Ctx.grow
  split <;> rfl

@[simp] theorem Ctx.grow_fault (c : Ctx) (occ : Nat) :
    (c.grow occ).fault = c.fault := by
  unfold Ctx.grow
  split <;> rfl

@[simp] theorem Ctx.grow_finfo (c : Ctx) (occ : Nat) :
    (c.grow occ).finfo = c.finfo := by
  unfold Ctx.grow
  split <;> rfl

@[simp] theorem Ctx.grow_nextCode (c : Ctx) (occ : Nat) :
    (c.grow occ).nextCode = c.nextCode := by
  unfold Ctx.grow
  split <;> rfl

@[simp] theorem Ctx.grow_width (c : Ctx) (occ : Nat) :
    (c.grow occ).width = if occ = 2 ^ c.width then c.width + 1 else c.width := by
  unfold Ctx.grow
  split <;> rfl

@[simp] theorem Ctx.grow_dict (c : Ctx) (occ : Nat) :
    (c.grow occ).dict = c.dict := by
  unfold Ctx.grow
  split <;> rfl

@[simp] theorem Ctx.grow_out (c : Ctx) (occ : Nat) :
    (c.grow occ).out = c.out := by
  unfold Ctx.grow
  split <;> rfl

@[simp] theorem Ctx.grow_trace (c : Ctx) (occ : Nat) :
    (c.grow occ).trace = c.trace := by
  unfold Ctx.grow
  split <;> rfl

/-! ### Fault entry (R219) -/

@[simp] theorem Ctx.enterFault_st (c : Ctx) (prm : Params) (f : FaultCode) (info : Nat) :
    (c.enterFault prm f info).st = .fault := rfl

@[simp] theorem Ctx.enterFault_fault (c : Ctx) (prm : Params) (f : FaultCode) (info : Nat) :
    (c.enterFault prm f info).fault = f := rfl

@[simp] theorem Ctx.enterFault_finfo (c : Ctx) (prm : Params) (f : FaultCode) (info : Nat) :
    (c.enterFault prm f info).finfo = zextInfo prm info := rfl

@[simp] theorem Ctx.enterFault_nextCode (c : Ctx) (prm : Params) (f : FaultCode) (info : Nat) :
    (c.enterFault prm f info).nextCode = c.nextCode := rfl

@[simp] theorem Ctx.enterFault_width (c : Ctx) (prm : Params) (f : FaultCode) (info : Nat) :
    (c.enterFault prm f info).width = c.width := rfl

@[simp] theorem Ctx.enterFault_dict (c : Ctx) (prm : Params) (f : FaultCode) (info : Nat) :
    (c.enterFault prm f info).dict = c.dict := rfl

@[simp] theorem Ctx.enterFault_out (c : Ctx) (prm : Params) (f : FaultCode) (info : Nat) :
    (c.enterFault prm f info).out = c.out := rfl

@[simp] theorem Ctx.enterFault_trace (c : Ctx) (prm : Params) (f : FaultCode) (info : Nat) :
    (c.enterFault prm f info).trace = c.trace := rfl

@[simp] theorem State.enterEncFault_params (s : State) (f : FaultCode) (info : Nat) :
    (s.enterEncFault f info).params = s.params := rfl

@[simp] theorem State.enterEncFault_port (s : State) (f : FaultCode) (info : Nat) :
    (s.enterEncFault f info).port = s.port := rfl

@[simp] theorem State.enterEncFault_enc (s : State) (f : FaultCode) (info : Nat) :
    (s.enterEncFault f info).enc = { s.enc with toCtx := s.enc.toCtx.enterFault s.params f info } := rfl

@[simp] theorem State.enterEncFault_dec (s : State) (f : FaultCode) (info : Nat) :
    (s.enterEncFault f info).dec = s.dec := rfl

@[simp] theorem State.enterEncFault_cmdFault (s : State) (f : FaultCode) (info : Nat) :
    (s.enterEncFault f info).cmdFault = s.cmdFault := rfl

@[simp] theorem State.enterDecFault_params (s : State) (f : FaultCode) (info : Nat) :
    (s.enterDecFault f info).params = s.params := rfl

@[simp] theorem State.enterDecFault_port (s : State) (f : FaultCode) (info : Nat) :
    (s.enterDecFault f info).port = s.port := rfl

@[simp] theorem State.enterDecFault_enc (s : State) (f : FaultCode) (info : Nat) :
    (s.enterDecFault f info).enc = s.enc := rfl

@[simp] theorem State.enterDecFault_dec (s : State) (f : FaultCode) (info : Nat) :
    (s.enterDecFault f info).dec = { s.dec with toCtx := s.dec.toCtx.enterFault s.params f info } := rfl

@[simp] theorem State.enterDecFault_cmdFault (s : State) (f : FaultCode) (info : Nat) :
    (s.enterDecFault f info).cmdFault = s.cmdFault := rfl

/-! ### `IllegalCommand` (R215) -/

@[simp] theorem State.illegalCommand_params (s : State) :
    s.illegalCommand.params = s.params := rfl

@[simp] theorem State.illegalCommand_port (s : State) :
    s.illegalCommand.port = s.port := rfl

@[simp] theorem State.illegalCommand_enc (s : State) :
    s.illegalCommand.enc = s.enc := rfl

@[simp] theorem State.illegalCommand_dec (s : State) :
    s.illegalCommand.dec = s.dec := rfl

@[simp] theorem State.illegalCommand_cmdFault (s : State) :
    s.illegalCommand.cmdFault = true := rfl

/-! ### The bit writer (R191, R193) -/

@[simp] theorem Enc.writeBits_st (e : Enc) (v w : Nat) :
    (e.writeBits v w).st = e.st := rfl

@[simp] theorem Enc.writeBits_fault (e : Enc) (v w : Nat) :
    (e.writeBits v w).fault = e.fault := rfl

@[simp] theorem Enc.writeBits_finfo (e : Enc) (v w : Nat) :
    (e.writeBits v w).finfo = e.finfo := rfl

@[simp] theorem Enc.writeBits_nextCode (e : Enc) (v w : Nat) :
    (e.writeBits v w).nextCode = e.nextCode := rfl

@[simp] theorem Enc.writeBits_width (e : Enc) (v w : Nat) :
    (e.writeBits v w).width = e.width := rfl

@[simp] theorem Enc.writeBits_dict (e : Enc) (v w : Nat) :
    (e.writeBits v w).dict = e.dict := rfl

@[simp] theorem Enc.writeBits_out (e : Enc) (v w : Nat) :
    (e.writeBits v w).out = e.out ++ leadingBytes ((e.nacc + w) / 8) (e.acc * 2 ^ w + bitField v 0 w) (e.nacc + w) := rfl

@[simp] theorem Enc.writeBits_trace (e : Enc) (v w : Nat) :
    (e.writeBits v w).trace = e.trace ++ [(bitField v 0 w, w)] := rfl

@[simp] theorem Enc.writeBits_acc (e : Enc) (v w : Nat) :
    (e.writeBits v w).acc = bitField (e.acc * 2 ^ w + bitField v 0 w) 0 ((e.nacc + w) % 8) := rfl

@[simp] theorem Enc.writeBits_nacc (e : Enc) (v w : Nat) :
    (e.writeBits v w).nacc = (e.nacc + w) % 8 := rfl

@[simp] theorem Enc.writeBits_curValid (e : Enc) (v w : Nat) :
    (e.writeBits v w).curValid = e.curValid := rfl

@[simp] theorem Enc.writeBits_curCode (e : Enc) (v w : Nat) :
    (e.writeBits v w).curCode = e.curCode := rfl

@[simp] theorem Enc.flush_st (e : Enc) :
    e.flush.st = e.st := by
  unfold Enc.flush
  split <;> rfl

@[simp] theorem Enc.flush_fault (e : Enc) :
    e.flush.fault = e.fault := by
  unfold Enc.flush
  split <;> rfl

@[simp] theorem Enc.flush_finfo (e : Enc) :
    e.flush.finfo = e.finfo := by
  unfold Enc.flush
  split <;> rfl

@[simp] theorem Enc.flush_nextCode (e : Enc) :
    e.flush.nextCode = e.nextCode := by
  unfold Enc.flush
  split <;> rfl

@[simp] theorem Enc.flush_width (e : Enc) :
    e.flush.width = e.width := by
  unfold Enc.flush
  split <;> rfl

@[simp] theorem Enc.flush_dict (e : Enc) :
    e.flush.dict = e.dict := by
  unfold Enc.flush
  split <;> rfl

@[simp] theorem Enc.flush_out (e : Enc) :
    e.flush.out = if 0 < e.nacc then e.out ++ [byteOf (e.acc * 2 ^ (8 - e.nacc))] else e.out := by
  unfold Enc.flush
  split <;> rfl

@[simp] theorem Enc.flush_trace (e : Enc) :
    e.flush.trace = e.trace := by
  unfold Enc.flush
  split <;> rfl

@[simp] theorem Enc.flush_acc (e : Enc) :
    e.flush.acc = if 0 < e.nacc then 0 else e.acc := by
  unfold Enc.flush
  split <;> rfl

@[simp] theorem Enc.flush_nacc (e : Enc) :
    e.flush.nacc = 0 := by
  unfold Enc.flush
  split
  · rfl
  · rename_i h
    exact Nat.eq_zero_of_not_pos h

@[simp] theorem Enc.flush_curValid (e : Enc) :
    e.flush.curValid = e.curValid := by
  unfold Enc.flush
  split <;> rfl

@[simp] theorem Enc.flush_curCode (e : Enc) :
    e.flush.curCode = e.curCode := by
  unfold Enc.flush
  split <;> rfl

/-! ### The bit reader (R195, R196) -/

@[simp] theorem Dec.appendByte_st (d : Dec) (b : Byte) :
    (d.appendByte b).st = d.st := rfl

@[simp] theorem Dec.appendByte_fault (d : Dec) (b : Byte) :
    (d.appendByte b).fault = d.fault := rfl

@[simp] theorem Dec.appendByte_finfo (d : Dec) (b : Byte) :
    (d.appendByte b).finfo = d.finfo := rfl

@[simp] theorem Dec.appendByte_nextCode (d : Dec) (b : Byte) :
    (d.appendByte b).nextCode = d.nextCode := rfl

@[simp] theorem Dec.appendByte_width (d : Dec) (b : Byte) :
    (d.appendByte b).width = d.width := rfl

@[simp] theorem Dec.appendByte_dict (d : Dec) (b : Byte) :
    (d.appendByte b).dict = d.dict := rfl

@[simp] theorem Dec.appendByte_out (d : Dec) (b : Byte) :
    (d.appendByte b).out = d.out := rfl

@[simp] theorem Dec.appendByte_trace (d : Dec) (b : Byte) :
    (d.appendByte b).trace = d.trace := rfl

@[simp] theorem Dec.appendByte_havePrev (d : Dec) (b : Byte) :
    (d.appendByte b).havePrev = d.havePrev := rfl

@[simp] theorem Dec.appendByte_prevCode (d : Dec) (b : Byte) :
    (d.appendByte b).prevCode = d.prevCode := rfl

@[simp] theorem Dec.appendByte_prevFirst (d : Dec) (b : Byte) :
    (d.appendByte b).prevFirst = d.prevFirst := rfl

@[simp] theorem Dec.appendByte_rbuf (d : Dec) (b : Byte) :
    (d.appendByte b).rbuf = d.rbuf * 256 + b.toNat := rfl

@[simp] theorem Dec.appendByte_nrbuf (d : Dec) (b : Byte) :
    (d.appendByte b).nrbuf = d.nrbuf + 8 := rfl

@[simp] theorem Dec.extractCode_code (d : Dec) (w : Nat) :
    (d.extractCode w).1 = bitField d.rbuf (d.nrbuf - w) w := rfl

@[simp] theorem Dec.extractCode_st (d : Dec) (w : Nat) :
    (d.extractCode w).2.st = d.st := rfl

@[simp] theorem Dec.extractCode_fault (d : Dec) (w : Nat) :
    (d.extractCode w).2.fault = d.fault := rfl

@[simp] theorem Dec.extractCode_finfo (d : Dec) (w : Nat) :
    (d.extractCode w).2.finfo = d.finfo := rfl

@[simp] theorem Dec.extractCode_nextCode (d : Dec) (w : Nat) :
    (d.extractCode w).2.nextCode = d.nextCode := rfl

@[simp] theorem Dec.extractCode_width (d : Dec) (w : Nat) :
    (d.extractCode w).2.width = d.width := rfl

@[simp] theorem Dec.extractCode_dict (d : Dec) (w : Nat) :
    (d.extractCode w).2.dict = d.dict := rfl

@[simp] theorem Dec.extractCode_out (d : Dec) (w : Nat) :
    (d.extractCode w).2.out = d.out := rfl

@[simp] theorem Dec.extractCode_trace (d : Dec) (w : Nat) :
    (d.extractCode w).2.trace = d.trace ++ [(bitField d.rbuf (d.nrbuf - w) w, w)] := rfl

@[simp] theorem Dec.extractCode_havePrev (d : Dec) (w : Nat) :
    (d.extractCode w).2.havePrev = d.havePrev := rfl

@[simp] theorem Dec.extractCode_prevCode (d : Dec) (w : Nat) :
    (d.extractCode w).2.prevCode = d.prevCode := rfl

@[simp] theorem Dec.extractCode_prevFirst (d : Dec) (w : Nat) :
    (d.extractCode w).2.prevFirst = d.prevFirst := rfl

@[simp] theorem Dec.extractCode_rbuf (d : Dec) (w : Nat) :
    (d.extractCode w).2.rbuf = bitField d.rbuf 0 (d.nrbuf - w) := rfl

@[simp] theorem Dec.extractCode_nrbuf (d : Dec) (w : Nat) :
    (d.extractCode w).2.nrbuf = d.nrbuf - w := rfl

/-! ### Hardware reset (R240) -/

@[simp] theorem State.hardReset_params (s : State) :
    s.hardReset.params = s.params := rfl

@[simp] theorem State.hardReset_port (s : State) :
    s.hardReset.port = s.port := rfl

@[simp] theorem State.hardReset_enc (s : State) :
    s.hardReset.enc = { Enc.reset with dict := s.enc.dict } := rfl

@[simp] theorem State.hardReset_dec (s : State) :
    s.hardReset.dec = { Dec.reset with dict := s.dec.dict } := rfl

@[simp] theorem State.hardReset_cmdFault (s : State) :
    s.hardReset.cmdFault = false := rfl

end Sys2Proof.Machine
end

