-- ==== Sys2Proof/Laws/Ops.lean ====
section
/-!
SUPPORT. What each shared operation can do, said once: dictionary reads, `Str`, `Lookup`, `Insert`, the bit writer and
reader, and one command of a context.
-/

namespace Sys2Proof.Machine

open Sys2Proof

/-! ### Dictionary reads -/

theorem Ctx.holdsValue_iff (c : Ctx) (k : Nat) :
    c.holdsValue k = true ↔ 256 ≤ k ∧ k < c.nextCode := by
  unfold Ctx.holdsValue
  rw [Bool.and_eq_true, decide_eq_true_iff, decide_eq_true_iff]
  exact Iff.rfl

theorem Ctx.dictRead_of_mem_range (c : Ctx) {k : Nat} (h : 256 ≤ k) (h' : k < c.nextCode) :
    c.dictRead k = c.dict.read k := by
  rw [Ctx.dictRead, if_pos ((c.holdsValue_iff k).2 ⟨h, h'⟩)]

theorem Ctx.dictRead_of_outside (c : Ctx) {k : Nat} (h : k < 256 ∨ c.nextCode ≤ k) :
    c.dictRead k = none := by
  rw [Ctx.dictRead, if_neg]
  rw [Ctx.holdsValue_iff]
  omega

theorem Ctx.dictRead_eq_some (c : Ctx) (k : Nat) (e : Entry) :
    c.dictRead k = some e ↔ (256 ≤ k ∧ k < c.nextCode) ∧ c.dict.read k = some e := by
  rw [Ctx.dictRead, ← Ctx.holdsValue_iff]
  split <;> simp_all

theorem Memory.mem_of_read (m : Memory) (k : Nat) (e : Entry) (h : m.read k = some e) :
    (k, e) ∈ m := by
  induction m with
  | nil => simp at h
  | cons x rest ih =>
    unfold Memory.read at h
    split at h
    · rename_i hk
      exact List.mem_cons.2 (.inl (Prod.ext hk.symm (Option.some.inj h).symm))
    · exact List.mem_cons_of_mem _ (ih h)

/-- Prefix order, as a read sees it (R46). -/
theorem Ctx.pre_lt_of_dictRead (c : Ctx) (hd : ∀ x ∈ c.dict, x.2.pre < x.1) {k : Nat} {e : Entry}
    (h : c.dictRead k = some e) : e.pre < k :=
  hd _ (Memory.mem_of_read _ _ _ ((c.dictRead_eq_some k e).1 h).2)

/-- Every code of the dictionary that has an entry reads as one (R24, R61). -/
theorem CtxInv.dictRead_isSome {prm : Params} {c : Ctx} (h : CtxInv prm c) {k : Nat}
    (h1 : 256 ≤ k) (h2 : k < c.nextCode) : ∃ e, c.dictRead k = some e := by
  have hf := h.filled
  simp only [Config.firstCode] at hf
  have hr := Memory.read_of_codes c.dict 256 (k - 256) h.codes
  rw [show 256 + (k - 256) = k by omega, List.getElem?_eq_getElem (by omega)] at hr
  exact ⟨_, (c.dictRead_of_mem_range h1 h2).trans hr⟩

/-! ### Strings -/

/-- The string of a literal code, with any fuel (R172). -/
theorem Ctx.strWalk_literal (c : Ctx) (fuel : Nat) {k : Nat} (h : k < 256) :
    c.strWalk fuel k = some [byteOf k] := by
  cases fuel <;> rw [Ctx.strWalk, if_pos (show k < Config.nlit from h)]

@[simp] theorem Ctx.str_literal (c : Ctx) {k : Nat} (h : k < 256) : c.str k = some [byteOf k] :=
  c.strWalk_literal k h

/-- One read of the walk (R173). -/
theorem Ctx.strWalk_succ (c : Ctx) (fuel : Nat) {k : Nat} (h : ¬ k < 256) :
    c.strWalk (fuel + 1) k =
      (c.dictRead k).bind fun e => (c.strWalk fuel e.pre).map (· ++ [e.last]) := by
  rw [Ctx.strWalk, if_neg (show ¬ k < Config.nlit from h)]
  cases c.dictRead k with
  | none => rfl
  | some e => cases h : c.strWalk fuel e.pre <;> simp [h]

/-- With prefix order, more fuel changes nothing (R46). -/
theorem Ctx.strWalk_eq_str (c : Ctx) (hd : ∀ x ∈ c.dict, x.2.pre < x.1) (k : Nat) :
    ∀ fuel, k ≤ fuel → c.strWalk fuel k = c.str k := by
  induction k using Nat.strong_induction_on with
  | _ k ih =>
    intro fuel hfuel
    by_cases hk : k < 256
    · rw [c.str_literal hk, c.strWalk_literal fuel hk]
    · obtain ⟨f, rfl⟩ : ∃ f, fuel = f + 1 := ⟨fuel - 1, by omega⟩
      obtain ⟨m, rfl⟩ : ∃ m, k = m + 1 := ⟨k - 1, by omega⟩
      rw [Ctx.str, c.strWalk_succ f hk, c.strWalk_succ m hk]
      cases hr : c.dictRead (m + 1) with
      | none => rfl
      | some e =>
        have hp := c.pre_lt_of_dictRead hd hr
        simp only [Option.bind_some]
        rw [ih e.pre hp f (by omega), ih e.pre hp m (by omega)]

/-- The string of a stored code (R173). -/
theorem Ctx.str_of_dictRead (c : Ctx) (hd : ∀ x ∈ c.dict, x.2.pre < x.1) {k : Nat} {e : Entry}
    (h : c.dictRead k = some e) : c.str k = (c.str e.pre).map (· ++ [e.last]) := by
  have hk : 256 ≤ k := ((c.dictRead_eq_some k e).1 h).1.1
  have hp := c.pre_lt_of_dictRead hd h
  obtain ⟨m, rfl⟩ : ∃ m, k = m + 1 := ⟨k - 1, by omega⟩
  rw [Ctx.str, c.strWalk_succ m (by omega), h, Option.bind_some,
    c.strWalk_eq_str hd e.pre m (by omega)]

/-- A code whose entry holds no value has no string. -/
theorem Ctx.str_of_dictRead_none (c : Ctx) {k : Nat} (hk : 256 ≤ k) (h : c.dictRead k = none) :
    c.str k = none := by
  obtain ⟨m, rfl⟩ : ∃ m, k = m + 1 := ⟨k - 1, by omega⟩
  rw [Ctx.str, c.strWalk_succ m (by omega), h, Option.bind_none]

/-- Two dictionaries that agree on every entry up to `k` give `k` the same string. -/
theorem Ctx.str_congr (c c' : Ctx) (hd : ∀ x ∈ c.dict, x.2.pre < x.1)
    (hd' : ∀ x ∈ c'.dict, x.2.pre < x.1) (k : Nat)
    (h : ∀ j ≤ k, c.dictRead j = c'.dictRead j) : c.str k = c'.str k := by
  induction k using Nat.strong_induction_on with
  | _ k ih =>
    by_cases hk : k < 256
    · simp [hk]
    · cases hr : c.dictRead k with
      | some e =>
        have hr' := (h k le_rfl).symm.trans hr
        have hp := c.pre_lt_of_dictRead hd hr
        rw [c.str_of_dictRead hd hr, c'.str_of_dictRead hd' hr',
          ih e.pre hp fun j hj => h j (by omega)]
      | none =>
        have hr' := (h k le_rfl).symm.trans hr
        rw [c.str_of_dictRead_none (by omega) hr, c'.str_of_dictRead_none (by omega) hr']

/-- Every code below `next_code` has a string, and it is not empty (R24, R173). -/
theorem CtxInv.str_isSome {prm : Params} {c : Ctx} (h : CtxInv prm c) {k : Nat}
    (hk : k < c.nextCode) : ∃ b s, c.str k = some (b :: s) := by
  induction k using Nat.strong_induction_on with
  | _ k ih =>
    by_cases hl : k < 256
    · exact ⟨_, _, c.str_literal hl⟩
    · obtain ⟨e, he⟩ := h.dictRead_isSome (by omega) hk
      have hp := c.pre_lt_of_dictRead h.descends he
      obtain ⟨b, s, hs⟩ := ih e.pre hp (by omega)
      exact ⟨b, s ++ [e.last], by rw [c.str_of_dictRead h.descends he, hs]; rfl⟩

/-! ### Search -/

/-- A hit names an entry that holds the pair (R174). -/
theorem Ctx.dictRead_of_lookup {prm : Params} {c : Ctx} (h : CtxInv prm c) {p : Nat} {b : Byte}
    {k : Nat} (hl : c.lookup p b = some k) : c.dictRead k = some ⟨p, b⟩ := by
  obtain ⟨x, hx, rfl⟩ := Option.map_eq_some_iff.1 hl
  have hp := List.find?_some hx
  simp only [Bool.and_eq_true, beq_iff_eq] at hp
  rw [c.dictRead_eq_some]
  refine ⟨(c.holdsValue_iff _).1 hp.1, ?_⟩
  rw [Memory.read_eq_some_iff _ (Memory.wf_of_codes _ _ h.codes), ← hp.2]
  exact List.mem_of_find?_eq_some hx

/-- After a miss no entry that holds a value holds the pair (R174). -/
theorem Ctx.dictRead_ne_of_lookup_none {c : Ctx} {p : Nat} {b : Byte}
    (hl : c.lookup p b = none) (k : Nat) : c.dictRead k ≠ some ⟨p, b⟩ := by
  intro hr
  obtain ⟨hk, hm⟩ := (c.dictRead_eq_some _ _).1 hr
  have := List.find?_eq_none.1 (Option.map_eq_none_iff.1 hl) _ (Memory.mem_of_read _ _ _ hm)
  simp [(c.holdsValue_iff k).2 hk] at this

/-! ### Insertion -/

/-- `Insert` answers the context with the entry stored, when the code exists in the memory (R175). -/
theorem Ctx.insert_eq_ok (prm : Params) (p : Nat) (b : Byte) (c : Ctx) (h : 256 ≤ c.nextCode)
    (h' : c.nextCode < 2 ^ prm.wmax) :
    c.insert prm p b =
      .ok { c with dict := c.dict.write c.nextCode ⟨p, b⟩, nextCode := c.nextCode + 1 } := by
  rw [Ctx.insert, if_pos ⟨h, h'⟩]

/-- What `Insert` can do (R175). -/
theorem Ctx.insert_cases (prm : Params) (p : Nat) (b : Byte) (c : Ctx) :
    (256 ≤ c.nextCode ∧ c.nextCode < 2 ^ prm.wmax ∧ c.insert prm p b =
      .ok { c with dict := c.dict.write c.nextCode ⟨p, b⟩, nextCode := c.nextCode + 1 }) ∨
    c.insert prm p b = .stop (.dictNoEntry c.nextCode) := by
  unfold Ctx.insert
  split
  · rename_i h
    exact .inl ⟨h.1, h.2, rfl⟩
  · exact .inr rfl

/-- `Insert`, the only operation that writes a dictionary memory, keeps the canonical form. -/
theorem Ctx.insert_wf {prm : Params} {p : Nat} {b : Byte} {c c' : Ctx} (h : c.dict.wf)
    (hi : c.insert prm p b = .ok c') : c'.dict.wf := by
  unfold Ctx.insert at hi
  split at hi
  · cases hi
    exact Memory.wf_write _ _ _ h
  · cases hi

/-- Both dictionary memories are in canonical form after reset. -/
theorem State.resetAt_wf (p : Params) :
    (State.resetAt p).enc.dict.wf ∧ (State.resetAt p).dec.dict.wf :=
  ⟨List.Pairwise.nil, List.Pairwise.nil⟩

/-- A context that meets the invariant holds its memory in canonical form. -/
theorem CtxInv.dict_wf {p : Params} {c : Ctx} (h : CtxInv p c) : c.dict.wf :=
  Memory.wf_of_codes c.dict 256 h.codes

/-- After an insertion the new code reads as the new entry; every other code reads as before (R61, R177 (b)). -/
theorem Ctx.dictRead_inserted (c : Ctx) (e : Entry) (h : 256 ≤ c.nextCode) (k : Nat) :
    Ctx.dictRead { c with dict := c.dict.write c.nextCode e, nextCode := c.nextCode + 1 } k =
      if k = c.nextCode then some e else c.dictRead k := by
  split
  · rename_i hk
    subst hk
    rw [Ctx.dictRead_of_mem_range _ h (Nat.lt_succ_self _)]
    exact Memory.read_write_same _ _ _
  · rename_i hk
    by_cases hr : 256 ≤ k ∧ k < c.nextCode
    · rw [Ctx.dictRead_of_mem_range _ hr.1 (by simp; omega), c.dictRead_of_mem_range hr.1 hr.2]
      exact Memory.read_write_other _ _ _ _ hk
    · rw [c.dictRead_of_outside (by omega), Ctx.dictRead_of_outside _ (by simp; omega)]

/-- `dictRead` looks at the memory and `next_code` only. -/
theorem Ctx.dictRead_congr {c c' : Ctx} {k : Nat} (hd : c.dict = c'.dict)
    (hn : c.nextCode = c'.nextCode) : c.dictRead k = c'.dictRead k := by
  simp [Ctx.dictRead, Ctx.holdsValue, hd, hn]

/-- `Str` looks at the memory and `next_code` only. -/
theorem Ctx.strWalk_congr {c c' : Ctx} {fuel k : Nat} (hd : c.dict = c'.dict)
    (hn : c.nextCode = c'.nextCode) : c.strWalk fuel k = c'.strWalk fuel k := by
  induction fuel generalizing k with
  | zero => rfl
  | succ f ih => simp only [Ctx.strWalk, Ctx.dictRead_congr hd hn, ih]

/-- The code is implicit, so that a use takes both contexts from the goal. -/
theorem Ctx.str_eq_of_same {c c' : Ctx} {k : Nat} (hd : c.dict = c'.dict)
    (hn : c.nextCode = c'.nextCode) : c.str k = c'.str k := Ctx.strWalk_congr hd hn

/-- The common invariant says nothing of `width`, `out` and `trace`. -/
theorem CtxInv.of_same {p : Params} {c c' : Ctx} (h : CtxInv p c) (hst : c'.st = c.st)
    (hf : c'.fault = c.fault) (hi : c'.finfo = c.finfo) (hn : c'.nextCode = c.nextCode)
    (hd : c'.dict = c.dict) : CtxInv p c' := by
  obtain ⟨h1, h2, h3, h4, h5, h6, h7, h8⟩ := h
  constructor <;> simp_all

/-! ### One command of a context -/

/-- What a command of the encoder context can do (R12, R38, R219). -/
theorem State.onEnc_cases (kind : CmdKind) (word : CommandWord) (body : Enc → Result Enc)
    (s : State) :
    (s.enc.st = .fault ∧ s.onEnc kind word body = .next s) ∨
    (legality s.enc.st kind = .notLegal ∧
      s.onEnc kind word body = .next (s.enterEncFault .protocolError word.toNat)) ∨
    (legality s.enc.st kind = .performed ∧
      ((∃ e, body s.enc = .ok e ∧ s.onEnc kind word body = .next { s with enc := e }) ∨
       (∃ f i, body s.enc = .raise f i ∧ s.onEnc kind word body = .next (s.enterEncFault f i)) ∨
       (∃ r, body s.enc = .stop r ∧ s.onEnc kind word body = .fault r))) := by
  unfold State.onEnc
  cases hl : legality s.enc.st kind with
  | ignored =>
    refine .inl ⟨?_, rfl⟩
    cases hst : s.enc.st <;> cases kind <;> simp_all [legality]
  | notLegal => exact .inr (.inl ⟨rfl, rfl⟩)
  | performed =>
    refine .inr (.inr ⟨rfl, ?_⟩)
    cases hb : body s.enc with
    | ok e => exact .inl ⟨e, rfl, rfl⟩
    | raise f i => exact .inr (.inl ⟨f, i, rfl, rfl⟩)
    | stop r => exact .inr (.inr ⟨r, rfl, rfl⟩)

/-- What a command of the decoder context can do (R12, R38, R219). -/
theorem State.onDec_cases (kind : CmdKind) (word : CommandWord) (body : Dec → Result Dec)
    (s : State) :
    (s.dec.st = .fault ∧ s.onDec kind word body = .next s) ∨
    (legality s.dec.st kind = .notLegal ∧
      s.onDec kind word body = .next (s.enterDecFault .protocolError word.toNat)) ∨
    (legality s.dec.st kind = .performed ∧
      ((∃ d, body s.dec = .ok d ∧ s.onDec kind word body = .next { s with dec := d }) ∨
       (∃ f i, body s.dec = .raise f i ∧ s.onDec kind word body = .next (s.enterDecFault f i)) ∨
       (∃ r, body s.dec = .stop r ∧ s.onDec kind word body = .fault r))) := by
  unfold State.onDec
  cases hl : legality s.dec.st kind with
  | ignored =>
    refine .inl ⟨?_, rfl⟩
    cases hst : s.dec.st <;> cases kind <;> simp_all [legality]
  | notLegal => exact .inr (.inl ⟨rfl, rfl⟩)
  | performed =>
    refine .inr (.inr ⟨rfl, ?_⟩)
    cases hb : body s.dec with
    | ok d => exact .inl ⟨d, rfl, rfl⟩
    | raise f i => exact .inr (.inl ⟨f, i, rfl, rfl⟩)
    | stop r => exact .inr (.inr ⟨r, rfl, rfl⟩)

/-- What the body of an encoder command changes when it completes, raises or stops is said by the body alone; the rest
of the machine is untouched (R12, R219). -/
theorem State.onEnc_frame {kind : CmdKind} {word : CommandWord} {body : Enc → Result Enc}
    {s t : State} (h : s.onEnc kind word body = .next t) :
    t.params = s.params ∧ t.port = s.port ∧ t.dec = s.dec ∧ t.cmdFault = s.cmdFault := by
  rcases s.onEnc_cases kind word body with
    ⟨-, h'⟩ | ⟨-, h'⟩ | ⟨-, ⟨e, -, h'⟩ | ⟨f, i, -, h'⟩ | ⟨r, -, h'⟩⟩ <;> rw [h'] at h
  all_goals first
    | (cases h; exact ⟨rfl, rfl, rfl, rfl⟩)
    | cases h

theorem State.onDec_frame {kind : CmdKind} {word : CommandWord} {body : Dec → Result Dec}
    {s t : State} (h : s.onDec kind word body = .next t) :
    t.params = s.params ∧ t.port = s.port ∧ t.enc = s.enc ∧ t.cmdFault = s.cmdFault := by
  rcases s.onDec_cases kind word body with
    ⟨-, h'⟩ | ⟨-, h'⟩ | ⟨-, ⟨e, -, h'⟩ | ⟨f, i, -, h'⟩ | ⟨r, -, h'⟩⟩ <;> rw [h'] at h
  all_goals first
    | (cases h; exact ⟨rfl, rfl, rfl, rfl⟩)
    | cases h

end Sys2Proof.Machine
end

