-- ==== Sys2Proof/Laws/Decoder.lean ====
section
/-!
SUPPORT. What the bodies of the decoder commands answer, one lemma per branch (spec/41_decoder.md).
-/

namespace Sys2Proof.Machine

open Sys2Proof

@[simp] theorem Dec.previous_of_have {d : Dec} (h : d.havePrev = true) :
    d.previous = some (d.prevCode, d.prevFirst) := by
  rw [Dec.previous, if_pos h]

@[simp] theorem Dec.previous_of_none {d : Dec} (h : d.havePrev = false) : d.previous = none := by
  rw [Dec.previous, if_neg (by simp [h])]

/-- The width the decoder holds is one the hardware has exactly while another code can be read (R44, R181). -/
theorem DecInv.width_le_iff {p : Params} {d : Dec} (h : DecInv p d) :
    d.width ≤ p.wmax ↔ d.nextCode + 1 < 2 ^ p.wmax := by
  rw [h.width, widthOf, bitlen_le_iff]

/-- A buffer with a byte appended (R195). -/
theorem Dec.appended_lt {d : Dec} (h : d.rbuf < 2 ^ d.nrbuf) (b : Byte) :
    d.rbuf * 256 + b.toNat < 2 ^ (d.nrbuf + 8) := by
  have := b.isLt
  rw [pow_add]
  norm_num
  omega

/-- The decoder with the `n`-valued code of `w` bits taken out of the buffer `total` of `t` bits (R195, R196). -/
def Dec.extracted (d : Dec) (total t w : Nat) : Dec :=
  { d with
    rbuf := total % 2 ^ (t - w)
    nrbuf := t - w
    trace := d.trace ++ [(total / 2 ^ (t - w), w)] }

/-- A `DEC_BYTE` that completes no code only buffers (R142). -/
theorem decByteBody_buffers {p : Params} {d : Dec} (b : Byte) (h : d.nrbuf + 8 < d.width) :
    decByteBody p b d = .ok (d.appendByte b) := by
  exact if_pos h

/-- A `DEC_BYTE` that completes a code at a width the hardware has not (R142, R144). -/
theorem decByteBody_overflow {p : Params} {d : Dec} (b : Byte) (h1 : d.width ≤ d.nrbuf + 8)
    (h2 : p.wmax < d.width) : decByteBody p b d = .raise .widthOverflow d.nextCode := by
  exact (if_neg (Nat.not_lt.2 h1)).trans (if_pos h2)

/-- A `DEC_BYTE` that completes a code at a width the hardware has (R142). -/
theorem decByteBody_code {p : Params} {d : Dec} (hr : d.rbuf < 2 ^ d.nrbuf) (b : Byte)
    (h1 : d.width ≤ d.nrbuf + 8) (h2 : d.width ≤ p.wmax) :
    decByteBody p b d =
      processCode p ((d.rbuf * 256 + b.toNat) / 2 ^ (d.nrbuf + 8 - d.width))
        (d.extracted (d.rbuf * 256 + b.toNat) (d.nrbuf + 8) d.width) := by
  have hn : bitField (d.rbuf * 256 + b.toNat) (d.nrbuf + 8 - d.width) d.width =
      (d.rbuf * 256 + b.toNat) / 2 ^ (d.nrbuf + 8 - d.width) := by
    rw [bitField, Nat.mod_eq_of_lt]
    rw [Nat.div_lt_iff_lt_mul (by positivity), ← pow_add,
      show d.width + (d.nrbuf + 8 - d.width) = d.nrbuf + 8 by omega]
    exact Dec.appended_lt hr b
  simp only [decByteBody, Dec.appendByte_nrbuf, Dec.appendByte_width, Nat.not_lt.2 h1,
    Nat.not_lt.2 h2, if_false]
  simp only [Dec.extractCode, Dec.appendByte, hn, Dec.extracted]
  simp [bitField]

/-- The value of an extracted code fits its width (R196). -/
theorem Dec.code_lt {d : Dec} (hr : d.rbuf < 2 ^ d.nrbuf) (b : Byte)
    (h1 : d.width ≤ d.nrbuf + 8) :
    (d.rbuf * 256 + b.toNat) / 2 ^ (d.nrbuf + 8 - d.width) < 2 ^ d.width := by
  rw [Nat.div_lt_iff_lt_mul (by positivity), ← pow_add,
    show d.width + (d.nrbuf + 8 - d.width) = d.nrbuf + 8 by omega]
  exact Dec.appended_lt hr b

/-- `ProcessCode` of the first code (R145 step 2). -/
theorem processCode_first {p : Params} {d : Dec} {n : Nat} (h : d.havePrev = false)
    (hn : n < d.nextCode) :
    processCode p n d = .ok { d with
      out := d.out ++ [byteOf n]
      prevCode := n
      prevFirst := byteOf n
      havePrev := true } := by
  rw [processCode, Dec.previous_of_none h]
  simp only [processFirst, if_neg (Nat.not_le.2 hn), Ctx.emit]

theorem processCode_first_corrupt {p : Params} {d : Dec} {n : Nat} (h : d.havePrev = false)
    (hn : d.nextCode ≤ n) : processCode p n d = .raise .corruptCode n := by
  rw [processCode, Dec.previous_of_none h]
  simp only [processFirst, if_pos hn]

/-- The resolved string (R145 steps 3a, 3b). -/
theorem resolveCode_present {c : Ctx} {pc n : Nat} {pf : Byte} {s : List Byte}
    (hn : n < c.nextCode) (hs : c.str n = some s) : resolveCode pc pf n c = .ok s := by
  simp [resolveCode, hn, Ctx.strOrStop, hs]

theorem resolveCode_kwk {c : Ctx} {pc : Nat} {pf : Byte} {s : List Byte}
    (hs : c.str pc = some s) : resolveCode pc pf c.nextCode c = .ok (s ++ [pf]) := by
  simp [resolveCode, Ctx.strOrStop, hs, Result.andThen]

theorem resolveCode_corrupt {c : Ctx} {pc n : Nat} {pf : Byte} (hn : c.nextCode < n) :
    resolveCode pc pf n c = .raise .corruptCode n := by
  simp [resolveCode, Nat.not_lt.2 hn.le, hn.ne']

/-- `ProcessCode` of a later code whose string is known (R145 steps 3c to 3f). -/
theorem processCode_later {p : Params} {d : Dec} {n : Nat} {f : Byte} {tail : List Byte}
    (h : d.havePrev = true) (h1 : 256 ≤ d.nextCode) (h2 : d.nextCode < 2 ^ p.wmax)
    (hr : resolveCode d.prevCode d.prevFirst n d.toCtx = .ok (f :: tail)) :
    processCode p n d = .ok { d with
      out := d.out ++ (f :: tail)
      dict := d.dict.write d.nextCode ⟨d.prevCode, f⟩
      nextCode := d.nextCode + 1
      width := if d.nextCode + 2 = 2 ^ d.width then d.width + 1 else d.width
      prevCode := n
      prevFirst := f } := by
  rw [processCode, Dec.previous_of_have h]
  simp only [processLater, hr, Result.andThen, List.headD]
  rw [Ctx.insert_eq_ok _ _ _ _ (by exact h1) (by exact h2)]
  simp only [Ctx.grow, Ctx.emit, show d.nextCode + 1 + 1 = d.nextCode + 2 from rfl]
  by_cases hw : d.nextCode + 2 = 2 ^ d.width
  · simp only [if_pos hw]
  · simp only [if_neg hw]

theorem processCode_later_corrupt {p : Params} {d : Dec} {n : Nat} (h : d.havePrev = true)
    (hn : d.nextCode < n) : processCode p n d = .raise .corruptCode n := by
  rw [processCode, Dec.previous_of_have h]
  simp only [processLater, resolveCode_corrupt hn, Result.andThen]

/-- In an active decoder, `DEC_BYTE` is its body. -/
theorem execDecByte_active {s : State} (b : Byte) (h : s.dec.st = .active) :
    exec (.decByte b) s =
      match decByteBody s.params b s.dec with
      | .ok d => .next { s with dec := d }
      | .raise f info => .next (s.enterDecFault f info)
      | .stop r => .fault r := by
  cases hb : decByteBody s.params b s.dec <;>
    simp only [exec, execDecByte, State.onDec, h, legality, hb]

/-- Everything `ProcessCode` can do when the previous code and its first byte are as the invariant says (R145 to
R150). -/
theorem processCode_cases {p : Params} {d : Dec} (hc : CtxInv p d.toCtx)
    (hh : d.nextCode < 2 ^ p.wmax)
    (hp : d.havePrev = true → ∃ s, d.toCtx.str d.prevCode = some (d.prevFirst :: s)) (n : Nat) :
    ((d.nextCode < n ∨ d.havePrev = false ∧ d.nextCode ≤ n) ∧
      processCode p n d = .raise .corruptCode n) ∨
    (d.havePrev = false ∧ n < d.nextCode ∧ processCode p n d = .ok { d with
      out := d.out ++ [byteOf n]
      prevCode := n
      prevFirst := byteOf n
      havePrev := true }) ∨
    (d.havePrev = true ∧ n ≤ d.nextCode ∧ ∃ f tail,
      (n < d.nextCode → d.toCtx.str n = some (f :: tail)) ∧
      (n = d.nextCode → f = d.prevFirst ∧
        ∃ s, tail = s ++ [f] ∧ d.toCtx.str d.prevCode = some (f :: s)) ∧
      processCode p n d = .ok { d with
        out := d.out ++ (f :: tail)
        dict := d.dict.write d.nextCode ⟨d.prevCode, f⟩
        nextCode := d.nextCode + 1
        width := if d.nextCode + 2 = 2 ^ d.width then d.width + 1 else d.width
        prevCode := n
        prevFirst := f }) := by
  have hl : 256 ≤ d.nextCode := hc.nextCodeLow
  rcases Bool.eq_false_or_eq_true d.havePrev with hv | hv
  case inr =>
    by_cases hn : n < d.nextCode
    · exact .inr (.inl ⟨hv, hn, processCode_first hv hn⟩)
    · exact .inl ⟨.inr ⟨hv, Nat.le_of_not_lt hn⟩,
        processCode_first_corrupt hv (Nat.le_of_not_lt hn)⟩
  case inl =>
    rcases lt_trichotomy n d.nextCode with hn | rfl | hn
    · obtain ⟨f, tail, hs⟩ := hc.str_isSome hn
      exact .inr (.inr ⟨hv, hn.le, f, tail, fun _ => hs, fun h => absurd h hn.ne,
        processCode_later hv hl hh (resolveCode_present hn hs)⟩)
    · obtain ⟨s, hs⟩ := hp hv
      exact .inr (.inr ⟨hv, le_rfl, d.prevFirst, s ++ [d.prevFirst], fun h => absurd h (lt_irrefl _),
        fun _ => ⟨rfl, s, rfl, hs⟩, processCode_later hv hl hh (resolveCode_kwk hs)⟩)
    · exact .inl ⟨.inl hn, processCode_later_corrupt hv hn⟩

/-- Everything the body of `DEC_BYTE` can do in a state that meets the invariant (R142 to R150); `n` is the code that
the byte completes. -/
theorem decByteBody_cases {p : Params} {d : Dec} (h : DecInv p d) (b : Byte) :
    (d.nrbuf + 8 < d.width ∧ decByteBody p b d = .ok (d.appendByte b)) ∨
    (d.width ≤ d.nrbuf + 8 ∧ p.wmax < d.width ∧
      decByteBody p b d = .raise .widthOverflow d.nextCode) ∨
    (d.width ≤ d.nrbuf + 8 ∧ d.width ≤ p.wmax ∧
      ∃ n, n = (d.rbuf * 256 + b.toNat) / 2 ^ (d.nrbuf + 8 - d.width) ∧ n < 2 ^ d.width ∧
      (((d.nextCode < n ∨ d.havePrev = false ∧ d.nextCode ≤ n) ∧
        decByteBody p b d = .raise .corruptCode n) ∨
      (d.havePrev = false ∧ n < d.nextCode ∧ decByteBody p b d =
        .ok { d.extracted (d.rbuf * 256 + b.toNat) (d.nrbuf + 8) d.width with
          out := d.out ++ [byteOf n]
          prevCode := n
          prevFirst := byteOf n
          havePrev := true }) ∨
      (d.havePrev = true ∧ n ≤ d.nextCode ∧ ∃ f tail,
        (n < d.nextCode → d.toCtx.str n = some (f :: tail)) ∧
        (n = d.nextCode → f = d.prevFirst ∧
          ∃ s, tail = s ++ [f] ∧ d.toCtx.str d.prevCode = some (f :: s)) ∧
        decByteBody p b d =
          .ok { d.extracted (d.rbuf * 256 + b.toNat) (d.nrbuf + 8) d.width with
            out := d.out ++ (f :: tail)
            dict := d.dict.write d.nextCode ⟨d.prevCode, f⟩
            nextCode := d.nextCode + 1
            width := if d.nextCode + 2 = 2 ^ d.width then d.width + 1 else d.width
            prevCode := n
            prevFirst := f }))) := by
  by_cases h1 : d.nrbuf + 8 < d.width
  · exact .inl ⟨h1, decByteBody_buffers b h1⟩
  replace h1 := Nat.le_of_not_lt h1
  by_cases h2 : d.width ≤ p.wmax
  · have h3 := decByteBody_code h.rbufFits b h1 h2
    have hs : ∀ k, (d.extracted (d.rbuf * 256 + b.toNat) (d.nrbuf + 8) d.width).toCtx.str k =
        d.toCtx.str k := fun k => Ctx.str_eq_of_same rfl rfl
    have h4 := processCode_cases
      (d := d.extracted (d.rbuf * 256 + b.toNat) (d.nrbuf + 8) d.width)
      (h.ctx.of_same rfl rfl rfl rfl rfl) h.nextCodeHigh
      (fun hv => (h.previousFirst hv).imp fun s hx => (hs _).trans hx)
      ((d.rbuf * 256 + b.toNat) / 2 ^ (d.nrbuf + 8 - d.width))
    rw [← h3] at h4
    simp only [hs] at h4
    exact .inr (.inr ⟨h1, h2, _, rfl, Dec.code_lt h.rbufFits b h1, h4⟩)
  · exact .inr (.inl ⟨h1, Nat.lt_of_not_le h2, decByteBody_overflow b h1 (Nat.lt_of_not_le h2)⟩)

end Sys2Proof.Machine
end

