-- ==== Sys2Proof/Laws/Encoder.lean ====
section
/-!
SUPPORT. What the bodies of the encoder commands answer, one lemma per branch (spec/40_encoder.md).
-/

namespace Sys2Proof.Machine

open Sys2Proof

theorem bitField_zero_of_lt {v w : Nat} (h : v < 2 ^ w) : bitField v 0 w = v := by
  simp [bitField, Nat.mod_eq_of_lt h]

theorem bitField_zero (v w : Nat) : bitField v 0 w = v % 2 ^ w := by simp [bitField]

@[simp] theorem Enc.currentMatch_of_valid {e : Enc} (h : e.curValid = true) :
    e.currentMatch = some e.curCode := by
  rw [Enc.currentMatch, if_pos h]

@[simp] theorem Enc.currentMatch_of_empty {e : Enc} (h : e.curValid = false) :
    e.currentMatch = none := by
  rw [Enc.currentMatch, if_neg (by simp [h])]

/-- The width the encoder holds is one the hardware has exactly when the dictionary memory has room (R43, R181). -/
theorem EncInv.width_le_iff {p : Params} {e : Enc} (h : EncInv p e) :
    e.width ≤ p.wmax ↔ e.nextCode < 2 ^ p.wmax := by
  rw [h.width, widthOf, bitlen_le_iff]

/-- `next_code` fits the width the encoder holds (R43). -/
theorem EncInv.nextCode_lt {p : Params} {e : Enc} (h : EncInv p e) : e.nextCode < 2 ^ e.width := by
  rw [h.width]
  exact lt_two_pow_bitlen _

/-- The miss branch at a width the hardware has (R122, R124). -/
theorem encMiss_eq_ok {p : Params} {e : Enc} {m : Nat} (c : Byte) (h1 : 256 ≤ e.nextCode)
    (h2 : e.nextCode < 2 ^ p.wmax) (hw : e.width ≤ p.wmax) (hm : m < 2 ^ e.width) :
    encMiss p m c e = .ok { e with
      out := e.out ++ leadingBytes ((e.nacc + e.width) / 8) (e.acc * 2 ^ e.width + m)
        (e.nacc + e.width)
      nacc := (e.nacc + e.width) % 8
      acc := (e.acc * 2 ^ e.width + m) % 2 ^ ((e.nacc + e.width) % 8)
      trace := e.trace ++ [(m, e.width)]
      dict := e.dict.write e.nextCode ⟨m, c⟩
      nextCode := e.nextCode + 1
      width := if e.nextCode + 1 = 2 ^ e.width then e.width + 1 else e.width
      curCode := c.toNat } := by
  rw [encMiss, if_neg (Nat.not_lt.2 hw)]
  simp only [Enc.writeBits, bitField_zero_of_lt hm]
  rw [Ctx.insert_eq_ok _ _ _ _ (by exact h1) (by exact h2)]
  simp only [Result.andThen, Ctx.grow, bitField_zero]
  split <;> rfl

/-- The three ways an `ENC_BYTE` body goes (R122). -/
theorem encByteBody_empty {p : Params} {e : Enc} (c : Byte) (h : e.curValid = false) :
    encByteBody p c e = .ok { e with curCode := c.toNat, curValid := true } := by
  simp [encByteBody, h]

theorem encByteBody_hit {p : Params} {e : Enc} {c : Byte} {k : Nat} (h : e.curValid = true)
    (hl : e.toCtx.lookup e.curCode c = some k) :
    encByteBody p c e = .ok { e with curCode := k } := by
  simp [encByteBody, h, hl]

theorem encByteBody_miss {p : Params} {e : Enc} {c : Byte} (h : e.curValid = true)
    (hl : e.toCtx.lookup e.curCode c = none) :
    encByteBody p c e = encMiss p e.curCode c e := by
  simp [encByteBody, h, hl]

/-- In an active encoder, `ENC_BYTE` is its body. -/
theorem execEncByte_active {s : State} (c : Byte) (h : s.enc.st = .active) :
    exec (.encByte c) s =
      match encByteBody s.params c s.enc with
      | .ok e => .next { s with enc := e }
      | .raise f info => .next (s.enterEncFault f info)
      | .stop r => .fault r := by
  cases hb : encByteBody s.params c s.enc <;>
    simp only [exec, execEncByte, State.onEnc, h, legality, hb]

/-- In an active encoder, `ENC_END` is its body. -/
theorem execEncEnd_active {s : State} (h : s.enc.st = .active) :
    exec .encEnd s =
      match encEndBody s.params s.enc with
      | .ok e => .next { s with enc := e }
      | .raise f info => .next (s.enterEncFault f info)
      | .stop r => .fault r := by
  cases hb : encEndBody s.params s.enc <;>
    simp only [exec, execEncEnd, State.onEnc, h, legality, hb]

/-- The body of `ENC_END` with an empty match and nothing pending (R126, R194). -/
theorem encEndBody_empty {p : Params} {e : Enc} (h : e.curValid = false) (hn : e.nacc = 0) :
    encEndBody p e = .ok { e with st := .done } := by
  simp [encEndBody, encFinalCode, h, Result.andThen, Enc.flush, hn]

/-- The body of `ENC_END` with a final code at a width the hardware has (R127, R193). -/
theorem encEndBody_code {p : Params} {e : Enc} (h : e.curValid = true) (hw : e.width ≤ p.wmax) :
    encEndBody p e =
      .ok { ({ e.writeBits e.curCode e.width with curValid := false } : Enc).flush with
        st := .done } := by
  simp [encEndBody, encFinalCode, h, Result.andThen, Nat.not_lt.2 hw]

/-- The body of `ENC_END` with a final code at a width the hardware has not (R127, R213). -/
theorem encEndBody_overflow {p : Params} {e : Enc} (h : e.curValid = true)
    (hw : p.wmax < e.width) : encEndBody p e = .raise .widthOverflow e.nextCode := by
  simp [encEndBody, encFinalCode, h, Result.andThen, hw]

/-- The miss branch at a width the hardware has not (R122, R213). -/
theorem encMiss_overflow {p : Params} {e : Enc} {m : Nat} {c : Byte} (hw : p.wmax < e.width) :
    encMiss p m c e = .raise .widthOverflow e.nextCode := by
  rw [encMiss, if_pos hw]

/-- Everything the body of `ENC_BYTE` can do in a state that meets the invariant (R122). -/
theorem encByteBody_cases {p : Params} {e : Enc} (h : EncInv p e) (c : Byte) :
    (e.curValid = false ∧
      encByteBody p c e = .ok { e with curCode := c.toNat, curValid := true }) ∨
    (∃ k, e.curValid = true ∧ k < e.nextCode ∧ e.toCtx.dictRead k = some ⟨e.curCode, c⟩ ∧
      encByteBody p c e = .ok { e with curCode := k }) ∨
    (e.curValid = true ∧ (∀ k, e.toCtx.dictRead k ≠ some ⟨e.curCode, c⟩) ∧
      p.wmax < e.width ∧ encByteBody p c e = .raise .widthOverflow e.nextCode) ∨
    (e.curValid = true ∧ (∀ k, e.toCtx.dictRead k ≠ some ⟨e.curCode, c⟩) ∧
      e.width ≤ p.wmax ∧ e.nextCode < 2 ^ p.wmax ∧
      encByteBody p c e = .ok { e with
        out := e.out ++ leadingBytes ((e.nacc + e.width) / 8) (e.acc * 2 ^ e.width + e.curCode)
          (e.nacc + e.width)
        nacc := (e.nacc + e.width) % 8
        acc := (e.acc * 2 ^ e.width + e.curCode) % 2 ^ ((e.nacc + e.width) % 8)
        trace := e.trace ++ [(e.curCode, e.width)]
        dict := e.dict.write e.nextCode ⟨e.curCode, c⟩
        nextCode := e.nextCode + 1
        width := if e.nextCode + 1 = 2 ^ e.width then e.width + 1 else e.width
        curCode := c.toNat }) := by
  rcases Bool.eq_false_or_eq_true e.curValid with hv | hv
  case inr => exact .inl ⟨hv, encByteBody_empty c hv⟩
  case inl =>
    right
    cases hk : e.toCtx.lookup e.curCode c with
    | some k =>
      have hr := Ctx.dictRead_of_lookup h.ctx hk
      exact .inl ⟨k, hv, ((e.toCtx.dictRead_eq_some _ _).1 hr).1.2, hr, encByteBody_hit hv hk⟩
    | none =>
      right
      have hne := Ctx.dictRead_ne_of_lookup_none hk
      by_cases hw : e.width ≤ p.wmax
      · have hn := h.width_le_iff.1 hw
        exact .inr ⟨hv, hne, hw, hn, (encByteBody_miss hv hk).trans (encMiss_eq_ok c
          h.ctx.nextCodeLow hn hw ((h.current hv).trans h.nextCode_lt))⟩
      · exact .inl ⟨hv, hne, Nat.lt_of_not_le hw,
          (encByteBody_miss hv hk).trans (encMiss_overflow (Nat.lt_of_not_le hw))⟩

/-- Everything the body of `ENC_END` can do in an active state that meets the invariant (R126, R127). -/
theorem encEndBody_cases {p : Params} {e : Enc} (h : EncInv p e) (ha : e.st = .active) :
    (e.curValid = false ∧ e.nextCode = 256 ∧ e.nacc = 0 ∧ e.out = [] ∧ e.trace = [] ∧
      encEndBody p e = .ok { e with st := .done }) ∨
    (e.curValid = true ∧ p.wmax < e.width ∧
      encEndBody p e = .raise .widthOverflow e.nextCode) ∨
    (e.curValid = true ∧ e.width ≤ p.wmax ∧ encEndBody p e =
      .ok { ({ e.writeBits e.curCode e.width with curValid := false } : Enc).flush with
        st := .done }) := by
  rcases Bool.eq_false_or_eq_true e.curValid with hv | hv
  case inr =>
    obtain ⟨h1, h2, h3, h4⟩ := h.emptyMatch ha hv
    exact .inl ⟨hv, h1, h2, h3, h4, encEndBody_empty hv h2⟩
  case inl =>
    right
    by_cases hw : e.width ≤ p.wmax
    · exact .inr ⟨hv, hw, encEndBody_code hv hw⟩
    · exact .inl ⟨hv, Nat.lt_of_not_le hw, encEndBody_overflow hv (Nat.lt_of_not_le hw)⟩

end Sys2Proof.Machine
end

