-- ==== Sys2Proof/Laws/Invariant.lean ====
section
/-!
SUPPORT. How the shared operations keep the invariant of a context's common registers (Safety.lean).
-/

namespace Sys2Proof.Machine

open Sys2Proof

/-- The information register holds `WMAX + 1` bits whatever is stored (R26; log entry 7). -/
theorem zextInfo_lt (p : Params) (info : Nat) : zextInfo p info < 2 ^ (p.wmax + 1) := by
  unfold zextInfo
  split
  · assumption
  · exact Nat.mod_lt _ (by positivity)

/-- A state change that neither enters nor leaves `FAULT` keeps it. -/
theorem CtxInv.of_live {p : Params} {c c' : Ctx} (h : CtxInv p c) (h1 : c.st ≠ .fault)
    (h2 : c'.st ≠ .fault) (hf : c'.fault = c.fault) (hi : c'.finfo = c.finfo)
    (hn : c'.nextCode = c.nextCode) (hd : c'.dict = c.dict) : CtxInv p c' := by
  have hfn : c.fault = .none := by
    by_contra hne
    exact h1 (h.faultRecorded.2 hne)
  obtain ⟨h1, h2, h3, h4, h5, h6, h7, h8⟩ := h
  constructor <;> simp_all

/-- `Bootstrap` keeps it: no stored entry holds a value afterwards (R171). -/
theorem CtxInv.of_bootstrap {p : Params} {c c' : Ctx} (h : CtxInv p c) (h1 : c.st ≠ .fault)
    (h2 : c'.st ≠ .fault) (hf : c'.fault = c.fault) (hi : c'.finfo = c.finfo)
    (hn : c'.nextCode = 256) (hd : c'.dict = c.dict) : CtxInv p c' := by
  have hfn : c.fault = .none := by
    by_contra hne
    exact h1 (h.faultRecorded.2 hne)
  obtain ⟨h1, h2, h3, h4, h5, h6, h7, h8⟩ := h
  constructor <;> simp_all [Config.firstCode]

/-- Fault entry keeps it (R219). -/
theorem CtxInv.enterFault {p : Params} {c : Ctx} (h : CtxInv p c) {f : FaultCode} (info : Nat)
    (hf : f ≠ .none) : CtxInv p (c.enterFault p f info) := by
  obtain ⟨h1, h2, h3, h4, h5, h6, h7, h8⟩ := h
  exact ⟨h1, h2, h3, h4, h5, by simp [hf], fun h => absurd h hf, zextInfo_lt p info⟩

/-- `Insert` keeps it (R175, R46). -/
theorem CtxInv.inserted {p : Params} {c : Ctx} (h : CtxInv p c) (hn : c.nextCode < 2 ^ p.wmax)
    {pre : Nat} (hp : pre < c.nextCode) (b : Byte) :
    CtxInv p { c with dict := c.dict.write c.nextCode ⟨pre, b⟩, nextCode := c.nextCode + 1 } := by
  have h1 := h.nextCodeLow
  have h2 := h.filled
  have h3 := h.inMemory
  simp only [Config.firstCode] at h1 h2 h3
  obtain ⟨i, hi⟩ := Nat.exists_eq_add_of_le h1
  have hl := Memory.length_write_of_codes c.dict 256 i ⟨pre, b⟩ h.codes (by omega)
  have hcodes := Memory.codes_write c.dict 256 i ⟨pre, b⟩ h.codes (by omega)
  rw [← hi] at hl hcodes
  refine ⟨hcodes, ?_, ?_, ?_, ?_, h.faultRecorded, h.infoZero, h.infoFits⟩
  · simp only [hl, Config.firstCode]
    omega
  · simp only [hl, Config.firstCode]
    omega
  · intro x hx
    rcases Memory.mem_write _ _ _ _ hx with rfl | hx
    · exact hp
    · exact h.descends x hx
  · exact Nat.le_succ_of_le h1

/-- After an insertion every code that had a string has the same string (R177 (b)); `c'` is any context with the new
dictionary. -/
theorem CtxInv.str_inserted {p : Params} {c c' : Ctx} (h : CtxInv p c)
    (hn : c.nextCode < 2 ^ p.wmax) {pre : Nat} (hp : pre < c.nextCode) {b : Byte}
    (hd' : c'.dict = c.dict.write c.nextCode ⟨pre, b⟩) (hn' : c'.nextCode = c.nextCode + 1)
    {k : Nat} (hk : k < c.nextCode) : c'.str k = c.str k := by
  let c1 : Ctx :=
    { c with dict := c.dict.write c.nextCode ⟨pre, b⟩, nextCode := c.nextCode + 1 }
  rw [Ctx.str_eq_of_same (c := c') (c' := c1) hd' hn']
  refine Ctx.str_congr _ _ (h.inserted hn hp b).descends h.descends k fun j hj => ?_
  rw [Ctx.dictRead_inserted c _ h.nextCodeLow j, if_neg (by omega)]

/-- The string of the inserted code (R175). -/
theorem CtxInv.str_new {p : Params} {c c' : Ctx} (h : CtxInv p c) (hn : c.nextCode < 2 ^ p.wmax)
    {pre : Nat} (hp : pre < c.nextCode) {b : Byte}
    (hd' : c'.dict = c.dict.write c.nextCode ⟨pre, b⟩) (hn' : c'.nextCode = c.nextCode + 1) :
    c'.str c.nextCode = (c.str pre).map (· ++ [b]) := by
  let c1 : Ctx :=
    { c with dict := c.dict.write c.nextCode ⟨pre, b⟩, nextCode := c.nextCode + 1 }
  rw [Ctx.str_eq_of_same (c := c') (c' := c1) hd' hn']
  have hr := Ctx.dictRead_inserted c ⟨pre, b⟩ h.nextCodeLow c.nextCode
  rw [if_pos rfl] at hr
  rw [Ctx.str_of_dictRead c1 (h.inserted hn hp b).descends hr,
    h.str_inserted (c' := c1) hn hp rfl rfl hp]

end Sys2Proof.Machine
end

