-- ==== Sys2Proof/Laws/PerInstr.lean ====
section
/-!
SUPPORT. Laws per command. Family `EncodeLegal`: the word of every command is legal, and its two fields say the
command's context and operation (spec/30_encoding.md R97, R98).
-/

open Sys2Proof

/-- The command is well-formed, its word is a legal one, bit 10 of the word is the context, bits 9:8 are the operation and
bit 11 is 0. -/
def Sys2Proof.Laws.EncodeLegal.Statement (i : Instr) : Prop :=
  i.wellFormed = true ∧ legalWord (encode i) = true ∧
  ((encode i).getLsbD 10 = true ↔ i.context = .dec) ∧
  ((encode i).extractLsb' 8 2 = 1 ↔ i.kind = .init) ∧
  ((encode i).extractLsb' 8 2 = 2 ↔ i.kind = .byte) ∧
  ((encode i).extractLsb' 8 2 = 3 ↔ i.kind = .finish) ∧
  (encode i).getLsbD 11 = false

theorem Sys2Proof.Laws.EncodeLegal.encInit : EncodeLegal.Statement .encInit := by
  unfold EncodeLegal.Statement
  decide

theorem Sys2Proof.Laws.EncodeLegal.encByte (c : Byte) : EncodeLegal.Statement (.encByte c) := by
  unfold EncodeLegal.Statement
  revert c
  decide +kernel

theorem Sys2Proof.Laws.EncodeLegal.encEnd : EncodeLegal.Statement .encEnd := by
  unfold EncodeLegal.Statement
  decide

theorem Sys2Proof.Laws.EncodeLegal.decInit : EncodeLegal.Statement .decInit := by
  unfold EncodeLegal.Statement
  decide

theorem Sys2Proof.Laws.EncodeLegal.decByte (b : Byte) : EncodeLegal.Statement (.decByte b) := by
  unfold EncodeLegal.Statement
  revert b
  decide +kernel

theorem Sys2Proof.Laws.EncodeLegal.decEnd : EncodeLegal.Statement .decEnd := by
  unfold EncodeLegal.Statement
  decide
end

