-- ==== Sys2Proof/Laws/Script.lean ====
section
/-!
SUPPORT. Code sequences and command sequences: the strings of a sequence, the widths of ordinals, the bits a written code
adds, and execution of a script in two parts.
-/

namespace Sys2Proof.Machine

open Sys2Proof

/-! ### The strings of a code sequence -/

theorem Ctx.strAll_congr {c c' : Ctx} (l : List Nat) (h : ∀ k ∈ l, c.str k = c'.str k) :
    c.strAll l = c'.strAll l := by
  induction l with
  | nil => rfl
  | cons k r ih => simp only [Ctx.strAll, h k (by simp), ih fun k hk => h k (by simp [hk])]

theorem Ctx.str_of_strAll {c : Ctx} {l : List Nat} {x : List Byte} (h : c.strAll l = some x) :
    ∀ k ∈ l, ∃ y, c.str k = some y := by
  induction l generalizing x with
  | nil => simp
  | cons k r ih =>
    simp only [Ctx.strAll] at h
    split at h
    · cases h
    · rename_i s hs
      split at h
      · cases h
      · rename_i t ht
        intro j hj
        rcases List.mem_cons.1 hj with rfl | hj
        · exact ⟨s, hs⟩
        · exact ih ht j hj

theorem Ctx.strAll_append {c : Ctx} {l m : List Nat} {x y : List Byte}
    (h : c.strAll l = some x) (h' : c.strAll m = some y) :
    c.strAll (l ++ m) = some (x ++ y) := by
  induction l generalizing x with
  | nil =>
    cases h
    exact h'
  | cons k r ih =>
    simp only [Ctx.strAll] at h
    split at h
    · cases h
    · rename_i s hs
      split at h
      · cases h
      · rename_i t ht
        cases h
        simp [Ctx.strAll, hs, ih ht]

/-- Only codes below `next_code` have a string (R173). -/
theorem CtxInv.lt_of_str {p : Params} {c : Ctx} (h : CtxInv p c) {k : Nat} {y : List Byte}
    (hy : c.str k = some y) : k < c.nextCode := by
  have hl : 256 ≤ c.nextCode := h.nextCodeLow
  by_contra hk
  rw [Ctx.str_of_dictRead_none c (by omega)
    (Ctx.dictRead_of_outside c (.inr (Nat.le_of_not_lt hk)))] at hy
  cases hy

/-! ### Ordinals -/

/-- The width at occupancy `256 + l` is the width of ordinal `l + 1` (R92). -/
theorem widthOf_eq_ordinalWidth {n l : Nat} (h : n = 256 + l) :
    widthOf n = ordinalWidth (l + 1) := by
  unfold widthOf ordinalWidth
  congr 1
  omega

theorem TraceOrdinals.snoc {t : List (Nat × Nat)} {v w : Nat} (h : TraceOrdinals t)
    (hw : w = ordinalWidth (t.length + 1)) (hv : v ≤ 254 + (t.length + 1)) :
    TraceOrdinals (t ++ [(v, w)]) := by
  intro j hj
  by_cases hlt : j < t.length
  · rw [List.getElem_append_left hlt]
    exact h j hlt
  · obtain rfl : j = t.length := by
      simp at hj
      omega
    simp [hw]
    omega

/-- The decoder's width is at least 9 (R44). -/
theorem DecInv.nine_le_width {p : Params} {d : Dec} (h : DecInv p d) : 9 ≤ d.width := by
  have hl : 256 ≤ d.nextCode := h.ctx.nextCodeLow
  have h9 : bitlen 257 = 9 := by decide
  rw [h.width, widthOf, ← h9]
  exact bitlen_mono (by omega)

/-! ### The bits a written code adds -/

/-- The whole bytes handed out, then the bits kept, are the pending bits, then the code (R191). -/
theorem streamBits_written (acc nacc v w : Nat) (hv : v < 2 ^ w) :
    streamBits (leadingBytes ((nacc + w) / 8) (acc * 2 ^ w + v) (nacc + w)) ++
      bitsMSB ((acc * 2 ^ w + v) % 2 ^ ((nacc + w) % 8)) ((nacc + w) % 8) =
    bitsMSB acc nacc ++ bitsMSB v w := by
  have h := streamBits_leadingBytes ((nacc + w) / 8) (acc * 2 ^ w + v) (nacc + w) (by omega)
  rw [show nacc + w - 8 * ((nacc + w) / 8) = (nacc + w) % 8 by omega] at h
  rw [bitsMSB_mod le_rfl, h, bitsMSB_mul_add _ _ _ _ hv]

/-! ### Scripts -/

/-- A script in two parts. -/
theorem execAll_append (l m : List Instr) (s : State) :
    execAll (l ++ m) s = outcomeThen (execAll l s) (execAll m) := by
  induction l generalizing s with
  | nil => rfl
  | cons i r ih =>
    simp only [List.cons_append, execAll]
    cases exec i s with
    | next t => exact ih t
    | fault r => rfl
    | refused r => rfl

end Sys2Proof.Machine
end

