-- ==== Sys2Proof/Tests/Slice0.lean ====
section
/-!
SUPPORT. Tests and witnesses. Every expected value comes from spec/95_test_vectors.md or from the encoding patterns of
spec/30_encoding.md; a `witness_` theorem shows that the hypotheses of the statement it is named after are met.
-/

namespace Sys2Proof.Tests

open Sys2Proof Sys2Proof.Machine

/-! ### Words -/

theorem test_decode_encInit : decode 0b000100000000 = .ok .encInit := by decide
theorem test_decode_encByte : decode 0b001001000001 = .ok (.encByte 0x41) := by decide
theorem test_decode_encByte_top : decode 0b001011111111 = .ok (.encByte 0xFF) := by decide
theorem test_decode_encEnd : decode 0b001100000000 = .ok .encEnd := by decide
theorem test_decode_decInit : decode 0b010100000000 = .ok .decInit := by decide
theorem test_decode_decByte : decode 0b011011000000 = .ok (.decByte 0xC0) := by decide
theorem test_decode_decByte_top : decode 0b011011111111 = .ok (.decByte 0xFF) := by decide
theorem test_decode_decEnd : decode 0b011100000000 = .ok .decEnd := by decide

/-- V28: the illegal words it lists, each refused by its class (R102). -/
theorem test_decode_illegal :
    [0x000, 0x0FF, 0x400, 0x4AA, 0x800, 0x8FF, 0xA41, 0xFFF].all
      (fun w => decode w == .error .illegalOp) = true ∧
    [0x101, 0x1FF, 0x301, 0x501, 0x7FF].all
      (fun w => decode w == .error .dataNotZero) = true := by decide

/-- The smoke test of the legality check: each row of R98's table selects its own word, and an ill-formed word beside each
row (data not 0, or a bit of `op` changed) is selected by none. -/
theorem test_wellFormed_smoke :
    [0x100, 0x241, 0x300, 0x500, 0x6C0, 0x700].all legalWord = true ∧
    [0x101, 0xA41, 0x301, 0x501, 0xEC0, 0x701, 0x000, 0x400].any legalWord = false ∧
    [Instr.encInit, .encByte 0xFF, .encEnd, .decInit, .decByte 0xFF, .decEnd].all
      Instr.wellFormed = true := by decide

/-- V28: the legal encodings it lists. -/
theorem test_wellFormed_legal :
    [0x100, 0x2FF, 0x200, 0x300, 0x500, 0x600, 0x6FF, 0x700].all legalWord = true := by decide

/-- The host's numbering: 12 bits, or 16 with the four above the word 0; a number that is no word is none. -/
theorem test_decodeTableWord :
    decodeTableWord 12 0x241 = some (.encByte 0x41) ∧ decodeTableWord 16 0x700 = some .decEnd ∧
    decodeTableWord 16 0x1241 = none ∧ decodeTableWord 12 0x800 = none := by decide

/-! ### States -/

/-- The state after a step that has one. -/
def nextState (o : Host.Outcome State Fault Refusal) : Option State :=
  match o with
  | .next s => some s
  | .fault _ => none
  | .refused _ => none

/-- The machine after reset with the given encoder context. -/
def withEnc (e : Enc) : State := { State.reset with enc := e }

/-- The machine after reset with the given decoder context. -/
def withDec (d : Dec) : State := { State.reset with dec := d }

/-- P1 after its first command. -/
def encStarted : Enc := { Enc.reset with st := .active }

/-- P1 after its second command: the match is `A`. -/
def encMatchA : Enc := { Enc.reset with st := .active, curValid := true, curCode := 65 }

/-- P3 after row 6: input `A B A`. -/
def encABA : Enc :=
  { Enc.reset with
    st := .active
    nextCode := 258
    dict := [(256, ⟨65, 0x42⟩), (257, ⟨66, 0x41⟩)]
    out := [0x20, 0x90]
    trace := [(65, 9), (66, 9)]
    acc := 2
    nacc := 2
    curValid := true
    curCode := 65 }

/-- A finished encode call: V3, input `A`. -/
def encDone : Enc :=
  { Enc.reset with st := .done, out := [0x20, 0x80], trace := [(65, 9)], curCode := 65 }

/-- An encoder that raised `ProtocolError` at its first command (V24). -/
def encFaulted : Enc :=
  { Enc.reset with st := .fault, fault := .protocolError, finfo := 0x241 }

/-- `n` entries: code 256 + i is the literal i followed by byte 0. -/
def chainDict (n : Nat) : Memory := (List.range' 256 n).map (fun k => (k, ⟨k - 256, 0⟩))

/-- V26 (b): with `WMAX = 9`, the dictionary memory is full. -/
def encFull : Enc :=
  { Enc.reset with
    st := .active
    nextCode := 512
    width := 10
    dict := chainDict 256
    curValid := true
    curCode := 255 }

/-- The machine of V26 and V27, with the given contexts. -/
def smallState (e : Enc) (d : Dec) : State :=
  { State.resetAt ⟨9⟩ with enc := e, dec := d }

/-- P2 after its first command. -/
def decStarted : Dec := { Dec.reset with st := .active }

/-- V22: one byte buffered. -/
def decByte1 (r : Nat) : Dec := { Dec.reset with st := .active, rbuf := r, nrbuf := 8 }

/-- P2 after its third command (code 65 processed), with any 7 buffered bits. -/
def decAfterA (r : Nat) : Dec :=
  { Dec.reset with
    st := .active
    havePrev := true
    prevCode := 65
    prevFirst := 0x41
    rbuf := r
    nrbuf := 7
    out := [0x41]
    trace := [(65, 9)] }

/-- P3 after row 10: codes 65, 66 processed. -/
def decAfterAB : Dec :=
  { Dec.reset with
    st := .active
    nextCode := 257
    dict := [(256, ⟨65, 0x42⟩)]
    havePrev := true
    prevCode := 66
    prevFirst := 0x42
    rbuf := 32
    nrbuf := 6
    out := [0x41, 0x42]
    trace := [(65, 9), (66, 9)] }

/-- A finished decode call: V3, stream `20 80`. -/
def decDone : Dec := { decAfterA 0 with st := .done }

/-- A decoder that raised `ProtocolError` at its first command (V24). -/
def decFaulted : Dec :=
  { Dec.reset with st := .fault, fault := .protocolError, finfo := 0x6AA }

/-- V27 (b) before its last byte: with `WMAX = 9`, at width 10, with 8 bits buffered. -/
def decFull : Dec :=
  { Dec.reset with
    st := .active
    nextCode := 511
    width := 10
    dict := chainDict 255
    havePrev := true
    prevCode := 255
    prevFirst := 0xFF
    rbuf := 0x3F
    nrbuf := 8 }

/-! ### One step of each command -/

/-- R121's example. -/
theorem test_encInit : (nextState (exec .encInit (withEnc encDone))).map
    (fun s => (s.enc.st, s.enc.nextCode, s.enc.width, s.enc.curValid, s.enc.out)) =
      some (.active, 256, 9, false, []) := by decide

/-- V24: `ENC_INIT` in `ACTIVE`. -/
theorem test_encInit_active : (nextState (exec .encInit (withEnc encStarted))).map
    (fun s => (s.enc.st, s.enc.fault, s.enc.finfo, s.dec.st)) =
      some (.fault, .protocolError, 0x100, .idle) := by decide +kernel

/-- R122's example, V1's third row. -/
theorem test_encByte_miss : (nextState (exec (.encByte 0x41) (withEnc encMatchA))).map
    (fun s => s.enc) =
      some { encMatchA with
        out := [0x20], acc := 1, nacc := 1, dict := [(256, ⟨65, 0x41⟩)], nextCode := 257
        trace := [(65, 9)] } := by decide

/-- P3 row 8. -/
theorem test_encByte_hit : (nextState (exec (.encByte 0x42) (withEnc encABA))).map
    (fun s => (s.enc.curCode, s.enc.nextCode, s.enc.out)) =
      some (256, 258, [0x20, 0x90]) := by decide

/-- R127's example. -/
theorem test_encEnd : (nextState (exec .encEnd (withEnc encMatchA))).map
    (fun s => (s.enc.out, s.enc.trace, s.enc.st, s.enc.nextCode, s.enc.curValid)) =
      some ([0x20, 0x80], [(65, 9)], .done, 256, false) := by decide

/-- V26 (c). -/
theorem test_encEnd_overflow : (nextState (exec .encEnd (smallState encFull Dec.reset))).map
    (fun s => (s.enc.st, s.enc.fault, s.enc.finfo, s.enc.curValid, s.enc.curCode)) =
      some (.fault, .widthOverflow, 512, true, 255) := by decide +kernel

/-- R141's example. -/
theorem test_decInit : (nextState (exec .decInit (withDec decDone))).map
    (fun s => (s.dec.st, s.dec.nextCode, s.dec.havePrev, s.dec.nrbuf, s.dec.out)) =
      some (.active, 256, false, 0, []) := by decide

/-- V24: `DEC_INIT` in `ACTIVE` keeps the buffered byte. -/
theorem test_decInit_active : (nextState (exec .decInit (withDec (decByte1 0x20)))).map
    (fun s => (s.dec.st, s.dec.fault, s.dec.finfo, s.dec.rbuf, s.dec.nrbuf)) =
      some (.fault, .protocolError, 0x500, 0x20, 8) := by decide +kernel

/-- P3 row 14: a dictionary code. -/
theorem test_decByte_ref : (nextState (exec (.decByte 0x10) (withDec decAfterAB))).map
    (fun s => s.dec) =
      some { decAfterAB with
        out := [0x41, 0x42, 0x41, 0x42], dict := [(256, ⟨65, 0x42⟩), (257, ⟨66, 0x41⟩)]
        nextCode := 258, prevCode := 256, prevFirst := 0x41, rbuf := 16, nrbuf := 5
        trace := [(65, 9), (66, 9), (256, 9)] } := by decide

/-- V1's second table, fourth row: the not-yet-defined code. -/
theorem test_decByte_kwk : (nextState (exec (.decByte 0x08) (withDec (decAfterA 64)))).map
    (fun s => s.dec) =
      some { decAfterA 8 with
        out := [0x41, 0x41, 0x41], dict := [(256, ⟨65, 0x41⟩)], nextCode := 257
        prevCode := 256, nrbuf := 6, trace := [(65, 9), (256, 9)] } := by decide

/-- R151: the buffered bits stay. -/
theorem test_decEnd : (nextState (exec .decEnd (withDec (decAfterA 64)))).map
    (fun s => (s.dec.st, s.dec.out, s.dec.rbuf, s.dec.nrbuf)) =
      some (.done, [0x41], 64, 7) := by decide

/-- V24: `DEC_END` from reset. -/
theorem test_decEnd_idle : (nextState (exec .decEnd State.reset)).map
    (fun s => (s.dec.st, s.dec.fault, s.dec.finfo)) =
      some (.fault, .protocolError, 0x700) := by decide +kernel

/-- A word placed by the host runs as the first step after reset. -/
theorem test_first_step : (nextState (step (State.reset.withFetchWord 12 0x500))).map
    (fun s => (s.dec.st, s.enc.st, s.port)) = some (.active, .idle, []) := by decide

/-- V28, V29: an illegal word in any state; a command to a context in `FAULT`. -/
theorem test_illegal_then_ignored :
    (nextState (step ((withEnc encFaulted).withFetchWord 12 0x8FF))).map
      (fun s => (s.cmdFault, s.enc)) = some (true, encFaulted) ∧
    (nextState (step ((withEnc encFaulted).withFetchWord 12 0x100))).map
      (fun s => (s.cmdFault, s.enc)) = some (false, encFaulted) := by decide

/-! ### The bit channel and the width policy -/

/-- V21, rows 1 and 2, and its last row's final write. -/
theorem test_writeBits :
    (((Enc.reset.writeBits 0x1FF 9).writeBits 0 9).flush).out = [0xFF, 0x80, 0x00] ∧
    ((Enc.reset.writeBits 0x155 9).flush).out = [0xAA, 0x80] ∧
    (Enc.writeBits 0x1ABCD 17 { Enc.reset with acc := 0x7F, nacc := 7 }).out =
      [0xFF, 0xAB, 0xCD] := by decide

/-- V22. -/
theorem test_extractCode :
    (Dec.extractCode 9 { Dec.reset with rbuf := 0x20C0, nrbuf := 16 }).1 = 65 ∧
    (Dec.extractCode 9 { Dec.reset with rbuf := 0x20C0, nrbuf := 16 }).2.rbuf = 0b1000000 := by
  decide

/-- V15. -/
theorem test_widthOf :
    [256, 257, 511, 512, 1023, 1024, 4095, 4096, 65535, 65536].map widthOf =
      [9, 9, 9, 10, 10, 11, 12, 13, 16, 17] := by decide

/-- V15: `Grow` in the decoder is one insertion ahead. -/
theorem test_grow :
    (Ctx.grow 511 Ctx.reset).width = 9 ∧ (Ctx.grow 512 Ctx.reset).width = 10 ∧
    (Ctx.grow 512 { Ctx.reset with width := 10 }).width = 10 := by decide

/-! ### The states above meet the invariants -/

theorem encInv_reset : EncInv Config.defaultParams Enc.reset :=
  ⟨by constructor <;> decide, by decide, by decide, by decide, by decide, by decide, by decide,
    by decide⟩

theorem encInv_started : EncInv Config.defaultParams encStarted :=
  ⟨by constructor <;> decide, by decide, by decide, by decide, by decide, by decide, by decide,
    by decide⟩

theorem encInv_matchA : EncInv Config.defaultParams encMatchA :=
  ⟨by constructor <;> decide, by decide, by decide, by decide, by decide, by decide, by decide,
    by decide⟩

theorem encInv_ABA : EncInv Config.defaultParams encABA :=
  ⟨by constructor <;> decide, by decide, by decide, by decide, by decide, by decide, by decide,
    by decide⟩

theorem encInv_done : EncInv Config.defaultParams encDone :=
  ⟨by constructor <;> decide, by decide, by decide, by decide, by decide, by decide, by decide,
    by decide⟩

theorem encInv_full : EncInv ⟨9⟩ encFull :=
  ⟨by constructor <;> decide +kernel, by decide, by decide, by decide, by decide,
    by decide +kernel, by decide, by decide⟩

theorem decInv_reset : DecInv Config.defaultParams Dec.reset :=
  ⟨by constructor <;> decide, by decide, by decide, by decide, (fun h => by cases h), by decide,
    by decide, by decide⟩

theorem decInv_started : DecInv Config.defaultParams decStarted :=
  ⟨by constructor <;> decide, by decide, by decide, by decide, (fun h => by cases h), by decide,
    by decide, by decide⟩

theorem decInv_byte1_zero : DecInv Config.defaultParams (decByte1 0) :=
  ⟨by constructor <;> decide, by decide, by decide, by decide, (fun h => by cases h), by decide,
    by decide, by decide⟩

theorem decInv_byte1 {r : Nat} (h : r < 256) : DecInv Config.defaultParams (decByte1 r) :=
  { decInv_byte1_zero with rbufFits := h }

theorem decInv_afterA_zero : DecInv Config.defaultParams (decAfterA 0) :=
  ⟨by constructor <;> decide, by decide, by decide, by decide, (fun _ => ⟨[], by decide⟩),
    by decide, by decide, by decide⟩

theorem decInv_afterA {r : Nat} (h : r < 128) : DecInv Config.defaultParams (decAfterA r) :=
  { decInv_afterA_zero with rbufFits := h }

theorem decInv_afterAB : DecInv Config.defaultParams decAfterAB :=
  ⟨by constructor <;> decide, by decide, by decide, by decide, (fun _ => ⟨[], by decide⟩),
    by decide, by decide, by decide⟩

theorem decInv_full : DecInv ⟨9⟩ decFull :=
  ⟨by constructor <;> decide +kernel, by decide, by decide, by decide,
    (fun _ => ⟨[], by decide +kernel⟩), by decide, by decide, by decide⟩

theorem wf_default : Config.defaultParams.wf := by decide

theorem inv_reset : State.reset.Inv := ⟨wf_default, encInv_reset, decInv_reset⟩

theorem inv_withEnc {e : Enc} (h : EncInv Config.defaultParams e) : (withEnc e).Inv :=
  ⟨wf_default, h, decInv_reset⟩

theorem inv_withDec {d : Dec} (h : DecInv Config.defaultParams d) : (withDec d).Inv :=
  ⟨wf_default, encInv_reset, h⟩

theorem inv_small : (smallState encFull decFull).Inv := ⟨by decide, encInv_full, decInv_full⟩

theorem ordinals_ABA : TraceOrdinals [(65, 9), (66, 9)]
  | 0, _ => ⟨(by decide : 9 = ordinalWidth 1), (by decide : 65 ≤ 255)⟩
  | 1, _ => ⟨(by decide : 9 = ordinalWidth 2), (by decide : 66 ≤ 256)⟩
  | _ + 2, h => absurd h (by simp)

theorem ordinals_A : TraceOrdinals [(65, 9)]
  | 0, _ => ⟨(by decide : 9 = ordinalWidth 1), (by decide : 65 ≤ 255)⟩
  | _ + 1, h => absurd h (by simp)

theorem encStream_ABA : EncStream encABA :=
  ⟨by decide, ordinals_ABA, by decide, by decide, by decide, by decide⟩

theorem encStream_done : EncStream encDone :=
  ⟨by decide, ordinals_A, by decide, by decide, by decide, by decide⟩

theorem decStream_reset : DecStream Dec.reset :=
  ⟨fun _ h => absurd h (by simp [Dec.reset, Ctx.reset]), by decide, by decide⟩

theorem decStream_byte1 (r : Nat) : DecStream (decByte1 r) :=
  ⟨fun _ h => absurd h (by simp [decByte1, Dec.reset, Ctx.reset]), (fun h => by cases h), rfl⟩

theorem decStream_afterAB : DecStream decAfterAB := ⟨ordinals_ABA, by decide, by decide⟩

theorem encStream_reset : EncStream Enc.reset :=
  ⟨by decide, (fun _ h => absurd h (by simp [Enc.reset, Ctx.reset])), by decide, by decide,
    by decide, by decide⟩

theorem streamInv_ABA : (withEnc encABA).StreamInv := ⟨encStream_ABA, decStream_reset⟩

/-! ### Witnesses for the hypotheses of the statements -/

theorem witness_IllegalWordsAreRejected : legalWord 0x101 = false ∧ legalWord 0x800 = false := by
  decide

theorem witness_StepRunsDecodedCommand :
    (State.reset.withFetchWord 12 0x241).port = .command 0x241 :: [] ∧
    decode 0x241 = .ok (.encByte 0x41) := by decide

theorem witness_IllegalWordSetsCmdFault :
    (State.reset.withFetchWord 12 0x8FF).port = .command 0x8FF :: [] ∧
    legalWord 0x8FF = false ∧ ∃ t, exec .encInit State.reset = .next t := ⟨rfl, rfl, _, rfl⟩

theorem witness_WaitingChangesNothing : State.reset.port = [] := rfl

theorem witness_ResetInputSetsTable :
    ({ withEnc encFaulted with port := [.reset, .command 0x100] } : State).port =
      .reset :: [.command 0x100] := rfl

theorem witness_StatusOutputsShowRegisters :
    State.reset.Inv ∧ State.reset.params.wmax ≤ 30 ∧
    ((smallState encFull decFull).Inv ∧ (smallState encFull decFull).enc.nextCode = 2 ^ 9) :=
  ⟨inv_reset, by decide, inv_small, rfl⟩

theorem witness_EncInitMeaning :
    State.reset.enc.toCtx.ready ∧ (withEnc encDone).enc.toCtx.ready ∧
    (∃ t, exec .encInit (withEnc encDone) = .next t) ∧
    (withEnc encStarted).enc.st = .active ∧ (withEnc encFaulted).enc.st = .fault :=
  ⟨by decide, by decide, ⟨_, rfl⟩, rfl, rfl⟩

/-- Each branch of `ENC_BYTE`: empty match, hit, miss with room, miss with a full dictionary at width `WMAX + 1`. -/
theorem witness_EncByteMeaning :
    (withEnc encFaulted).enc.st = .fault ∧ State.reset.enc.toCtx.ready ∧
    ((withEnc encStarted).Inv ∧ (withEnc encStarted).enc.st = .active ∧
      (withEnc encStarted).enc.curValid = false) ∧
    ((withEnc encABA).Inv ∧ (withEnc encABA).enc.curValid = true ∧
      (withEnc encABA).enc.toCtx.dictRead 256 = some ⟨(withEnc encABA).enc.curCode, 0x42⟩) ∧
    ((withEnc encMatchA).Inv ∧ (withEnc encMatchA).enc.width ≤ 16 ∧
      ∀ k, (withEnc encMatchA).enc.toCtx.dictRead k ≠
        some ⟨(withEnc encMatchA).enc.curCode, 0x41⟩) ∧
    ((smallState encFull decFull).Inv ∧
      (smallState encFull decFull).params.wmax < (smallState encFull decFull).enc.width) := by
  refine ⟨rfl, by decide, ⟨inv_withEnc encInv_started, rfl, rfl⟩,
    ⟨inv_withEnc encInv_ABA, rfl, by decide⟩, ⟨inv_withEnc encInv_matchA, by decide, fun k => ?_⟩,
    ⟨inv_small, by decide⟩⟩
  rw [Ctx.dictRead_of_outside _ (lt_or_ge k 256)]
  simp

/-- The miss at `WMAX + 1`: no entry of the full dictionary is the pair of V26 (b). -/
theorem witness_EncByteMeaning_full :
    (smallState encFull decFull).enc.st = .active ∧
    (smallState encFull decFull).enc.curValid = true ∧
    ∀ k, (smallState encFull decFull).enc.toCtx.dictRead k ≠
      some ⟨(smallState encFull decFull).enc.curCode, 7⟩ := by
  refine ⟨rfl, rfl, fun k => ?_⟩
  by_cases h : k < 512
  · revert k
    decide +kernel
  · rw [Ctx.dictRead_of_outside _ (.inr (Nat.le_of_not_lt h))]
    simp

theorem witness_EncEndMeaning :
    (withEnc encFaulted).enc.st = .fault ∧ State.reset.enc.toCtx.ready ∧
    ((withEnc encStarted).Inv ∧ (withEnc encStarted).enc.st = .active ∧
      (withEnc encStarted).enc.curValid = false) ∧
    ((withEnc encABA).Inv ∧ (withEnc encABA).enc.curValid = true ∧
      (withEnc encABA).enc.width ≤ (withEnc encABA).params.wmax) ∧
    ((smallState encFull decFull).Inv ∧ (smallState encFull decFull).enc.curValid = true ∧
      (smallState encFull decFull).params.wmax < (smallState encFull decFull).enc.width) :=
  ⟨rfl, by decide, ⟨inv_withEnc encInv_started, rfl, rfl⟩,
    ⟨inv_withEnc encInv_ABA, rfl, by decide⟩, ⟨inv_small, rfl, by decide⟩⟩

theorem witness_InsertedEntryIsFoundNext :
    (withEnc encMatchA).Inv ∧ (withEnc encMatchA).enc.st = .active ∧
    (withEnc encMatchA).enc.curValid = true ∧
    (∀ k, (withEnc encMatchA).enc.toCtx.dictRead k ≠
      some ⟨(withEnc encMatchA).enc.curCode, 0x41⟩) ∧
    (withEnc encMatchA).enc.width ≤ (withEnc encMatchA).params.wmax ∧
    ∃ t, exec (.encByte 0x41) (withEnc encMatchA) = .next t := by
  refine ⟨inv_withEnc encInv_matchA, rfl, rfl, fun k => ?_, by decide, _, rfl⟩
  rw [Ctx.dictRead_of_outside _ (lt_or_ge k 256)]
  simp

theorem witness_EmittedCodeFitsWidth :
    EncInv Config.defaultParams encABA ∧ encABA.curValid = true := ⟨encInv_ABA, rfl⟩

theorem witness_WidthAboveLimitMeansFull :
    Config.defaultParams.wf ∧ EncInv Config.defaultParams encABA ∧
    DecInv Config.defaultParams decAfterAB ∧ EncInv ⟨9⟩ encFull ∧ DecInv ⟨9⟩ decFull :=
  ⟨wf_default, encInv_ABA, decInv_afterAB, encInv_full, decInv_full⟩

theorem witness_EncoderSpellsItsInput :
    (withEnc encABA).Inv ∧ (withEnc encABA).StreamInv ∧ (withEnc encABA).enc.st = .active ∧
    (∃ t, exec (.encByte 0x42) (withEnc encABA) = .next t ∧ t.enc.st = .active) ∧
    (∃ t, exec (.encByte 0x43) (withEnc encABA) = .next t ∧ t.enc.st = .active) ∧
    (∃ t, exec .encEnd (withEnc encABA) = .next t ∧ t.enc.st = .done) :=
  ⟨inv_withEnc encInv_ABA, streamInv_ABA, rfl, ⟨_, rfl, rfl⟩, ⟨_, rfl, rfl⟩, ⟨_, rfl, rfl⟩⟩

theorem witness_EncodeCallProperties :
    State.reset.Inv ∧ State.reset.enc.toCtx.ready ∧
    (∃ t, execAll (encodeScript []) State.reset = .next t ∧ t.enc.toCtx.succeeded) ∧
    (∃ t, execAll (encodeScript [0x41, 0x41]) State.reset = .next t ∧ t.enc.toCtx.succeeded) :=
  ⟨inv_reset, by decide, ⟨_, rfl, rfl⟩, ⟨_, rfl, rfl⟩⟩

theorem witness_PackedStreamIsCodesThenPad :
    (withEnc encDone).Inv ∧ (withEnc encDone).enc.toCtx.ready ∧
    (∃ t, execAll (encodeScript []) (withEnc encDone) = .next t ∧ t.enc.toCtx.succeeded ∧
      t.enc.trace = []) ∧
    (∃ t, execAll (encodeScript [0xFF]) (withEnc encDone) = .next t ∧ t.enc.toCtx.succeeded) :=
  ⟨inv_withEnc encInv_done, by decide, ⟨_, rfl, rfl, rfl⟩, ⟨_, rfl, rfl⟩⟩

theorem witness_DecInitMeaning :
    State.reset.dec.toCtx.ready ∧ (withDec decDone).dec.toCtx.ready ∧
    (∃ t, exec .decInit (withDec decDone) = .next t) ∧
    (withDec decStarted).dec.st = .active ∧ (withDec decFaulted).dec.st = .fault :=
  ⟨by decide, by decide, ⟨_, rfl⟩, rfl, rfl⟩

/-- No code complete: the first byte of a call; a code complete at width `WMAX + 1`: V27 (b). -/
theorem witness_DecByteWithoutCode :
    (withDec decFaulted).dec.st = .fault ∧ State.reset.dec.toCtx.ready ∧
    ((withDec decStarted).dec.st = .active ∧
      (withDec decStarted).dec.nrbuf + 8 < (withDec decStarted).dec.width) ∧
    ((smallState encFull decFull).dec.st = .active ∧
      (smallState encFull decFull).dec.width ≤ (smallState encFull decFull).dec.nrbuf + 8 ∧
      (smallState encFull decFull).params.wmax < (smallState encFull decFull).dec.width) := by
  decide +kernel

/-- The first code: 0 and 255, the ends of its range. -/
theorem witness_DecByteFirstCode :
    ((withDec (decByte1 0)).Inv ∧ (withDec (decByte1 0)).dec.st = .active ∧
      (withDec (decByte1 0)).dec.havePrev = false ∧
      0 = ((withDec (decByte1 0)).dec.rbuf * 256 + (0 : Byte).toNat) /
        2 ^ ((withDec (decByte1 0)).dec.nrbuf + 8 - (withDec (decByte1 0)).dec.width)) ∧
    ((withDec (decByte1 0x7F)).Inv ∧ (withDec (decByte1 0x7F)).dec.st = .active ∧
      (withDec (decByte1 0x7F)).dec.width ≤ (withDec (decByte1 0x7F)).dec.nrbuf + 8 ∧
      (withDec (decByte1 0x7F)).dec.width ≤ (withDec (decByte1 0x7F)).params.wmax ∧
      (withDec (decByte1 0x7F)).dec.havePrev = false ∧
      255 = ((withDec (decByte1 0x7F)).dec.rbuf * 256 + (0x80 : Byte).toNat) /
        2 ^ ((withDec (decByte1 0x7F)).dec.nrbuf + 8 - (withDec (decByte1 0x7F)).dec.width)) :=
  ⟨⟨inv_withDec (decInv_byte1 (by decide)), rfl, rfl, rfl⟩,
    inv_withDec (decInv_byte1 (by decide)), rfl, by decide, by decide, rfl, rfl⟩

/-- A present code: the last literal, and the last code before `next_code`. -/
theorem witness_DecBytePresentCode :
    ((withDec (decAfterA 63)).Inv ∧ (withDec (decAfterA 63)).dec.st = .active ∧
      (withDec (decAfterA 63)).dec.havePrev = true ∧
      255 = ((withDec (decAfterA 63)).dec.rbuf * 256 + (0xC0 : Byte).toNat) /
        2 ^ ((withDec (decAfterA 63)).dec.nrbuf + 8 - (withDec (decAfterA 63)).dec.width) ∧
      255 < (withDec (decAfterA 63)).dec.nextCode) ∧
    ((withDec decAfterAB).Inv ∧ (withDec decAfterAB).dec.st = .active ∧
      (withDec decAfterAB).dec.width ≤ (withDec decAfterAB).dec.nrbuf + 8 ∧
      (withDec decAfterAB).dec.width ≤ (withDec decAfterAB).params.wmax ∧
      256 = ((withDec decAfterAB).dec.rbuf * 256 + (0x10 : Byte).toNat) /
        2 ^ ((withDec decAfterAB).dec.nrbuf + 8 - (withDec decAfterAB).dec.width) ∧
      256 < (withDec decAfterAB).dec.nextCode) :=
  ⟨⟨inv_withDec (decInv_afterA (by decide)), rfl, rfl, rfl, by decide⟩,
    inv_withDec decInv_afterAB, rfl, by decide, by decide, rfl, by decide⟩

/-- The not-yet-defined code, as in V1. -/
theorem witness_DecByteNotYetDefinedCode :
    (withDec (decAfterA 64)).Inv ∧ (withDec (decAfterA 64)).dec.st = .active ∧
    (withDec (decAfterA 64)).dec.width ≤ (withDec (decAfterA 64)).dec.nrbuf + 8 ∧
    (withDec (decAfterA 64)).dec.width ≤ (withDec (decAfterA 64)).params.wmax ∧
    (withDec (decAfterA 64)).dec.nextCode =
      ((withDec (decAfterA 64)).dec.rbuf * 256 + (0x08 : Byte).toNat) /
        2 ^ ((withDec (decAfterA 64)).dec.nrbuf + 8 - (withDec (decAfterA 64)).dec.width) ∧
    (withDec (decAfterA 64)).dec.havePrev = true :=
  ⟨inv_withDec (decInv_afterA (by decide)), rfl, by decide, by decide, rfl, rfl⟩

/-- Corrupt codes: `next_code + 1` after a code, and 256 as the first code (V25). -/
theorem witness_DecByteCorruptCode :
    ((withDec (decAfterA 64)).Inv ∧ (withDec (decAfterA 64)).dec.st = .active ∧
      257 = ((withDec (decAfterA 64)).dec.rbuf * 256 + (0x40 : Byte).toNat) /
        2 ^ ((withDec (decAfterA 64)).dec.nrbuf + 8 - (withDec (decAfterA 64)).dec.width) ∧
      (withDec (decAfterA 64)).dec.nextCode < 257) ∧
    ((withDec (decByte1 0x80)).Inv ∧ (withDec (decByte1 0x80)).dec.st = .active ∧
      (withDec (decByte1 0x80)).dec.width ≤ (withDec (decByte1 0x80)).dec.nrbuf + 8 ∧
      (withDec (decByte1 0x80)).dec.width ≤ (withDec (decByte1 0x80)).params.wmax ∧
      256 = ((withDec (decByte1 0x80)).dec.rbuf * 256 + (0 : Byte).toNat) /
        2 ^ ((withDec (decByte1 0x80)).dec.nrbuf + 8 - (withDec (decByte1 0x80)).dec.width) ∧
      (withDec (decByte1 0x80)).dec.havePrev = false) :=
  ⟨⟨inv_withDec (decInv_afterA (by decide)), rfl, rfl, by decide⟩,
    inv_withDec (decInv_byte1 (by decide)), rfl, by decide, by decide, rfl, rfl⟩

theorem witness_AtMostOneCodePerByte :
    ((withDec decStarted).Inv ∧ (withDec decStarted).dec.st = .active ∧
      (withDec decStarted).dec.nrbuf + 8 < (withDec decStarted).dec.width ∧
      ∃ t, exec (.decByte 0x20) (withDec decStarted) = .next t ∧ t.dec.st = .active) ∧
    ((withDec decAfterAB).Inv ∧ (withDec decAfterAB).dec.st = .active ∧
      (withDec decAfterAB).dec.width ≤ (withDec decAfterAB).dec.nrbuf + 8 ∧
      ∃ t, exec (.decByte 0x10) (withDec decAfterAB) = .next t ∧ t.dec.st = .active) :=
  ⟨⟨inv_withDec decInv_started, rfl, by decide, _, rfl, rfl⟩,
    inv_withDec decInv_afterAB, rfl, by decide, _, rfl, rfl⟩

theorem witness_DecEndMeaning :
    (withDec decAfterAB).dec.st = .active ∧ (withDec decDone).dec.toCtx.ready ∧
    State.reset.dec.toCtx.ready ∧ (withDec decFaulted).dec.st = .fault := by decide

/-- Every class, at the ends of its range. -/
theorem witness_CodeClassesAndStrings :
    DecInv Config.defaultParams decAfterAB ∧ DecInv Config.defaultParams decStarted ∧
    decAfterAB.codeClass 0 = .lit ∧ decAfterAB.codeClass 255 = .lit ∧
    decAfterAB.codeClass 256 = .ref ∧ decAfterAB.codeClass 257 = .kwk ∧
    decAfterAB.codeClass 258 = .bad ∧ decStarted.codeClass 255 = .lit ∧
    decStarted.codeClass 256 = .bad ∧ decStarted.havePrev = false :=
  ⟨decInv_afterAB, decInv_started, by decide⟩

/-- Ordinal 3 at its last accepted value, 257, and at the first refused one; ordinal 1 at 255 and at 256. -/
theorem witness_DecoderAcceptsOrdinalRange :
    ((withDec decAfterAB).Inv ∧ (withDec decAfterAB).StreamInv ∧
      (withDec decAfterAB).dec.st = .active ∧
      (withDec decAfterAB).dec.width ≤ (withDec decAfterAB).dec.nrbuf + 8 ∧
      257 = ((withDec decAfterAB).dec.rbuf * 256 + (0x20 : Byte).toNat) /
        2 ^ ((withDec decAfterAB).dec.nrbuf + 8 - (withDec decAfterAB).dec.width) ∧
      258 = ((withDec decAfterAB).dec.rbuf * 256 + (0x40 : Byte).toNat) /
        2 ^ ((withDec decAfterAB).dec.nrbuf + 8 - (withDec decAfterAB).dec.width) ∧
      254 + ((withDec decAfterAB).dec.trace.length + 1) = 257) ∧
    ((withDec (decByte1 0x7F)).Inv ∧ (withDec (decByte1 0x7F)).StreamInv ∧
      (withDec (decByte1 0x7F)).dec.st = .active ∧
      (withDec (decByte1 0x7F)).dec.trace = [] ∧
      255 = ((withDec (decByte1 0x7F)).dec.rbuf * 256 + (0x80 : Byte).toNat) /
        2 ^ ((withDec (decByte1 0x7F)).dec.nrbuf + 8 - (withDec (decByte1 0x7F)).dec.width)) ∧
    ((withDec (decByte1 0x80)).Inv ∧ (withDec (decByte1 0x80)).StreamInv ∧
      256 = ((withDec (decByte1 0x80)).dec.rbuf * 256 + (0 : Byte).toNat) /
        2 ^ ((withDec (decByte1 0x80)).dec.nrbuf + 8 - (withDec (decByte1 0x80)).dec.width)) :=
  ⟨⟨inv_withDec decInv_afterAB, ⟨encStream_reset, decStream_afterAB⟩, rfl, by decide, rfl, rfl, rfl⟩,
    ⟨inv_withDec (decInv_byte1 (by decide)), ⟨encStream_reset, decStream_byte1 _⟩, rfl, rfl, rfl⟩,
    inv_withDec (decInv_byte1 (by decide)), ⟨encStream_reset, decStream_byte1 _⟩, rfl⟩

theorem witness_DecodeRestoresEncodedInput :
    State.reset.Inv ∧ State.reset.enc.toCtx.ready ∧ State.reset.dec.toCtx.ready ∧
    (∃ t, execAll (encodeScript []) State.reset = .next t ∧ t.enc.toCtx.succeeded) ∧
    (∃ t, execAll (encodeScript [0x41, 0x41, 0x41]) State.reset = .next t ∧
      t.enc.toCtx.succeeded) :=
  ⟨inv_reset, by decide, by decide, ⟨_, rfl, rfl⟩, ⟨_, rfl, rfl⟩⟩

theorem witness_WidthOfSteps :
    9 ≤ 9 ∧ 256 ≤ 511 ∧ widthOf 511 = 9 ∧ 9 ≤ 10 ∧ 256 ≤ 512 ∧ widthOf 512 = 10 := by decide

theorem witness_OrdinalWidthTable :
    ordinalWidth 1 = 9 ∧ ordinalWidth 256 = 9 ∧ ordinalWidth 257 = 10 ∧ 9 ≤ 10 ∧ 1 ≤ 257 := by
  decide

theorem witness_GrowKeepsWidthOf :
    Ctx.reset.width = widthOf 510 ∧ Ctx.reset.width = widthOf 511 := by decide

theorem witness_LookupFindsThePair :
    EncInv Config.defaultParams encABA ∧ encABA.toCtx.lookup 65 0x42 = some 256 ∧
    encABA.toCtx.lookup 65 0x43 = none ∧ 65 < encABA.nextCode ∧ 257 < encABA.nextCode :=
  ⟨encInv_ABA, by decide⟩

theorem witness_StrOfEveryCode :
    CtxInv Config.defaultParams encABA.toCtx ∧ 256 ≤ 257 ∧ 257 < encABA.nextCode ∧
    encABA.nextCode ≤ 258 := ⟨encInv_ABA.ctx, by decide⟩

theorem witness_DictionaryIsPrefixClosed :
    CtxInv Config.defaultParams encABA.toCtx ∧ 257 < encABA.nextCode ∧
    encABA.toCtx.str 257 = some [0x42, 0x41] ∧ [0x42] <+: [0x42, 0x41] ∧
    ([0x42] : List Byte) ≠ [] :=
  ⟨encInv_ABA.ctx, by decide, by decide, ⟨[0x41], rfl⟩, by decide⟩

theorem witness_EncoderStringsAreDistinct :
    EncInv Config.defaultParams encABA ∧ 257 < encABA.nextCode ∧
    encABA.toCtx.str 257 = encABA.toCtx.str 257 := ⟨encInv_ABA, by decide, rfl⟩

theorem witness_EntriesArePermanent :
    (∃ t, exec (.encByte 0x43) (withEnc encABA) = .next t) ∧ Instr.encByte 0x43 ≠ .encInit ∧
    257 < (withEnc encABA).enc.nextCode ∧
    (∃ t, exec (.decByte 0x10) (withDec decAfterAB) = .next t) ∧
    Instr.decByte 0x10 ≠ .decInit ∧ 256 < (withDec decAfterAB).dec.nextCode :=
  ⟨⟨_, rfl⟩, by decide, by decide, ⟨_, rfl⟩, by decide, by decide⟩

theorem witness_WriteBitsAppendsCode :
    (Enc.reset.nacc < 8 ∧ Enc.reset.acc < 2 ^ Enc.reset.nacc) ∧
    ({ Enc.reset with acc := 127, nacc := 7 } : Enc).nacc < 8 ∧
    ({ Enc.reset with acc := 127, nacc := 7 } : Enc).acc < 2 ^ 7 := by decide

theorem witness_FlushPadsWithZeros :
    (Enc.reset.acc < 2 ^ Enc.reset.nacc ∧ Enc.reset.nacc = 0) ∧
    encABA.acc < 2 ^ encABA.nacc ∧ 0 < encABA.nacc ∧ encABA.nacc < 8 := by decide

theorem witness_ReaderKeepsBitOrder :
    (Dec.reset.rbuf < 2 ^ Dec.reset.nrbuf ∧ 0 ≤ Dec.reset.nrbuf) ∧
    (decByte1 0x80).rbuf < 2 ^ (decByte1 0x80).nrbuf ∧ 8 ≤ (decByte1 0x80).nrbuf := by decide

theorem witness_WriterAlignment :
    (EncInv Config.defaultParams encABA ∧ EncStream encABA ∧ encABA.st = .active) ∧
    EncInv Config.defaultParams encDone ∧ EncStream encDone ∧ encDone.st = .done :=
  ⟨⟨encInv_ABA, encStream_ABA, rfl⟩, encInv_done, encStream_done, rfl⟩

theorem witness_LegalityTable :
    (∃ t, exec .encInit State.reset = .next t) ∧ State.reset.enc.toCtx.ready ∧
    (∃ t, exec .encEnd State.reset = .next t) ∧ (∃ t, exec .encInit (withEnc encABA) = .next t) ∧
    (∃ t, exec (.encByte 0x42) (withEnc encABA) = .next t) ∧
    (∃ t, exec .encEnd (withEnc encABA) = .next t) ∧
    (∃ t, exec .encInit (withEnc encFaulted) = .next t) ∧
    (∃ t, exec .decInit State.reset = .next t) ∧ State.reset.dec.toCtx.ready ∧
    (∃ t, exec .decEnd State.reset = .next t) ∧
    (∃ t, exec .decInit (withDec decAfterAB) = .next t) ∧
    (∃ t, exec (.decByte 0x10) (withDec decAfterAB) = .next t) ∧
    (∃ t, exec .decEnd (withDec decAfterAB) = .next t) ∧
    (∃ t, exec .decInit (withDec decFaulted) = .next t) :=
  ⟨⟨_, rfl⟩, by decide, ⟨_, rfl⟩, ⟨_, rfl⟩, ⟨_, rfl⟩, ⟨_, rfl⟩, ⟨_, rfl⟩, ⟨_, rfl⟩, by decide,
    ⟨_, rfl⟩, ⟨_, rfl⟩, ⟨_, rfl⟩, ⟨_, rfl⟩, ⟨_, rfl⟩⟩

theorem witness_ProtocolErrorWhereNotLegal :
    (Instr.context .encInit = .enc ∧ (withEnc encABA).enc.st = .active ∧
      Instr.kind .encInit = .init) ∧
    (Instr.context .encEnd = .enc ∧ State.reset.enc.toCtx.ready ∧
      Instr.kind .encEnd ≠ .init) ∧
    (Instr.context .decInit = .dec ∧ (withDec decAfterAB).dec.st = .active ∧
      Instr.kind .decInit = .init) ∧
    Instr.context (.decByte 0xAA) = .dec ∧ (withDec decDone).dec.toCtx.ready ∧
      Instr.kind (.decByte 0xAA) ≠ .init := by decide

/-- The ends of what fits the register at `WMAX = 9`. -/
theorem witness_InfoWordIsZeroExtended :
    1023 < 2 ^ ((⟨9⟩ : Params).wmax + 1) ∧ 10 ≤ (⟨10⟩ : Params).wmax := by decide

theorem witness_FaultEntryIsPrecise :
    (∃ t, exec (.encByte 0x41) State.reset = .next t ∧ State.reset.enc.st ≠ .fault ∧
      t.enc.st = .fault) ∧
    (∃ t, exec (.decByte 0x40) (withDec (decAfterA 64)) = .next t ∧
      (withDec (decAfterA 64)).dec.st ≠ .fault ∧ t.dec.st = .fault) :=
  ⟨⟨_, rfl, by decide, rfl⟩, ⟨_, rfl, by decide, rfl⟩⟩

theorem witness_FaultIsTerminal :
    (withEnc encFaulted).enc.st = .fault ∧ (withDec decFaulted).dec.st = .fault ∧
    (∃ t, step (withEnc encFaulted) = .next t) ∧
    (∀ rest, (withEnc encFaulted).port ≠ .reset :: rest) ∧
    (∃ t, step { withEnc encFaulted with port := [.reset] } = .next t) :=
  ⟨rfl, rfl, ⟨_, rfl⟩, fun _ => by simp [withEnc, State.reset, State.resetAt], ⟨_, rfl⟩⟩

theorem witness_CmdFaultIsSticky :
    (∃ t, step (State.reset.withFetchWord 12 0x8FF) = .next t) ∧
    (∀ rest, (State.reset.withFetchWord 12 0x8FF).port ≠ .reset :: rest) ∧
    (∃ t, step { State.reset with port := [.reset], cmdFault := true } = .next t) :=
  ⟨⟨_, rfl⟩, (fun _ h => by cases h), ⟨_, rfl⟩⟩

theorem witness_WidthLimitOnlyRemovesBehaviour :
    (State.resetAt ⟨9⟩).params.wmax ≤ Config.defaultParams.wmax ∧
    ∃ t, exec .encInit (State.resetAt ⟨9⟩) = .next t ∧ t.enc.st ≠ .fault ∧ t.dec.st ≠ .fault :=
  ⟨by decide, _, rfl, by decide, by decide⟩

theorem witness_CommandsKeepToTheirContext :
    (∃ t, exec (.encByte 0x42) (withEnc encABA) = .next t) ∧
    Instr.context (.encByte 0x42) = .enc ∧
    (∃ t, exec (.decByte 0x10) (withDec decAfterAB) = .next t) ∧
    Instr.context (.decByte 0x10) = .dec := ⟨⟨_, rfl⟩, rfl, ⟨_, rfl⟩, rfl⟩

theorem witness_CommandsOfTwoContextsCommute :
    (withEnc encABA).Inv ∧ Instr.context (.encByte 0x42) = .enc ∧
    Instr.context .decInit = .dec := ⟨inv_withEnc encInv_ABA, rfl, rfl⟩

theorem witness_OutputsAreAppendOnly :
    (∃ t, exec (.encByte 0x43) (withEnc encABA) = .next t) ∧ Instr.encByte 0x43 ≠ .encInit ∧
    (∃ t, exec (.decByte 0x10) (withDec decAfterAB) = .next t) ∧
    Instr.decByte 0x10 ≠ .decInit := ⟨⟨_, rfl⟩, by decide, ⟨_, rfl⟩, by decide⟩

/-- Two states that differ in `enc.cur_code` alone, with no current match. -/
theorem witness_ValuelessStateIsNeverRead :
    (withEnc encStarted).Inv ∧ (withEnc { encStarted with curCode := 7 }).Inv ∧
    (withEnc encStarted).readable = (withEnc { encStarted with curCode := 7 }).readable ∧
    withEnc encStarted ≠ withEnc { encStarted with curCode := 7 } :=
  ⟨inv_withEnc encInv_started,
    inv_withEnc { encInv_started with current := fun h => by cases h }, by decide, by decide⟩

theorem witness_ResetMeetsInvariant : (⟨9⟩ : Params).wf ∧ Config.defaultParams.wf := by decide

theorem witness_StepKeepsInvariant :
    (withEnc encABA).Inv ∧ (withDec decAfterAB).Inv ∧ (smallState encFull decFull).Inv ∧
    (∃ t, step ((withEnc encABA).withFetchWord 12 0x242) = .next t) ∧
    ((withEnc encABA).withFetchWord 12 0x242).Inv :=
  ⟨inv_withEnc encInv_ABA, inv_withDec decInv_afterAB, inv_small, ⟨_, rfl⟩,
    ⟨wf_default, encInv_ABA, decInv_reset⟩⟩

theorem witness_StepAlwaysAnswers :
    (withEnc encABA).Inv ∧ (smallState encFull decFull).Inv :=
  ⟨inv_withEnc encInv_ABA, inv_small⟩

theorem witness_StepKeepsStreamInvariant :
    ((withEnc encABA).withFetchWord 12 0x300).Inv ∧
    ((withEnc encABA).withFetchWord 12 0x300).StreamInv ∧
    ∃ t, step ((withEnc encABA).withFetchWord 12 0x300) = .next t :=
  ⟨⟨wf_default, encInv_ABA, decInv_reset⟩, ⟨encStream_ABA, decStream_reset⟩, _, rfl⟩

end Sys2Proof.Tests
end

section
/-!
SUPPORT. Proofs of the statements about scope (spec/00_scope.md): the step accepts one event, and a command is a command
of one context.
-/

namespace Sys2Proof.Machine

open Sys2Proof

/-! ### The step, by the next event (R12) -/

theorem step_of_port_nil {s : State} (h : s.port = []) : step s = .next s := by
  rw [step, h]

theorem step_of_port_reset {s : State} {rest : List HostEvent} (h : s.port = .reset :: rest) :
    step s = .next { s with port := rest }.hardReset := by
  rw [step, h]

theorem step_of_port_command {s : State} {w : CommandWord} {rest : List HostEvent}
    (h : s.port = .command w :: rest) : step s = { s with port := rest }.acceptWord w := by
  rw [step, h]

theorem State.acceptWord_of_ok {w : CommandWord} {i : Instr} (h : decode w = .ok i) (s : State) :
    s.acceptWord w = exec i s := by
  rw [State.acceptWord, h]

theorem State.acceptWord_of_error {w : CommandWord} {r : Reject} (h : decode w = .error r)
    (s : State) : s.acceptWord w = .next s.illegalCommand := by
  rw [State.acceptWord, h]

/-- Settles O5: the step by its event, then the word by its decoding. -/
theorem stepRunsDecodedCommand : Obligations.StepRunsDecodedCommand := by
  intro s w rest i hport hdecode
  exact (step_of_port_command hport).trans (State.acceptWord_of_ok hdecode _)

/-! ### The information word (R7, R26, R210) -/

theorem zextInfo_of_lt {p : Params} {info : Nat} (h : info < 2 ^ (p.wmax + 1)) :
    zextInfo p info = info := if_pos h

/-- Bit 11 of a legal word is 0 (R98). -/
theorem encode_bit11 (i : Instr) : (encode i).getLsbD 11 = false := by
  have law : Laws.EncodeLegal.Statement i := by
    cases i with
    | encInit => exact Laws.EncodeLegal.encInit
    | encByte c => exact Laws.EncodeLegal.encByte c
    | encEnd => exact Laws.EncodeLegal.encEnd
    | decInit => exact Laws.EncodeLegal.decInit
    | decByte b => exact Laws.EncodeLegal.decByte b
    | decEnd => exact Laws.EncodeLegal.decEnd
  obtain ⟨-, -, -, -, -, -, hbit⟩ := law
  exact hbit

theorem encode_toNat_lt (i : Instr) : (encode i).toNat < 2 ^ 11 := by
  have hmsb : (encode i).msb = false :=
    (BitVec.msb_eq_getLsbD_last _).trans (encode_bit11 i)
  have := BitVec.msb_eq_false_iff_two_mul_lt.1 hmsb
  omega

/-- Settles O45: every command word has 11 significant bits, which `WMAX + 1` bits hold from `WMAX = 10` on. -/
theorem infoWordIsZeroExtended : Obligations.InfoWordIsZeroExtended := by
  intro p info
  refine ⟨zextInfo_of_lt, zextInfo_lt p info, fun hw i => zextInfo_of_lt ?_⟩
  exact (encode_toNat_lt i).trans_le (Nat.pow_le_pow_right (by decide) (by omega))

/-! ### A command is a command of its context (R97, R98) -/

/-- The body of an encoder command; a decoder command does nothing to the encoder. -/
def encCommandBody (p : Params) : Instr → Enc → Result Enc
  | .encInit => encInitBody
  | .encByte c => encByteBody p c
  | .encEnd => encEndBody p
  | .decInit | .decByte _ | .decEnd => .ok

/-- The body of a decoder command; an encoder command does nothing to the decoder. -/
def decCommandBody (p : Params) : Instr → Dec → Result Dec
  | .decInit => decInitBody
  | .decByte b => decByteBody p b
  | .decEnd => decEndBody
  | .encInit | .encByte _ | .encEnd => .ok

theorem exec_of_context_enc {i : Instr} (h : i.context = .enc) (s : State) :
    exec i s = s.onEnc i.kind (encode i) (encCommandBody s.params i) := by
  cases i with
  | encInit | encByte _ | encEnd => rfl
  | decInit | decByte _ | decEnd => cases h

theorem exec_of_context_dec {i : Instr} (h : i.context = .dec) (s : State) :
    exec i s = s.onDec i.kind (encode i) (decCommandBody s.params i) := by
  cases i with
  | encInit | encByte _ | encEnd => cases h
  | decInit | decByte _ | decEnd => rfl

/-- An encoder command writes the encoder context alone (R12, R20). -/
theorem exec_enc_eq_setEnc {i : Instr} (hi : i.context = .enc) {s t : State}
    (h : exec i s = .next t) : t = { s with enc := t.enc } := by
  rw [exec_of_context_enc hi] at h
  obtain ⟨hparams, hport, hdec, hcmd⟩ := State.onEnc_frame h
  rw [← hparams, ← hport, ← hdec, ← hcmd]

/-- A decoder command writes the decoder context alone (R12, R20). -/
theorem exec_dec_eq_setDec {i : Instr} (hi : i.context = .dec) {s t : State}
    (h : exec i s = .next t) : t = { s with dec := t.dec } := by
  rw [exec_of_context_dec hi] at h
  obtain ⟨hparams, hport, henc, hcmd⟩ := State.onDec_frame h
  rw [← hparams, ← hport, ← henc, ← hcmd]

/-- Settles O50, by the context of the command. -/
theorem commandsKeepToTheirContext : Obligations.CommandsKeepToTheirContext := by
  intro i s t h
  cases hi : i.context with
  | enc =>
    rw [exec_enc_eq_setEnc hi h]
    exact ⟨rfl, rfl, rfl, fun _ => rfl, fun hne => by cases hne⟩
  | dec =>
    rw [exec_dec_eq_setDec hi h]
    exact ⟨rfl, rfl, rfl, fun hne => (by cases hne), fun _ => rfl⟩

/-! ### No command stops the machine in a state that meets the invariant (R42, R219) -/

theorem State.onEnc_answers {kind : CmdKind} {word : CommandWord} {body : Enc → Result Enc}
    {s : State} (h : ∀ r, legality s.enc.st kind = .performed → body s.enc ≠ .stop r) :
    ∃ t, s.onEnc kind word body = .next t := by
  rcases s.onEnc_cases kind word body with
    ⟨-, h'⟩ | ⟨-, h'⟩ | ⟨hl, ⟨e, -, h'⟩ | ⟨f, i, -, h'⟩ | ⟨r, hstop, -⟩⟩
  · exact ⟨_, h'⟩
  · exact ⟨_, h'⟩
  · exact ⟨_, h'⟩
  · exact ⟨_, h'⟩
  · exact absurd hstop (h r hl)

theorem State.onDec_answers {kind : CmdKind} {word : CommandWord} {body : Dec → Result Dec}
    {s : State} (h : ∀ r, legality s.dec.st kind = .performed → body s.dec ≠ .stop r) :
    ∃ t, s.onDec kind word body = .next t := by
  rcases s.onDec_cases kind word body with
    ⟨-, h'⟩ | ⟨-, h'⟩ | ⟨hl, ⟨d, -, h'⟩ | ⟨f, i, -, h'⟩ | ⟨r, hstop, -⟩⟩
  · exact ⟨_, h'⟩
  · exact ⟨_, h'⟩
  · exact ⟨_, h'⟩
  · exact ⟨_, h'⟩
  · exact absurd hstop (h r hl)

/-- `END` is performed only during a call (R38). -/
theorem active_of_finish_performed {st : CtxState} (h : legality st .finish = .performed) :
    st = .active := by
  cases st with
  | active => rfl
  | idle | done | fault => cases h

theorem encByteBody_ne_stop {p : Params} {e : Enc} (h : EncInv p e) (c : Byte) (r : Fault) :
    encByteBody p c e ≠ .stop r := by
  rcases encByteBody_cases h c with
    ⟨-, hb⟩ | ⟨k, -, -, -, hb⟩ | ⟨-, -, -, hb⟩ | ⟨-, -, -, -, hb⟩ <;> simp [hb]

theorem encEndBody_ne_stop {p : Params} {e : Enc} (h : EncInv p e) (ha : e.st = .active)
    (r : Fault) : encEndBody p e ≠ .stop r := by
  rcases encEndBody_cases h ha with
    ⟨-, -, -, -, -, hb⟩ | ⟨-, -, hb⟩ | ⟨-, -, hb⟩ <;> simp [hb]

theorem decByteBody_ne_stop {p : Params} {d : Dec} (h : DecInv p d) (b : Byte) (r : Fault) :
    decByteBody p b d ≠ .stop r := by
  rcases decByteBody_cases h b with
    ⟨-, hb⟩ | ⟨-, -, hb⟩ |
    ⟨-, -, n, -, -, ⟨-, hb⟩ | ⟨-, -, hb⟩ | ⟨-, -, f, tail, -, -, hb⟩⟩ <;> simp [hb]

/-- The body of a performed encoder command completes or raises. -/
theorem encCommandBody_ne_stop {p : Params} {e : Enc} (h : EncInv p e) (i : Instr) (r : Fault)
    (hl : legality e.st i.kind = .performed) : encCommandBody p i e ≠ .stop r := by
  cases i with
  | encInit => exact nofun
  | encByte c => exact encByteBody_ne_stop h c r
  | encEnd => exact encEndBody_ne_stop h (active_of_finish_performed hl) r
  | decInit | decByte _ | decEnd => exact nofun

/-- The body of a decoder command completes or raises. -/
theorem decCommandBody_ne_stop {p : Params} {d : Dec} (h : DecInv p d) (i : Instr) (r : Fault) :
    decCommandBody p i d ≠ .stop r := by
  cases i with
  | decByte b => exact decByteBody_ne_stop h b r
  | decInit | decEnd => exact nofun
  | encInit | encByte _ | encEnd => exact nofun

theorem exec_answers {s : State} (h : s.Inv) (i : Instr) : ∃ t, exec i s = .next t := by
  cases hi : i.context with
  | enc =>
    rw [exec_of_context_enc hi]
    exact State.onEnc_answers fun r hl => encCommandBody_ne_stop h.enc i r hl
  | dec =>
    rw [exec_of_context_dec hi]
    exact State.onDec_answers fun r _ => decCommandBody_ne_stop h.dec i r

/-- The invariant says nothing of the command port. -/
theorem State.Inv.setPort {s : State} (h : s.Inv) (rest : List HostEvent) :
    State.Inv { s with port := rest } :=
  ⟨h.params, h.enc, h.dec⟩

/-- Settles O56, by the next event on the port; a legal word is `exec_answers`. -/
theorem stepAlwaysAnswers : Obligations.StepAlwaysAnswers := by
  intro s h
  cases hport : s.port with
  | nil => exact ⟨_, step_of_port_nil hport⟩
  | cons event rest =>
    cases event with
    | reset => exact ⟨_, step_of_port_reset hport⟩
    | command w =>
      rw [step_of_port_command hport]
      cases hw : decode w with
      | error r => exact ⟨_, State.acceptWord_of_error hw _⟩
      | ok i =>
        rw [State.acceptWord_of_ok hw]
        exact exec_answers (h.setPort rest) i

/-! ### A command does not read the other context (R12) -/

theorem State.onEnc_setDec (kind : CmdKind) (word : CommandWord) (body : Enc → Result Enc)
    (s : State) (d : Dec) :
    State.onEnc kind word body { s with dec := d } =
      outcomeThen (s.onEnc kind word body) fun t => .next { t with dec := d } := by
  unfold State.onEnc
  cases legality s.enc.st kind with
  | ignored | notLegal => rfl
  | performed => cases body s.enc <;> rfl

theorem State.onDec_setEnc (kind : CmdKind) (word : CommandWord) (body : Dec → Result Dec)
    (s : State) (e : Enc) :
    State.onDec kind word body { s with enc := e } =
      outcomeThen (s.onDec kind word body) fun t => .next { t with enc := e } := by
  unfold State.onDec
  cases legality s.dec.st kind with
  | ignored | notLegal => rfl
  | performed => cases body s.dec <;> rfl

/-- An encoder command does the same whatever the decoder context holds. -/
theorem exec_enc_setDec {i : Instr} (hi : i.context = .enc) {s t : State}
    (h : exec i s = .next t) (d : Dec) :
    exec i { s with dec := d } = .next { t with dec := d } := by
  rw [exec_of_context_enc hi] at h ⊢
  rw [State.onEnc_setDec, h, outcomeThen]

/-- A decoder command does the same whatever the encoder context holds. -/
theorem exec_dec_setEnc {i : Instr} (hi : i.context = .dec) {s t : State}
    (h : exec i s = .next t) (e : Enc) :
    exec i { s with enc := e } = .next { t with enc := e } := by
  rw [exec_of_context_dec hi] at h ⊢
  rw [State.onDec_setEnc, h, outcomeThen]

theorem execAll_pair_of_next {i j : Instr} {s t : State} (h : exec i s = .next t) :
    execAll [i, j] s = exec j t := by
  simp only [execAll, h, outcomeThen]
  cases exec j t <;> rfl

/-- Settles O51: each command answers its context's registers whatever the other context holds, so both orders end in
the two new contexts. -/
theorem commandsOfTwoContextsCommute : Obligations.CommandsOfTwoContextsCommute := by
  intro i j s hinv hi hj
  obtain ⟨t, ht⟩ := exec_answers hinv i
  obtain ⟨u, hu⟩ := exec_answers hinv j
  have htEnc : t = { s with enc := t.enc } := exec_enc_eq_setEnc hi ht
  have huDec : u = { s with dec := u.dec } := exec_dec_eq_setDec hj hu
  calc execAll [i, j] s
      = exec j { s with enc := t.enc } := by rw [execAll_pair_of_next ht, ← htEnc]
    _ = .next { u with enc := t.enc } := exec_dec_setEnc hj hu t.enc
    _ = .next { s with enc := t.enc, dec := u.dec } := by rw [huDec]
    _ = .next { t with dec := u.dec } := by rw [htEnc]
    _ = exec i { s with dec := u.dec } := (exec_enc_setDec hi ht u.dec).symm
    _ = execAll [j, i] s := by rw [execAll_pair_of_next hu, ← huDec]

end Sys2Proof.Machine
end

section
/-!
SUPPORT. What a step can do, said once (spec/00_scope.md R12, spec/10_state.md R38), and what a performed command can do
to its context.
-/

namespace Sys2Proof.Machine

open Sys2Proof

/-! ### The step and its commands, by case -/

/-- What a step can do: wait, take the reset input, reject an illegal word, or execute a command (R12, R240, R252). -/
theorem step_cases {s t : State} (h : step s = .next t) :
    (s.port = [] ∧ t = s) ∨
    (∃ rest, s.port = .reset :: rest ∧ t = State.hardReset { s with port := rest }) ∨
    (∃ w rest, s.port = .command w :: rest ∧
      ((∃ r, decode w = .error r ∧ t = State.illegalCommand { s with port := rest }) ∨
        ∃ i, decode w = .ok i ∧ exec i { s with port := rest } = .next t)) := by
  cases hport : s.port with
  | nil =>
    rw [step_of_port_nil hport] at h
    cases h
    exact .inl ⟨rfl, rfl⟩
  | cons event rest =>
    cases event with
    | reset =>
      rw [step_of_port_reset hport] at h
      cases h
      exact .inr (.inl ⟨rest, rfl, rfl⟩)
    | command w =>
      rw [step_of_port_command hport] at h
      refine .inr (.inr ⟨w, rest, rfl, ?_⟩)
      cases hw : decode w with
      | error r =>
        rw [State.acceptWord_of_error hw] at h
        cases h
        exact .inl ⟨r, rfl, rfl⟩
      | ok i => exact .inr ⟨i, rfl, (State.acceptWord_of_ok hw _).symm.trans h⟩

/-- What every event keeps, every step keeps; the command port is not the block's. -/
theorem step_keeps {P : State → Prop} (hport : ∀ s rest, P s → P { s with port := rest })
    (hreset : ∀ s, P s → P s.hardReset) (hillegal : ∀ s, P s → P s.illegalCommand)
    (hexec : ∀ i s t, P s → exec i s = .next t → P t) {s t : State} (hs : P s)
    (h : step s = .next t) : P t := by
  rcases step_cases h with
    ⟨-, rfl⟩ | ⟨rest, -, rfl⟩ | ⟨w, rest, -, ⟨r, -, rfl⟩ | ⟨i, -, hi⟩⟩
  · exact hs
  · exact hreset _ (hport s rest hs)
  · exact hillegal _ (hport s rest hs)
  · exact hexec i _ t (hport s rest hs) hi

/-- `Insert` raises no fault (R175). -/
theorem Ctx.insert_ne_raise (p : Params) (pre : Nat) (b : Byte) (c : Ctx) (f : FaultCode)
    (info : Nat) : c.insert p pre b ≠ .raise f info := by
  rcases Ctx.insert_cases p pre b c with ⟨-, -, h⟩ | h <;> simp [h]

/-- A computation that goes on raises only what one of its two parts raises. -/
theorem Result.andThen_eq_raise {α β : Type} {r : Result α} {g : α → Result β} {f : FaultCode}
    {info : Nat} (h : r.andThen g = .raise f info) :
    r = .raise f info ∨ ∃ a, r = .ok a ∧ g a = .raise f info := by
  cases r with
  | ok a => exact .inr ⟨a, rfl, h⟩
  | raise c i =>
    cases h
    exact .inl rfl
  | stop r => cases h

theorem Result.andThen_eq_ok {α β : Type} {r : Result α} {g : α → Result β} {b : β}
    (h : r.andThen g = .ok b) : ∃ a, r = .ok a ∧ g a = .ok b := by
  cases r with
  | ok a => exact ⟨a, rfl, h⟩
  | raise c i => cases h
  | stop r => cases h

theorem encMiss_raise {p : Params} {m : Nat} {c : Byte} {e : Enc} {f : FaultCode} {info : Nat}
    (h : encMiss p m c e = .raise f info) : f = .widthOverflow := by
  unfold encMiss at h
  split at h
  · cases h
    rfl
  · rcases Result.andThen_eq_raise h with h | ⟨_, -, h⟩
    · exact absurd h (Ctx.insert_ne_raise _ _ _ _ _ _)
    · cases h

/-- The encoder's bodies raise `WidthOverflow` only (R213). -/
theorem encCommandBody_raise {p : Params} {i : Instr} {e : Enc} {f : FaultCode} {info : Nat}
    (h : encCommandBody p i e = .raise f info) : f = .widthOverflow := by
  cases i with
  | encByte c =>
    cases hv : e.curValid with
    | false => cases (encByteBody_empty c hv).symm.trans h
    | true =>
      cases hl : e.toCtx.lookup e.curCode c with
      | some k => cases (encByteBody_hit hv hl).symm.trans h
      | none => exact encMiss_raise ((encByteBody_miss hv hl).symm.trans h)
  | encEnd =>
    rcases Result.andThen_eq_raise h with h | ⟨_, -, h⟩
    · unfold encFinalCode at h
      split at h
      · cases h
      · split at h <;> cases h
        rfl
    · cases h
  | encInit | decInit | decByte _ | decEnd => cases h

theorem Ctx.strOrStop_ne_raise (c : Ctx) (k : Nat) (f : FaultCode) (info : Nat) :
    c.strOrStop k ≠ .raise f info := by
  unfold Ctx.strOrStop
  split <;> nofun

theorem resolveCode_raise {pc n : Nat} {pf : Byte} {c : Ctx} {f : FaultCode} {info : Nat}
    (h : resolveCode pc pf n c = .raise f info) : f = .corruptCode := by
  unfold resolveCode at h
  split at h
  · exact absurd h (Ctx.strOrStop_ne_raise _ _ _ _)
  · split at h
    · rcases Result.andThen_eq_raise h with h | ⟨_, -, h⟩
      · exact absurd h (Ctx.strOrStop_ne_raise _ _ _ _)
      · cases h
    · cases h
      rfl

theorem processCode_raise {p : Params} {n : Nat} {d : Dec} {f : FaultCode} {info : Nat}
    (h : processCode p n d = .raise f info) : f = .corruptCode := by
  unfold processCode at h
  split at h
  · unfold processFirst at h
    split at h <;> cases h
    rfl
  · rcases Result.andThen_eq_raise h with h | ⟨_, -, h⟩
    · exact resolveCode_raise h
    · rcases Result.andThen_eq_raise h with h | ⟨_, -, h⟩
      · exact absurd h (Ctx.insert_ne_raise _ _ _ _ _ _)
      · cases h

/-- The decoder's bodies raise `WidthOverflow` and `CorruptCode` only (R212, R213). -/
theorem decCommandBody_raise {p : Params} {i : Instr} {d : Dec} {f : FaultCode} {info : Nat}
    (h : decCommandBody p i d = .raise f info) : f = .widthOverflow ∨ f = .corruptCode := by
  cases i with
  | decByte b =>
    simp only [decCommandBody, decByteBody] at h
    split at h
    · cases h
    · split at h
      · cases h
        exact .inl rfl
      · exact .inr (processCode_raise h)
  | decInit | decEnd | encInit | encByte _ | encEnd => cases h

/-- What an encoder command can do: be ignored, be illegal in the context's state, complete or raise (R38, R219). -/
theorem exec_enc_cases {i : Instr} (hi : i.context = .enc) {s t : State}
    (h : exec i s = .next t) :
    (s.enc.st = .fault ∧ t = s) ∨
    (legality s.enc.st i.kind = .notLegal ∧
      t = s.enterEncFault .protocolError (encode i).toNat) ∨
    (legality s.enc.st i.kind = .performed ∧
      ((∃ e, encCommandBody s.params i s.enc = .ok e ∧ t = { s with enc := e }) ∨
        ∃ f info, f ≠ .none ∧ encCommandBody s.params i s.enc = .raise f info ∧
          t = s.enterEncFault f info)) := by
  rw [exec_of_context_enc hi] at h
  rcases s.onEnc_cases i.kind (encode i) (encCommandBody s.params i) with
    ⟨hst, h'⟩ | ⟨hl, h'⟩ | ⟨hl, ⟨e, hb, h'⟩ | ⟨f, info, hb, h'⟩ | ⟨r, -, h'⟩⟩ <;>
    rw [h'] at h <;> cases h
  · exact .inl ⟨hst, rfl⟩
  · exact .inr (.inl ⟨hl, rfl⟩)
  · exact .inr (.inr ⟨hl, .inl ⟨e, hb, rfl⟩⟩)
  · exact .inr (.inr ⟨hl, .inr ⟨f, info, by simp [encCommandBody_raise hb], hb, rfl⟩⟩)

/-- What a decoder command can do, as `exec_enc_cases`. -/
theorem exec_dec_cases {i : Instr} (hi : i.context = .dec) {s t : State}
    (h : exec i s = .next t) :
    (s.dec.st = .fault ∧ t = s) ∨
    (legality s.dec.st i.kind = .notLegal ∧
      t = s.enterDecFault .protocolError (encode i).toNat) ∨
    (legality s.dec.st i.kind = .performed ∧
      ((∃ d, decCommandBody s.params i s.dec = .ok d ∧ t = { s with dec := d }) ∨
        ∃ f info, f ≠ .none ∧ decCommandBody s.params i s.dec = .raise f info ∧
          t = s.enterDecFault f info)) := by
  rw [exec_of_context_dec hi] at h
  rcases s.onDec_cases i.kind (encode i) (decCommandBody s.params i) with
    ⟨hst, h'⟩ | ⟨hl, h'⟩ | ⟨hl, ⟨d, hb, h'⟩ | ⟨f, info, hb, h'⟩ | ⟨r, -, h'⟩⟩ <;>
    rw [h'] at h <;> cases h
  · exact .inl ⟨hst, rfl⟩
  · exact .inr (.inl ⟨hl, rfl⟩)
  · exact .inr (.inr ⟨hl, .inl ⟨d, hb, rfl⟩⟩)
  · refine .inr (.inr ⟨hl, .inr ⟨f, info, ?_, hb, rfl⟩⟩)
    rcases decCommandBody_raise hb with rfl | rfl <;> decide

/-- A command keeps what fault entry and its performed body keep of the encoder context. -/
theorem exec_keeps_enc {Q : Enc → Prop} {i : Instr} {s t : State} (h : exec i s = .next t)
    (hs : Q s.enc)
    (hfault : ∀ f info, f ≠ .none →
      Q { s.enc with toCtx := s.enc.toCtx.enterFault s.params f info })
    (hbody : ∀ e, legality s.enc.st i.kind = .performed →
      encCommandBody s.params i s.enc = .ok e → Q e) : Q t.enc := by
  cases hi : i.context with
  | dec =>
    rw [exec_dec_eq_setDec hi h]
    exact hs
  | enc =>
    rcases exec_enc_cases hi h with
      ⟨-, rfl⟩ | ⟨-, rfl⟩ | ⟨hl, ⟨e, hb, rfl⟩ | ⟨f, info, hf, -, rfl⟩⟩
    · exact hs
    · exact hfault _ _ (by decide)
    · exact hbody e hl hb
    · exact hfault f info hf

/-- A command keeps what fault entry and its performed body keep of the decoder context. -/
theorem exec_keeps_dec {Q : Dec → Prop} {i : Instr} {s t : State} (h : exec i s = .next t)
    (hs : Q s.dec)
    (hfault : ∀ f info, f ≠ .none →
      Q { s.dec with toCtx := s.dec.toCtx.enterFault s.params f info })
    (hbody : ∀ d, legality s.dec.st i.kind = .performed →
      decCommandBody s.params i s.dec = .ok d → Q d) : Q t.dec := by
  cases hi : i.context with
  | enc =>
    rw [exec_enc_eq_setEnc hi h]
    exact hs
  | dec =>
    rcases exec_dec_cases hi h with
      ⟨-, rfl⟩ | ⟨-, rfl⟩ | ⟨hl, ⟨d, hb, rfl⟩ | ⟨f, info, hf, -, rfl⟩⟩
    · exact hs
    · exact hfault _ _ (by decide)
    · exact hbody d hl hb
    · exact hfault f info hf

theorem exec_params {i : Instr} {s t : State} (h : exec i s = .next t) : t.params = s.params :=
  (commandsKeepToTheirContext i s t h).1

/-- `BYTE` is performed only during a call (R38). -/
theorem active_of_byte_performed {st : CtxState} (h : legality st .byte = .performed) :
    st = .active := by
  cases st with
  | active => rfl
  | idle | done | fault => cases h

/-- `INIT` is performed only between calls (R38). -/
theorem ready_of_init_performed {st : CtxState} (h : legality st .init = .performed) :
    st = .idle ∨ st = .done := by
  cases st with
  | idle => exact .inl rfl
  | done => exact .inr rfl
  | active | fault => cases h

end Sys2Proof.Machine
end

section
/-!
SUPPORT. Every step keeps the machine's invariant (spec/10_state.md R43 to R46, spec/42_width_policy_dictionary.md R177
and R181, spec/43_bit_channel.md R198): one lemma per way a body completes, then the obligation.
-/

namespace Sys2Proof.Machine

open Sys2Proof

/-! ### Widths (R178, R179) -/

theorem widthOf_firstCode : widthOf 256 = 9 := by decide

theorem widthOf_firstCode_succ : widthOf (256 + 1) = 9 := by decide

/-- `Grow` after an insertion, as the bodies write it out (R179). -/
theorem widthOf_succ {n w : Nat} (h : w = widthOf n) :
    (if n + 1 = 2 ^ w then w + 1 else w) = widthOf (n + 1) := by
  rw [h, widthOf, widthOf, bitlen_succ]

/-! ### Calls start outside `FAULT` -/

theorem CtxState.ne_fault_of_ready {st : CtxState} (h : st = .idle ∨ st = .done) :
    st ≠ .fault := by
  rcases h with rfl | rfl <;> decide

/-- The reset input keeps the common invariant: the memory stays, with none of its entries readable (R241). -/
theorem CtxInv.hardReset {p : Params} {c : Ctx} (h : CtxInv p c) :
    CtxInv p { Ctx.reset with dict := c.dict } where
  codes := h.codes
  filled := Nat.le_add_right Config.firstCode c.dict.length
  inMemory := h.inMemory
  descends := h.descends
  nextCodeLow := le_rfl
  faultRecorded := ⟨nofun, fun hne => absurd rfl hne⟩
  infoZero := fun _ => rfl
  infoFits := Nat.two_pow_pos _

/-! ### The encoder -/

/-- In a memory with consecutive codes, the entries `take` keeps are those that hold a value. -/
theorem CtxInv.dictRead_of_mem_take {p : Params} {c : Ctx} (h : CtxInv p c) {x : Nat × Entry}
    (hx : x ∈ c.dict.take (c.nextCode - 256)) : c.dictRead x.1 = some x.2 := by
  have hcode := List.mem_map_of_mem (f := Prod.fst) hx
  have hfilled := h.filled
  simp only [Config.firstCode] at hfilled
  rw [List.map_take, h.codes, List.take_range'_of_length_ge (by omega), List.mem_range'_1,
    Config.firstCode] at hcode
  rw [c.dictRead_of_mem_range (by omega) (by omega), Memory.read_eq_some_iff _ h.dict_wf]
  exact List.mem_of_mem_take hx

/-- A pair that no entry holds may be inserted: the pairs stay distinct (R177 (c)). -/
theorem CtxInv.distinct_inserted {p : Params} {c : Ctx} (h : CtxInv p c) {e : Entry}
    (hd : ((c.dict.take (c.nextCode - Config.firstCode)).map Prod.snd).Nodup)
    (hne : ∀ k, c.dictRead k ≠ some e) :
    (((c.dict.write c.nextCode e).take (c.nextCode + 1 - Config.firstCode)).map
      Prod.snd).Nodup := by
  have hlow : 256 ≤ c.nextCode := h.nextCodeLow
  have hfilled : c.nextCode ≤ 256 + c.dict.length := h.filled
  simp only [Config.firstCode] at hd ⊢
  have htake := Memory.take_write_of_codes c.dict 256 (c.nextCode - 256) e h.codes (by omega)
  rw [show 256 + (c.nextCode - 256) = c.nextCode by omega,
    show c.nextCode - 256 + 1 = c.nextCode + 1 - 256 by omega] at htake
  have hnew : e ∉ (c.dict.take (c.nextCode - 256)).map Prod.snd := by
    intro hmem
    obtain ⟨x, hx, rfl⟩ := List.mem_map.1 hmem
    exact hne x.1 (h.dictRead_of_mem_take hx)
  rw [htake, List.map_append, List.map_singleton, List.nodup_append_comm,
    List.singleton_append, List.nodup_cons]
  exact ⟨hnew, hd⟩

/-- A writer with no pending bits holds the number 0 after `Flush` (R193, R194). -/
theorem Enc.flush_acc_of_lt {e : Enc} (h : e.acc < 2 ^ e.nacc) : e.flush.acc = 0 := by
  rw [Enc.flush_acc]
  split
  · rfl
  · rename_i hn
    rw [Nat.eq_zero_of_not_pos hn] at h
    simpa using h

/-- The writer keeps its `nacc` bits (R191). -/
theorem Enc.writeBits_acc_lt (e : Enc) (v w : Nat) :
    (e.writeBits v w).acc < 2 ^ (e.writeBits v w).nacc := by
  rw [Enc.writeBits_acc, bitField_zero]
  exact Nat.mod_lt _ (Nat.two_pow_pos _)

theorem EncInv.enterFault {p : Params} {e : Enc} (h : EncInv p e) {f : FaultCode} (info : Nat)
    (hf : f ≠ .none) : EncInv p { e with toCtx := e.toCtx.enterFault p f info } where
  ctx := h.ctx.enterFault info hf
  width := h.width
  current := h.current
  naccLow := h.naccLow
  accFits := h.accFits
  distinct := h.distinct
  emptyMatch := nofun
  doneEmpty := nofun

/-- An encoder context with no code inserted, no current match and nothing written meets the invariant when its common
registers do; after reset and after `ENC_INIT` it is such a one (R42, R121). -/
theorem EncInv.of_fresh {p : Params} {e : Enc} (hc : CtxInv p e.toCtx) (hn : e.nextCode = 256)
    (hw : e.width = 9) (hv : e.curValid = false) (hacc : e.acc = 0) (hnacc : e.nacc = 0)
    (hout : e.out = []) (htrace : e.trace = []) : EncInv p e where
  ctx := hc
  width := by rw [hw, hn, widthOf_firstCode]
  current := by simp [hv]
  naccLow := by simp [hnacc]
  accFits := by simp [hacc]
  distinct := by simp [hn, Config.firstCode]
  emptyMatch := fun _ _ => ⟨hn, hnacc, hout, htrace⟩
  doneEmpty := fun _ => ⟨hv, hnacc⟩

theorem EncInv.hardReset {p : Params} {e : Enc} (h : EncInv p e) :
    EncInv p { Enc.reset with dict := e.dict } :=
  .of_fresh h.ctx.hardReset rfl rfl rfl rfl rfl rfl rfl

/-- `ENC_INIT` keeps the invariant (R121). -/
theorem EncInv.started {p : Params} {e e' : Enc} (h : EncInv p e)
    (hst : e.st = .idle ∨ e.st = .done) (hb : encInitBody e = .ok e') : EncInv p e' := by
  cases hb
  exact .of_fresh
    (h.ctx.of_bootstrap (CtxState.ne_fault_of_ready hst) nofun rfl rfl rfl rfl)
    rfl rfl rfl rfl rfl rfl rfl

/-- A call in progress whose match becomes a code of the dictionary (R122, R123). -/
theorem EncInv.matched {p : Params} {e : Enc} (h : EncInv p e) (ha : e.st = .active) {k : Nat}
    (hk : k < e.nextCode) : EncInv p { e with curCode := k, curValid := true } where
  ctx := h.ctx
  width := h.width
  current := fun _ => hk
  naccLow := h.naccLow
  accFits := h.accFits
  distinct := h.distinct
  emptyMatch := nofun
  doneEmpty := fun hd => by cases ha.symm.trans hd

/-- `ENC_BYTE` keeps the invariant; on a miss the new pair is one no entry holds (R122, R177 (c)). -/
theorem EncInv.byteConsumed {p : Params} {e e' : Enc} {c : Byte} (h : EncInv p e)
    (ha : e.st = .active) (hb : encByteBody p c e = .ok e') : EncInv p e' := by
  have hlow : 256 ≤ e.nextCode := h.ctx.nextCodeLow
  have hc : c.toNat < 256 := c.isLt
  rcases encByteBody_cases h c with
    ⟨hv, h'⟩ | ⟨k, hv, hk, -, h'⟩ | ⟨-, -, -, h'⟩ | ⟨hv, hne, -, hn, h'⟩ <;>
    rw [h'] at hb <;> cases hb
  · exact h.matched ha (by omega)
  · have := h.matched ha hk
    rwa [← hv] at this
  · exact
      { ctx := (h.ctx.inserted hn (h.current hv) c).of_same rfl rfl rfl rfl rfl
        width := widthOf_succ h.width
        current := fun _ => by simp only; omega
        naccLow := Nat.mod_lt _ (by decide)
        accFits := Nat.mod_lt _ (Nat.two_pow_pos _)
        distinct := h.ctx.distinct_inserted h.distinct hne
        emptyMatch := fun _ hf => by cases hv.symm.trans hf
        doneEmpty := fun hd => by cases ha.symm.trans hd }

/-- `ENC_END` keeps the invariant: the match and the writer are empty afterwards (R127). -/
theorem EncInv.finished {p : Params} {e e' : Enc} (h : EncInv p e) (ha : e.st = .active)
    (hb : encEndBody p e = .ok e') : EncInv p e' := by
  have hlive : e.st ≠ .fault := by simp [ha]
  rcases encEndBody_cases h ha with
    ⟨hv, -, hn, -, -, h'⟩ | ⟨-, -, h'⟩ | ⟨hv, -, h'⟩ <;> rw [h'] at hb <;> cases hb
  · exact
      { h with
        ctx := h.ctx.of_live hlive nofun rfl rfl rfl rfl
        emptyMatch := nofun
        doneEmpty := fun _ => ⟨hv, hn⟩ }
  · have hacc : (Enc.flush { e.writeBits e.curCode e.width with curValid := false }).acc = 0 :=
      Enc.flush_acc_of_lt (e.writeBits_acc_lt _ _)
    exact
      { ctx := h.ctx.of_live hlive nofun (by simp) (by simp) (by simp) (by simp)
        width := by simpa using h.width
        current := fun hc => by simp at hc
        naccLow := by simp
        accFits := by simp only [hacc, Enc.flush_nacc]; decide
        distinct := by simpa using h.distinct
        emptyMatch := nofun
        doneEmpty := fun _ => ⟨by simp, by simp⟩ }

/-- Every performed encoder command keeps the encoder's invariant. -/
theorem EncInv.commandDone {p : Params} {e e' : Enc} {i : Instr} (h : EncInv p e)
    (hl : legality e.st i.kind = .performed) (hb : encCommandBody p i e = .ok e') :
    EncInv p e' := by
  cases i with
  | encInit => exact h.started (ready_of_init_performed hl) hb
  | encByte c => exact h.byteConsumed (active_of_byte_performed hl) hb
  | encEnd => exact h.finished (active_of_finish_performed hl) hb
  | decInit | decByte _ | decEnd =>
    cases hb
    exact h

/-! ### The decoder -/

/-- The previous string is the same in every context with the same dictionary. -/
theorem DecInv.previousFirst_of_same {p : Params} {d : Dec} (h : DecInv p d) {c : Ctx}
    (hd : c.dict = d.dict) (hn : c.nextCode = d.nextCode) (hv : d.havePrev = true) :
    ∃ s, c.str d.prevCode = some (d.prevFirst :: s) := by
  obtain ⟨s, hs⟩ := h.previousFirst hv
  exact ⟨s, (Ctx.str_eq_of_same hd hn).trans hs⟩

theorem DecInv.enterFault {p : Params} {d : Dec} (h : DecInv p d) {f : FaultCode} (info : Nat)
    (hf : f ≠ .none) : DecInv p { d with toCtx := d.toCtx.enterFault p f info } where
  ctx := h.ctx.enterFault info hf
  width := h.width
  nextCodeHigh := h.nextCodeHigh
  previous := h.previous
  previousFirst := h.previousFirst_of_same rfl rfl
  noPrevious := h.noPrevious
  nrbufLow := h.nrbufLow
  rbufFits := h.rbufFits

/-- The memory has the first code at every `WMAX` the spec allows (R6). -/
theorem Params.firstCode_lt {p : Params} (h : p.wf) : 256 < 2 ^ p.wmax :=
  calc 256 < 2 ^ 9 := by decide
    _ ≤ 2 ^ p.wmax := Nat.pow_le_pow_right (by decide) h

/-- A decoder context with no code read and an empty buffer meets the invariant when its common registers do; after
reset and after `DEC_INIT` it is such a one (R42, R141). -/
theorem DecInv.of_fresh {p : Params} {d : Dec} (hp : p.wf) (hc : CtxInv p d.toCtx)
    (hn : d.nextCode = 256) (hw : d.width = 9) (hv : d.havePrev = false) (hrbuf : d.rbuf = 0)
    (hnrbuf : d.nrbuf = 0) (htrace : d.trace = []) : DecInv p d where
  ctx := hc
  width := by rw [hw, hn, widthOf_firstCode_succ]
  nextCodeHigh := hn ▸ Params.firstCode_lt hp
  previous := by simp [hv]
  previousFirst := by simp [hv]
  noPrevious := fun _ => ⟨hn, htrace⟩
  nrbufLow := by simp [hw, hnrbuf]
  rbufFits := by simp [hrbuf]

theorem DecInv.hardReset {p : Params} {d : Dec} (hp : p.wf) (h : DecInv p d) :
    DecInv p { Dec.reset with dict := d.dict } :=
  .of_fresh hp h.ctx.hardReset rfl rfl rfl rfl rfl rfl

/-- `DEC_INIT` keeps the invariant (R141). -/
theorem DecInv.started {p : Params} {d d' : Dec} (hp : p.wf) (h : DecInv p d)
    (hst : d.st = .idle ∨ d.st = .done) (hb : decInitBody d = .ok d') : DecInv p d' := by
  cases hb
  exact .of_fresh hp
    (h.ctx.of_bootstrap (CtxState.ne_fault_of_ready hst) nofun rfl rfl rfl rfl)
    rfl rfl rfl rfl rfl rfl

/-- `DEC_END` keeps the invariant (R151). -/
theorem DecInv.finished {p : Params} {d d' : Dec} (h : DecInv p d) (ha : d.st = .active)
    (hb : decEndBody d = .ok d') : DecInv p d' := by
  cases hb
  exact
    { h with
      ctx := h.ctx.of_live (by simp [ha]) nofun rfl rfl rfl rfl
      previousFirst := h.previousFirst_of_same rfl rfl }

/-- After a code is taken out fewer than 8 bits stay, so fewer than any width (R198). -/
theorem DecInv.leftover_lt {p : Params} {d : Dec} (h : DecInv p d) {w : Nat} (hw : 9 ≤ w) :
    d.nrbuf + 8 - d.width < w := by
  have := h.nrbufLow
  omega

/-- The first code of a call, a literal, becomes the previous code (R145 step 2). -/
theorem DecInv.firstProcessed {p : Params} {d : Dec} (h : DecInv p d) (hv : d.havePrev = false)
    {n : Nat} (hn : n < d.nextCode) (total : Nat) :
    DecInv p { d.extracted total (d.nrbuf + 8) d.width with
      out := d.out ++ [byteOf n]
      prevCode := n
      prevFirst := byteOf n
      havePrev := true } where
  ctx := h.ctx.of_same rfl rfl rfl rfl rfl
  width := h.width
  nextCodeHigh := h.nextCodeHigh
  previous := fun _ => hn
  previousFirst := fun _ => by
    obtain ⟨hnext, -⟩ := h.noPrevious hv
    exact ⟨[], Ctx.str_literal _ (hn.trans_eq hnext)⟩
  noPrevious := nofun
  nrbufLow := h.leftover_lt h.nine_le_width
  rbufFits := Nat.mod_lt _ (Nat.two_pow_pos _)

/-- The string of a later code `n` in the dictionary with the new entry: it was there, or it is the entry's own
(R145 steps 3a, 3b, R149). -/
theorem DecInv.str_processed {p : Params} {d : Dec} (h : DecInv p d) (hv : d.havePrev = true)
    {n : Nat} {f : Byte} {tail : List Byte} (hn : n ≤ d.nextCode)
    (hpresent : n < d.nextCode → d.toCtx.str n = some (f :: tail))
    (hnew : n = d.nextCode → f = d.prevFirst ∧
      ∃ s, tail = s ++ [f] ∧ d.toCtx.str d.prevCode = some (f :: s))
    {c : Ctx} (hd : c.dict = d.dict.write d.nextCode ⟨d.prevCode, f⟩)
    (hc : c.nextCode = d.nextCode + 1) : c.str n = some (f :: tail) := by
  rcases hn.lt_or_eq with hlt | rfl
  · exact (h.ctx.str_inserted h.nextCodeHigh (h.previous hv) hd hc hlt).trans (hpresent hlt)
  · obtain ⟨-, s, rfl, hs⟩ := hnew rfl
    rw [h.ctx.str_new h.nextCodeHigh (h.previous hv) hd hc, hs]
    rfl

/-- A later code: an insertion, then the code becomes the previous code (R145 step 3). -/
theorem DecInv.laterProcessed {p : Params} {d : Dec} (h : DecInv p d) (hv : d.havePrev = true)
    (hw : d.width ≤ p.wmax) {n : Nat} {f : Byte} {tail : List Byte} (hn : n ≤ d.nextCode)
    (hpresent : n < d.nextCode → d.toCtx.str n = some (f :: tail))
    (hnew : n = d.nextCode → f = d.prevFirst ∧
      ∃ s, tail = s ++ [f] ∧ d.toCtx.str d.prevCode = some (f :: s)) (total : Nat) :
    DecInv p { d.extracted total (d.nrbuf + 8) d.width with
      out := d.out ++ (f :: tail)
      dict := d.dict.write d.nextCode ⟨d.prevCode, f⟩
      nextCode := d.nextCode + 1
      width := if d.nextCode + 2 = 2 ^ d.width then d.width + 1 else d.width
      prevCode := n
      prevFirst := f } where
  ctx := (h.ctx.inserted h.nextCodeHigh (h.previous hv) f).of_same rfl rfl rfl rfl rfl
  width := widthOf_succ h.width
  nextCodeHigh := h.width_le_iff.1 hw
  previous := fun _ => Nat.lt_succ_of_le hn
  previousFirst := fun _ => ⟨tail, h.str_processed hv hn hpresent hnew rfl rfl⟩
  noPrevious := fun hf => by cases hv.symm.trans hf
  nrbufLow := by
    have := h.nine_le_width
    exact h.leftover_lt (by simp only; split <;> omega)
  rbufFits := Nat.mod_lt _ (Nat.two_pow_pos _)

/-- `DEC_BYTE` keeps the invariant (R142 to R150). -/
theorem DecInv.byteRead {p : Params} {d d' : Dec} {b : Byte} (h : DecInv p d)
    (hb : decByteBody p b d = .ok d') : DecInv p d' := by
  rcases decByteBody_cases h b with
    ⟨hbits, h'⟩ | ⟨-, -, h'⟩ |
    ⟨-, hw, n, -, -, ⟨-, h'⟩ | ⟨hv, hn, h'⟩ | ⟨hv, hn, f, tail, hpresent, hnew, h'⟩⟩ <;>
    rw [h'] at hb <;> cases hb
  · exact
      { h with
        nrbufLow := hbits
        rbufFits := Dec.appended_lt h.rbufFits b }
  · exact h.firstProcessed hv hn _
  · exact h.laterProcessed hv hw hn hpresent hnew _

/-- Every performed decoder command keeps the decoder's invariant. -/
theorem DecInv.commandDone {p : Params} {d d' : Dec} {i : Instr} (hp : p.wf) (h : DecInv p d)
    (hl : legality d.st i.kind = .performed) (hb : decCommandBody p i d = .ok d') :
    DecInv p d' := by
  cases i with
  | decInit => exact h.started hp (ready_of_init_performed hl) hb
  | decByte b => exact h.byteRead hb
  | decEnd => exact h.finished (active_of_finish_performed hl) hb
  | encInit | encByte _ | encEnd =>
    cases hb
    exact h

/-! ### The machine -/

theorem State.Inv.hardReset {s : State} (h : s.Inv) : s.hardReset.Inv :=
  ⟨h.params, h.enc.hardReset, h.dec.hardReset h.params⟩

theorem State.Inv.illegalCommand {s : State} (h : s.Inv) : s.illegalCommand.Inv :=
  ⟨h.params, h.enc, h.dec⟩

/-- Every command keeps the machine's invariant. -/
theorem State.Inv.exec {i : Instr} {s t : State} (h : s.Inv) (hx : exec i s = .next t) :
    t.Inv := by
  have henc : EncInv s.params t.enc :=
    exec_keeps_enc hx h.enc (fun _ info hf => h.enc.enterFault info hf)
      fun _ hl hb => h.enc.commandDone hl hb
  have hdec : DecInv s.params t.dec :=
    exec_keeps_dec hx h.dec (fun _ info hf => h.dec.enterFault info hf)
      fun _ hl hb => h.dec.commandDone h.params hl hb
  have hparams := exec_params hx
  exact ⟨hparams ▸ h.params, hparams ▸ henc, hparams ▸ hdec⟩

/-- Settles O55: the reset input, an illegal word and every command keep the invariant. -/
theorem stepKeepsInvariant : Obligations.StepKeepsInvariant :=
  fun _ _ => step_keeps (fun _ rest h => h.setPort rest) (fun _ h => h.hardReset)
    (fun _ h => h.illegalCommand) fun _ _ _ h hx => h.exec hx

end Sys2Proof.Machine
end

section
/-!
SUPPORT. Every step keeps what the streams are (spec/10_state.md R37, R47, spec/30_encoding.md R90, R92, R95): one lemma
per way a body completes, then the obligation.
-/

namespace Sys2Proof.Machine

open Sys2Proof

theorem TraceOrdinals.nil : TraceOrdinals [] := nofun

/-! ### The encoder -/

/-- A call that has just started has written nothing (R121). -/
theorem EncStream.started {e e' : Enc} (hb : encInitBody e = .ok e') : EncStream e' := by
  cases hb
  exact
    { idle := nofun
      ordinals := .nil
      active := fun _ => rfl
      count := fun _ => rfl
      done := nofun
      doneCount := nofun }

theorem EncStream.enterFault {p : Params} {e : Enc} (h : EncStream e) (f : FaultCode)
    (info : Nat) : EncStream { e with toCtx := e.toCtx.enterFault p f info } where
  idle := nofun
  ordinals := h.ordinals
  active := nofun
  count := nofun
  done := nofun
  doneCount := nofun

/-- The current match is at most `254 + j` at the ordinal `j` it would be written at (R95). -/
theorem EncStream.curCode_le {p : Params} {e : Enc} (hs : EncStream e) (h : EncInv p e)
    (ha : e.st = .active) (hv : e.curValid = true) : e.curCode ≤ 254 + (e.trace.length + 1) := by
  have := h.current hv
  have := hs.count ha
  omega

/-- Writing the current match keeps the trace's ordinals (R92, R95). -/
theorem EncStream.ordinals_written {p : Params} {e : Enc} (hs : EncStream e) (h : EncInv p e)
    (ha : e.st = .active) (hv : e.curValid = true) :
    TraceOrdinals (e.trace ++ [(e.curCode, e.width)]) :=
  hs.ordinals.snoc (h.width.trans (widthOf_eq_ordinalWidth (hs.count ha)))
    (hs.curCode_le h ha hv)

/-- The current match has no bit above the width it is written at (R45). -/
theorem EncInv.curCode_lt {p : Params} {e : Enc} (h : EncInv p e) (hv : e.curValid = true) :
    e.curCode < 2 ^ e.width :=
  (h.current hv).trans h.nextCode_lt

/-- Writing the current match: the codes' bits are the output's bits, then the pending bits (R47, R90). -/
theorem EncStream.codeBits_written {p : Params} {e : Enc} (hs : EncStream e) (h : EncInv p e)
    (ha : e.st = .active) (hv : e.curValid = true) :
    codeBits (e.trace ++ [(e.curCode, e.width)]) =
      streamBits (e.out ++ leadingBytes ((e.nacc + e.width) / 8)
        (e.acc * 2 ^ e.width + e.curCode) (e.nacc + e.width)) ++
      bitsMSB ((e.acc * 2 ^ e.width + e.curCode) % 2 ^ ((e.nacc + e.width) % 8))
        ((e.nacc + e.width) % 8) := by
  rw [codeBits_append, hs.active ha, streamBits_append, List.append_assoc, List.append_assoc,
    streamBits_written _ _ _ _ (h.curCode_lt hv)]
  simp

/-- `ENC_BYTE` keeps the stream invariant; a miss writes one code and inserts one entry (R124). -/
theorem EncStream.byteConsumed {p : Params} {e e' : Enc} {c : Byte} (hs : EncStream e)
    (h : EncInv p e) (ha : e.st = .active) (hb : encByteBody p c e = .ok e') :
    EncStream e' := by
  rcases encByteBody_cases h c with
    ⟨-, h'⟩ | ⟨k, -, -, -, h'⟩ | ⟨-, -, -, h'⟩ | ⟨hv, -, -, -, h'⟩ <;> rw [h'] at hb <;> cases hb
  · exact { hs with }
  · exact { hs with }
  · exact
      { idle := fun hi => by cases ha.symm.trans hi
        ordinals := hs.ordinals_written h ha hv
        active := fun _ => hs.codeBits_written h ha hv
        count := fun _ => by simp [hs.count ha, Nat.add_assoc]
        done := fun hd => by cases ha.symm.trans hd
        doneCount := fun hd => by cases ha.symm.trans hd }

/-- `Flush` puts the pending bits, then zeros up to the byte, after the output (R69, R193, R194). -/
theorem Enc.streamBits_flush {e : Enc} (hn : e.nacc < 8) :
    streamBits e.flush.out =
      streamBits e.out ++ bitsMSB e.acc e.nacc ++ List.replicate ((8 - e.nacc) % 8) false := by
  rw [Enc.flush_out]
  split
  · rename_i hpos
    have hbits := bitsMSB_shift_zero e.acc e.nacc (8 - e.nacc)
    rw [show e.nacc + (8 - e.nacc) = 8 by omega] at hbits
    simp [byteBits_byteOf, hbits, Nat.mod_eq_of_lt (show 8 - e.nacc < 8 by omega)]
  · rename_i hpos
    simp [Nat.eq_zero_of_not_pos hpos]

/-- During a call the pending bits are as many as the widths leave over whole bytes (R47). -/
theorem nacc_eq_of_codeBits {t : List (Nat × Nat)} {out : List Byte} {acc nacc : Nat}
    (h : codeBits t = streamBits out ++ bitsMSB acc nacc) (hn : nacc < 8) :
    nacc = traceWidths t % 8 ∧ out.length = traceWidths t / 8 := by
  have hlen := congrArg List.length h
  simp only [length_codeBits, List.length_append, length_streamBits, length_bitsMSB] at hlen
  omega

/-- Flushed after the codes of `e.trace`, the output is the codes' bits, then 0 to 7 zero bits (R69, R90). -/
theorem Enc.streamBits_flush_eq_codeBits {e : Enc} (hn : e.nacc < 8)
    (h : codeBits e.trace = streamBits e.out ++ bitsMSB e.acc e.nacc) :
    streamBits e.flush.out =
      codeBits e.trace ++ List.replicate ((8 - traceWidths e.trace % 8) % 8) false := by
  rw [Enc.streamBits_flush hn, ← h, ← (nacc_eq_of_codeBits h hn).1]

/-- `ENC_END` keeps the stream invariant: the final code, then the pad bits (R69, R90, R126). -/
theorem EncStream.finished {p : Params} {e e' : Enc} (hs : EncStream e) (h : EncInv p e)
    (ha : e.st = .active) (hb : encEndBody p e = .ok e') : EncStream e' := by
  rcases encEndBody_cases h ha with
    ⟨-, hn, -, hout, htrace, h'⟩ | ⟨-, -, h'⟩ | ⟨hv, -, h'⟩ <;> rw [h'] at hb <;> cases hb
  · exact
      { idle := nofun
        ordinals := hs.ordinals
        active := nofun
        count := nofun
        done := fun _ => by simp [hout, htrace, traceWidths]
        doneCount := fun _ => .inl ⟨htrace, hn⟩ }
  · have htrace : (e.writeBits e.curCode e.width).trace = e.trace ++ [(e.curCode, e.width)] := by
      rw [Enc.writeBits_trace, bitField_zero_of_lt (h.curCode_lt hv)]
    have hbits : codeBits (e.writeBits e.curCode e.width).trace =
        streamBits (e.writeBits e.curCode e.width).out ++
          bitsMSB (e.writeBits e.curCode e.width).acc (e.writeBits e.curCode e.width).nacc := by
      rw [htrace, hs.codeBits_written h ha hv]
      simp [bitField_zero_of_lt (h.curCode_lt hv), bitField_zero]
    have hflush := Enc.streamBits_flush_eq_codeBits
      (e := { e.writeBits e.curCode e.width with curValid := false })
      (Nat.mod_lt _ (by decide)) hbits
    exact
      { idle := nofun
        ordinals := by
          simp only [Enc.flush_trace, htrace]
          exact hs.ordinals_written h ha hv
        active := nofun
        count := nofun
        done := fun _ => by
          rw [hflush, Enc.flush_trace]
        doneCount := fun _ => .inr (by simp [hs.count ha]; omega) }

/-- Every performed encoder command keeps the encoder's stream invariant. -/
theorem EncStream.commandDone {p : Params} {e e' : Enc} {i : Instr} (hs : EncStream e)
    (h : EncInv p e) (hl : legality e.st i.kind = .performed)
    (hb : encCommandBody p i e = .ok e') : EncStream e' := by
  cases i with
  | encInit => exact .started hb
  | encByte c => exact hs.byteConsumed h (active_of_byte_performed hl) hb
  | encEnd => exact hs.finished h (active_of_finish_performed hl) hb
  | decInit | decByte _ | decEnd =>
    cases hb
    exact hs

/-! ### The decoder -/

/-- A decoder that has read and driven nothing meets the stream invariant. -/
theorem DecStream.of_fresh {d : Dec} (hv : d.havePrev = false) (hout : d.out = [])
    (htrace : d.trace = []) : DecStream d where
  ordinals := htrace ▸ .nil
  count := by simp [hv]
  output := by rw [htrace, hout]; rfl

/-- The stream invariant says nothing of the state, the fault registers, the buffer and the previous code. -/
theorem DecStream.of_same {d d' : Dec} (hs : DecStream d) (hv : d'.havePrev = d.havePrev)
    (hn : d'.nextCode = d.nextCode) (hd : d'.dict = d.dict) (hout : d'.out = d.out)
    (htrace : d'.trace = d.trace) : DecStream d' where
  ordinals := htrace ▸ hs.ordinals
  count := by rw [hv, htrace, hn]; exact hs.count
  output := by
    rw [htrace, hout, ← hs.output]
    exact Ctx.strAll_congr _ fun _ _ => Ctx.str_eq_of_same hd hn

/-- One more code read: its string follows the output, and the codes read before keep theirs (R145). -/
theorem DecStream.output_snoc {p : Params} {d : Dec} (hs : DecStream d) (h : DecInv p d) {c : Ctx}
    {n w : Nat} {x : List Byte} (hold : ∀ k < d.nextCode, c.str k = d.toCtx.str k)
    (hn : c.str n = some x) :
    c.strAll ((d.trace ++ [(n, w)]).map Prod.fst) = some (d.out ++ x) := by
  have hkeep : c.strAll (d.trace.map Prod.fst) = some d.out := by
    rw [← hs.output]
    refine Ctx.strAll_congr _ fun k hk => hold k ?_
    obtain ⟨y, hy⟩ := Ctx.str_of_strAll hs.output k hk
    exact h.ctx.lt_of_str hy
  rw [List.map_append]
  exact Ctx.strAll_append hkeep (by simp [Ctx.strAll, hn])

/-- The first code of a call is ordinal 1, a literal (R37, R145 step 2). -/
theorem DecStream.firstProcessed {p : Params} {d : Dec} (hs : DecStream d) (h : DecInv p d)
    (hv : d.havePrev = false) {total : Nat}
    (hn : total / 2 ^ (d.nrbuf + 8 - d.width) < d.nextCode) :
    DecStream { d.extracted total (d.nrbuf + 8) d.width with
      out := d.out ++ [byteOf (total / 2 ^ (d.nrbuf + 8 - d.width))]
      prevCode := total / 2 ^ (d.nrbuf + 8 - d.width)
      prevFirst := byteOf (total / 2 ^ (d.nrbuf + 8 - d.width))
      havePrev := true } := by
  obtain ⟨hnext, htrace⟩ := h.noPrevious hv
  replace hnext : d.nextCode = 256 := hnext
  have hwidth : d.width = ordinalWidth (d.trace.length + 1) := by
    rw [h.width, hnext, htrace]
    rfl
  exact
    { ordinals := hs.ordinals.snoc hwidth (by rw [htrace]; simp only [List.length_nil]; omega)
      count := fun _ => by simp [Dec.extracted, htrace, hnext]
      output := hs.output_snoc h (fun _ _ => Ctx.str_eq_of_same rfl rfl)
        (Ctx.str_literal _ (by omega)) }

/-- A later code is one insertion (R37, R145 step 3). -/
theorem DecStream.laterProcessed {p : Params} {d : Dec} (hs : DecStream d) (h : DecInv p d)
    (hv : d.havePrev = true) {total : Nat} {f : Byte} {tail : List Byte}
    (hn : total / 2 ^ (d.nrbuf + 8 - d.width) ≤ d.nextCode)
    (hpresent : total / 2 ^ (d.nrbuf + 8 - d.width) < d.nextCode →
      d.toCtx.str (total / 2 ^ (d.nrbuf + 8 - d.width)) = some (f :: tail))
    (hnew : total / 2 ^ (d.nrbuf + 8 - d.width) = d.nextCode → f = d.prevFirst ∧
      ∃ s, tail = s ++ [f] ∧ d.toCtx.str d.prevCode = some (f :: s)) :
    DecStream { d.extracted total (d.nrbuf + 8) d.width with
      out := d.out ++ (f :: tail)
      dict := d.dict.write d.nextCode ⟨d.prevCode, f⟩
      nextCode := d.nextCode + 1
      width := if d.nextCode + 2 = 2 ^ d.width then d.width + 1 else d.width
      prevCode := total / 2 ^ (d.nrbuf + 8 - d.width)
      prevFirst := f } := by
  obtain ⟨-, hcount⟩ := hs.count hv
  have hwidth : d.width = ordinalWidth (d.trace.length + 1) :=
    h.width.trans (widthOf_eq_ordinalWidth (by omega))
  exact
    { ordinals := hs.ordinals.snoc hwidth (by omega)
      count := fun _ => by simp [Dec.extracted, hcount, Nat.add_assoc]
      output := hs.output_snoc h
        (fun _ hk => h.ctx.str_inserted h.nextCodeHigh (h.previous hv) rfl rfl hk)
        (h.str_processed hv hn hpresent hnew rfl rfl) }

/-- `DEC_BYTE` keeps the stream invariant (R142 to R150). -/
theorem DecStream.byteRead {p : Params} {d d' : Dec} {b : Byte} (hs : DecStream d)
    (h : DecInv p d) (hb : decByteBody p b d = .ok d') : DecStream d' := by
  rcases decByteBody_cases h b with
    ⟨-, h'⟩ | ⟨-, -, h'⟩ |
    ⟨-, -, n, rfl, -, ⟨-, h'⟩ | ⟨hv, hn, h'⟩ | ⟨hv, hn, f, tail, hpresent, hnew, h'⟩⟩ <;>
    rw [h'] at hb <;> cases hb
  · exact hs.of_same rfl rfl rfl rfl rfl
  · exact hs.firstProcessed h hv hn
  · exact hs.laterProcessed h hv hn hpresent hnew

/-- Every performed decoder command keeps the decoder's stream invariant. -/
theorem DecStream.commandDone {p : Params} {d d' : Dec} {i : Instr} (hs : DecStream d)
    (h : DecInv p d) (hb : decCommandBody p i d = .ok d') : DecStream d' := by
  cases i with
  | decInit =>
    cases hb
    exact .of_fresh rfl rfl rfl
  | decByte b => exact hs.byteRead h hb
  | decEnd =>
    cases hb
    exact hs.of_same rfl rfl rfl rfl rfl
  | encInit | encByte _ | encEnd =>
    cases hb
    exact hs

/-! ### The machine -/

/-- Before the first call nothing has been written (R21). -/
theorem EncStream.of_idle {e : Enc} (hst : e.st = .idle) (hout : e.out = [])
    (htrace : e.trace = []) : EncStream e where
  idle := fun _ => ⟨hout, htrace⟩
  ordinals := htrace ▸ .nil
  active := by simp [hst]
  count := by simp [hst]
  done := by simp [hst]
  doneCount := by simp [hst]

theorem State.StreamInv.hardReset (s : State) : s.hardReset.StreamInv :=
  ⟨.of_idle rfl rfl rfl, .of_fresh rfl rfl rfl⟩

/-- Every command keeps the machine's stream invariant. -/
theorem State.StreamInv.exec {i : Instr} {s t : State} (hs : s.StreamInv) (h : s.Inv)
    (hx : exec i s = .next t) : t.StreamInv where
  enc := exec_keeps_enc hx hs.enc (fun f info _ => hs.enc.enterFault f info)
    fun _ hl hb => hs.enc.commandDone h.enc hl hb
  dec := exec_keeps_dec hx hs.dec (fun _ _ _ => hs.dec.of_same rfl rfl rfl rfl rfl)
    fun _ _ hb => hs.dec.commandDone h.dec hb

/-- Settles O57: the two invariants together are kept by the reset input, an illegal word and every command. -/
theorem stepKeepsStreamInvariant : Obligations.StepKeepsStreamInvariant := by
  intro s t hinv hstream hstep
  have both : t.Inv ∧ t.StreamInv :=
    step_keeps (P := fun s => s.Inv ∧ s.StreamInv)
      (fun _ rest ⟨hi, henc, hdec⟩ => ⟨hi.setPort rest, henc, hdec⟩)
      (fun s ⟨hi, _⟩ => ⟨hi.hardReset, .hardReset s⟩)
      (fun _ ⟨hi, henc, hdec⟩ => ⟨hi.illegalCommand, henc, hdec⟩)
      (fun _ _ _ ⟨hi, hs⟩ hx => ⟨hi.exec hx, hs.exec hi hx⟩) ⟨hinv, hstream⟩ hstep
  exact both.2

end Sys2Proof.Machine
end

section
/-!
SUPPORT. The reset state and the reset input (spec/10_state.md R42), the ranges of `next_code` and `width` (R22, R23,
R45), the status outputs (R40) and the writer's alignment (R47).
-/

namespace Sys2Proof.Machine

open Sys2Proof

/-! ### Reset (R42) -/

/-- With `next_code` at 256 no dictionary entry holds a value (R24, R241). -/
theorem Ctx.dictRead_of_nextCode_eq {c : Ctx} (h : c.nextCode = 256) (k : Nat) :
    c.dictRead k = none :=
  c.dictRead_of_outside (by omega)

/-- Settles O8: the reset input writes every register; nothing is readable at `next_code` 256. -/
theorem resetInputSetsTable : Obligations.ResetInputSetsTable := by
  intro s rest hport
  refine ⟨_, step_of_port_reset hport, ?_⟩
  simp [Enc.reset, Dec.reset, Ctx.reset, Config.firstCode, Config.w0,
    Ctx.dictRead_of_nextCode_eq]

/-- Settles O9: the reset state's registers are the table's; nothing is readable at `next_code` 256. -/
theorem resetStateHasTableValues : Obligations.ResetStateHasTableValues := by
  simp [Obligations.ResetStateHasTableValues, State.reset, State.resetAt, Enc.reset, Dec.reset,
    Ctx.reset, Config.firstCode, Config.w0, Ctx.dictRead_of_nextCode_eq]

/-- The common registers meet their invariant after reset (R42). -/
theorem CtxInv.reset {p : Params} (hp : p.wf) : CtxInv p Ctx.reset where
  codes := rfl
  filled := le_rfl
  inMemory := (Params.firstCode_lt hp).le
  descends := nofun
  nextCodeLow := le_rfl
  faultRecorded := ⟨nofun, fun hne => absurd rfl hne⟩
  infoZero := fun _ => rfl
  infoFits := Nat.two_pow_pos _

/-- Settles O54: both contexts are as before their first code, with nothing inserted and nothing driven. -/
theorem resetMeetsInvariant : Obligations.ResetMeetsInvariant := fun _ hp =>
  ⟨⟨hp, .of_fresh (.reset hp) rfl rfl rfl rfl rfl rfl rfl,
      .of_fresh hp (.reset hp) rfl rfl rfl rfl rfl rfl⟩,
    .of_idle rfl rfl rfl, .of_fresh rfl rfl rfl⟩

/-! ### The ranges of `next_code` and `width` (R22, R23, R45) -/

/-- Settles O15: `cur_code < next_code < 2 ^ width`. -/
theorem emittedCodeFitsWidth : Obligations.EmittedCodeFitsWidth := fun _ _ h hv =>
  ⟨h.current hv, h.nextCode_lt, bitField_zero_of_lt (h.curCode_lt hv)⟩

/-- The widths at the occupancies of the memory; one above `WMAX` is the last occupancy's alone (R178, R181). -/
theorem widthOf_range {occ wmax : Nat} (hlow : 256 ≤ occ) (hhigh : occ ≤ 2 ^ wmax) :
    9 ≤ widthOf occ ∧ widthOf occ ≤ wmax + 1 ∧ (wmax < widthOf occ ↔ occ = 2 ^ wmax) := by
  refine ⟨widthOf_firstCode.symm.trans_le (bitlen_mono hlow), ?_, ?_⟩
  · rw [widthOf, bitlen_le_iff]
    exact hhigh.trans_lt (Nat.pow_lt_pow_succ (by decide))
  · rw [← Nat.not_le, widthOf, bitlen_le_iff]
    omega

theorem CtxInv.nextCode_le {p : Params} {c : Ctx} (h : CtxInv p c) :
    c.nextCode ≤ 2 ^ p.wmax :=
  h.filled.trans h.inMemory

/-- Settles O16: the two width invariants put `width` where `widthOf_range` says. -/
theorem widthAboveLimitMeansFull : Obligations.WidthAboveLimitMeansFull := by
  constructor
  · intro p e _ h
    have hlow : 256 ≤ e.nextCode := h.ctx.nextCodeLow
    rw [h.width]
    exact ⟨hlow, h.ctx.nextCode_le, widthOf_range hlow h.ctx.nextCode_le⟩
  · intro p d _ h
    have hlow : 256 ≤ d.nextCode := h.ctx.nextCodeLow
    rw [h.width]
    exact ⟨hlow, h.nextCodeHigh, widthOf_range (by omega) h.nextCodeHigh⟩

/-! ### The status outputs (R40) -/

/-- The integer outputs fit their widths in a state that meets the invariant (R26, R40). -/
theorem State.Inv.statusOutputs_fit {s : State} (h : s.Inv) :
    s.enc.finfo < 2 ^ (s.params.wmax + 1) ∧ s.dec.finfo < 2 ^ (s.params.wmax + 1) ∧
    s.enc.nextCode < 2 ^ (s.params.wmax + 1) ∧ s.dec.nextCode < 2 ^ (s.params.wmax + 1) ∧
    (s.params.wmax ≤ 30 → s.enc.width < 2 ^ 5 ∧ s.dec.width < 2 ^ 5 ∧ s.dec.nrbuf < 2 ^ 5) := by
  obtain ⟨henc, hdec⟩ := widthAboveLimitMeansFull
  obtain ⟨-, hnextEnc, -, hwidthEnc, -⟩ := henc _ _ h.params h.enc
  obtain ⟨-, hnextDec, -, hwidthDec, -⟩ := hdec _ _ h.params h.dec
  have hnrbuf := h.dec.nrbufLow
  have hpow : 2 ^ s.params.wmax < 2 ^ (s.params.wmax + 1) := Nat.pow_lt_pow_succ (by decide)
  exact ⟨h.enc.ctx.infoFits, h.dec.ctx.infoFits, by omega, by omega, fun _ => by omega⟩

theorem CtxState.value_eq_iff (st : CtxState) :
    (st.value = 0 ↔ st = .idle) ∧ (st.value = 1 ↔ st = .active) ∧
    (st.value = 2 ↔ st = .done) ∧ (st.value = 3 ↔ st = .fault) := by
  cases st <;> decide

theorem FaultCode.value_eq_iff (f : FaultCode) :
    (f.value = 0 ↔ f = .none) ∧ (f.value = 1 ↔ f = .protocolError) ∧
    (f.value = 2 ↔ f = .corruptCode) ∧ (f.value = 3 ↔ f = .widthOverflow) := by
  cases f <;> decide

/-- Settles O10: the values of the state and fault registers, then the ranges of the integers. -/
theorem statusOutputsShowRegisters : Obligations.StatusOutputsShowRegisters := by
  intro s
  obtain ⟨e0, e1, e2, e3⟩ := s.enc.st.value_eq_iff
  obtain ⟨d0, d1, d2, d3⟩ := s.dec.st.value_eq_iff
  obtain ⟨ef0, ef1, ef2, ef3⟩ := s.enc.fault.value_eq_iff
  obtain ⟨df0, df1, df2, df3⟩ := s.dec.fault.value_eq_iff
  exact ⟨e0, e1, e2, e3, d0, d1, d2, d3, ef0, ef1, ef2, ef3, df0, df1, df2, df3,
    rfl, rfl, rfl, rfl, rfl, rfl, rfl, rfl, State.Inv.statusOutputs_fit⟩

/-! ### The writer's alignment (R47) -/

/-- Settles O42: both sides of the stream invariant have the same number of bits. -/
theorem writerAlignment : Obligations.WriterAlignment := by
  intro p e h hs
  refine ⟨fun ha => nacc_eq_of_codeBits (hs.active ha) h.naccLow, fun hd => ⟨?_, ?_⟩⟩
  · have hlen := congrArg List.length (hs.done hd)
    simp only [length_streamBits, List.length_append, length_codeBits, List.length_replicate]
      at hlen
    omega
  · exact (h.doneEmpty hd).2

end Sys2Proof.Machine
end

section
/-!
SUPPORT. What a command does to its context's state (spec/10_state.md R38), to its dictionary (R22, R177), and what sets
and clears `cmd_fault` (R34).
-/

namespace Sys2Proof.Machine

open Sys2Proof

/-! ### The dictionary grows by insertion alone (R22, R175, R177) -/

/-- The dictionary of `c'` is that of `c`, or that of `c` after one insertion. -/
def Ctx.GrownTo (c c' : Ctx) : Prop :=
  (c'.dict = c.dict ∧ c'.nextCode = c.nextCode) ∨
  (256 ≤ c.nextCode ∧ ∃ entry, c'.dict = c.dict.write c.nextCode entry ∧
    c'.nextCode = c.nextCode + 1)

theorem Ctx.GrownTo.nextCode {c c' : Ctx} (h : c.GrownTo c') :
    c.nextCode ≤ c'.nextCode ∧ c'.nextCode ≤ c.nextCode + 1 := by
  rcases h with ⟨-, hn⟩ | ⟨-, entry, -, hn⟩ <;> omega

theorem Ctx.GrownTo.dictRead {c c' : Ctx} (h : c.GrownTo c') {k : Nat} (hk : k < c.nextCode) :
    c'.dictRead k = c.dictRead k := by
  rcases h with ⟨hd, hn⟩ | ⟨hlow, entry, hd, hn⟩
  · exact Ctx.dictRead_congr hd hn
  · have hread := c.dictRead_inserted entry hlow k
    rw [if_neg hk.ne] at hread
    exact (Ctx.dictRead_congr hd hn).trans hread

theorem Ctx.GrownTo.of_insert {p : Params} {pre : Nat} {b : Byte} {c c' : Ctx}
    (h : c.insert p pre b = .ok c') : c.GrownTo c' ∧ c'.st = c.st := by
  rcases Ctx.insert_cases p pre b c with ⟨hlow, -, h'⟩ | h' <;> rw [h'] at h <;> cases h
  exact ⟨.inr ⟨hlow, _, rfl, rfl⟩, rfl⟩

theorem encMiss_ok {p : Params} {m : Nat} {c : Byte} {e e' : Enc}
    (h : encMiss p m c e = .ok e') : e.toCtx.GrownTo e'.toCtx ∧ e'.st = e.st := by
  unfold encMiss at h
  split at h
  · cases h
  · obtain ⟨ctx, hins, h⟩ := Result.andThen_eq_ok h
    cases h
    obtain ⟨hgrown, hst⟩ := Ctx.GrownTo.of_insert hins
    simpa [Ctx.GrownTo] using And.intro hgrown hst

/-- A completed `ENC_BYTE` stays in the call and inserts at most one entry, in every state (R38, R122). -/
theorem encByteBody_ok {p : Params} {c : Byte} {e e' : Enc} (h : encByteBody p c e = .ok e') :
    e.toCtx.GrownTo e'.toCtx ∧ e'.st = e.st := by
  cases hv : e.curValid with
  | false =>
    cases (encByteBody_empty c hv).symm.trans h
    exact ⟨.inl ⟨rfl, rfl⟩, rfl⟩
  | true =>
    cases hl : e.toCtx.lookup e.curCode c with
    | some k =>
      cases (encByteBody_hit hv hl).symm.trans h
      exact ⟨.inl ⟨rfl, rfl⟩, rfl⟩
    | none => exact encMiss_ok ((encByteBody_miss hv hl).symm.trans h)

/-- A completed `ENC_END` ends the call and inserts nothing, in every state (R126, R127). -/
theorem encEndBody_ok {p : Params} {e e' : Enc} (h : encEndBody p e = .ok e') :
    e.toCtx.GrownTo e'.toCtx ∧ e'.st = .done := by
  obtain ⟨e1, hfinal, h⟩ := Result.andThen_eq_ok h
  cases h
  refine ⟨.inl ?_, rfl⟩
  unfold encFinalCode at hfinal
  split at hfinal
  · cases hfinal
    simp
  · split at hfinal <;> cases hfinal
    simp

theorem processCode_ok {p : Params} {n : Nat} {d d' : Dec} (h : processCode p n d = .ok d') :
    d.toCtx.GrownTo d'.toCtx ∧ d'.st = d.st := by
  unfold processCode at h
  split at h
  · unfold processFirst at h
    split at h <;> cases h
    exact ⟨.inl ⟨rfl, rfl⟩, rfl⟩
  · obtain ⟨resolved, -, h⟩ := Result.andThen_eq_ok h
    obtain ⟨ctx, hins, h⟩ := Result.andThen_eq_ok h
    cases h
    obtain ⟨hgrown, hst⟩ := Ctx.GrownTo.of_insert hins
    simpa [Ctx.GrownTo] using And.intro hgrown hst

/-- A completed `DEC_BYTE` stays in the call and inserts at most one entry, in every state (R38, R142). -/
theorem decByteBody_ok {p : Params} {b : Byte} {d d' : Dec} (h : decByteBody p b d = .ok d') :
    d.toCtx.GrownTo d'.toCtx ∧ d'.st = d.st := by
  simp only [decByteBody] at h
  split at h
  · cases h
    exact ⟨.inl ⟨rfl, rfl⟩, rfl⟩
  · split at h
    · cases h
    · obtain ⟨hgrown, hst⟩ := processCode_ok h
      exact ⟨hgrown, hst⟩

theorem encCommandBody_grown {p : Params} {i : Instr} {e e' : Enc} (hi : i ≠ .encInit)
    (h : encCommandBody p i e = .ok e') : e.toCtx.GrownTo e'.toCtx := by
  cases i with
  | encInit => exact absurd rfl hi
  | encByte c => exact (encByteBody_ok h).1
  | encEnd => exact (encEndBody_ok h).1
  | decInit | decByte _ | decEnd =>
    cases h
    exact .inl ⟨rfl, rfl⟩

theorem decCommandBody_grown {p : Params} {i : Instr} {d d' : Dec} (hi : i ≠ .decInit)
    (h : decCommandBody p i d = .ok d') : d.toCtx.GrownTo d'.toCtx := by
  cases i with
  | decInit => exact absurd rfl hi
  | decByte b => exact (decByteBody_ok h).1
  | decEnd | encInit | encByte _ | encEnd =>
    cases h
    exact .inl ⟨rfl, rfl⟩

/-- Settles O38: fault entry leaves the dictionary, and a completed body but `INIT`'s inserts at most one entry. -/
theorem entriesArePermanent : Obligations.EntriesArePermanent := by
  intro i s t h
  constructor
  · intro hi
    have hgrown : s.enc.toCtx.GrownTo t.enc.toCtx :=
      exec_keeps_enc (Q := fun e => s.enc.toCtx.GrownTo e.toCtx) h (.inl ⟨rfl, rfl⟩)
        (fun _ _ _ => .inl ⟨rfl, rfl⟩) fun _ _ hb => encCommandBody_grown hi hb
    exact ⟨hgrown.nextCode.1, hgrown.nextCode.2, fun _ hk => hgrown.dictRead hk⟩
  · intro hi
    have hgrown : s.dec.toCtx.GrownTo t.dec.toCtx :=
      exec_keeps_dec (Q := fun d => s.dec.toCtx.GrownTo d.toCtx) h (.inl ⟨rfl, rfl⟩)
        (fun _ _ _ => .inl ⟨rfl, rfl⟩) fun _ _ hb => decCommandBody_grown hi hb
    exact ⟨hgrown.nextCode.1, hgrown.nextCode.2, fun _ hk => hgrown.dictRead hk⟩

/-! ### The legality table (R38) -/

/-- The state a performed command that raises nothing leads to (R38). -/
def completedState : CmdKind → CtxState
  | .init => .active
  | .byte => .active
  | .finish => .done

theorem legality_of_ready {st : CtxState} {kind : CmdKind} (h : st = .idle ∨ st = .done)
    (hk : kind ≠ .init) : legality st kind = .notLegal := by
  cases kind with
  | init => exact absurd rfl hk
  | byte | finish => rcases h with rfl | rfl <;> rfl

/-- What the table of R38 says of a context before and after a command of it; `same` says that the command changed
nothing. -/
def FollowsTable (kind : CmdKind) (c c' : Ctx) (same : Prop) : Prop :=
  match legality c.st kind with
  | .ignored => same
  | .notLegal => c'.st = .fault ∧ c'.fault = .protocolError
  | .performed => c'.st = completedState kind ∨ (kind ≠ .init ∧ c'.st = .fault)

/-- The table of R38, row by row. -/
theorem FollowsTable.rows {kind : CmdKind} {c c' : Ctx} {same : Prop}
    (h : FollowsTable kind c c' same) :
    (c.ready → kind = .init → c'.st = .active) ∧
    (c.ready → kind ≠ .init → c'.st = .fault ∧ c'.fault = .protocolError) ∧
    (c.st = .active → kind = .init → c'.st = .fault ∧ c'.fault = .protocolError) ∧
    (c.st = .active → kind = .byte → c'.st = .active ∨ c'.st = .fault) ∧
    (c.st = .active → kind = .finish → c'.st = .done ∨ c'.st = .fault) ∧
    (c.st = .fault → same) := by
  unfold FollowsTable at h
  refine ⟨?_, ?_, ?_, ?_, ?_, ?_⟩
  · rintro (hst | hst) rfl <;> simpa [hst, legality, completedState] using h
  · intro hst hk
    simpa [legality_of_ready hst hk] using h
  · rintro hst rfl
    simpa [hst, legality] using h
  · rintro hst rfl
    simpa [hst, legality, completedState] using h
  · rintro hst rfl
    simpa [hst, legality, completedState] using h
  · intro hst
    simpa [hst, legality] using h

theorem encCommandBody_st {p : Params} {i : Instr} {e e' : Enc} (hi : i.context = .enc)
    (hl : legality e.st i.kind = .performed) (h : encCommandBody p i e = .ok e') :
    e'.st = completedState i.kind := by
  cases i with
  | encInit =>
    cases h
    rfl
  | encByte c => exact (encByteBody_ok h).2.trans (active_of_byte_performed hl)
  | encEnd => exact (encEndBody_ok h).2
  | decInit | decByte _ | decEnd => cases hi

theorem decCommandBody_st {p : Params} {i : Instr} {d d' : Dec} (hi : i.context = .dec)
    (hl : legality d.st i.kind = .performed) (h : decCommandBody p i d = .ok d') :
    d'.st = completedState i.kind := by
  cases i with
  | decByte b => exact (decByteBody_ok h).2.trans (active_of_byte_performed hl)
  | decInit | decEnd =>
    cases h
    rfl
  | encInit | encByte _ | encEnd => cases hi

/-- `INIT` raises nothing when it is performed (R121). -/
theorem encCommandBody_raise_kind {p : Params} {i : Instr} {e : Enc} {f : FaultCode} {info : Nat}
    (h : encCommandBody p i e = .raise f info) : i.kind ≠ .init := by
  cases i with
  | encByte _ | encEnd | decByte _ | decEnd => nofun
  | encInit | decInit => cases h

/-- `INIT` raises nothing when it is performed (R141). -/
theorem decCommandBody_raise_kind {p : Params} {i : Instr} {d : Dec} {f : FaultCode} {info : Nat}
    (h : decCommandBody p i d = .raise f info) : i.kind ≠ .init := by
  cases i with
  | encByte _ | encEnd | decByte _ | decEnd => nofun
  | encInit | decInit => cases h

theorem exec_enc_followsTable {i : Instr} (hi : i.context = .enc) {s t : State}
    (h : exec i s = .next t) : FollowsTable i.kind s.enc.toCtx t.enc.toCtx (t = s) := by
  unfold FollowsTable
  rcases exec_enc_cases hi h with
    ⟨hst, rfl⟩ | ⟨hl, rfl⟩ | ⟨hl, ⟨e, hb, rfl⟩ | ⟨f, info, -, hb, rfl⟩⟩
  · rw [hst]
    rfl
  · rw [hl]
    exact ⟨rfl, rfl⟩
  · rw [hl]
    exact .inl (encCommandBody_st hi hl hb)
  · rw [hl]
    exact .inr ⟨encCommandBody_raise_kind hb, rfl⟩

theorem exec_dec_followsTable {i : Instr} (hi : i.context = .dec) {s t : State}
    (h : exec i s = .next t) : FollowsTable i.kind s.dec.toCtx t.dec.toCtx (t = s) := by
  unfold FollowsTable
  rcases exec_dec_cases hi h with
    ⟨hst, rfl⟩ | ⟨hl, rfl⟩ | ⟨hl, ⟨d, hb, rfl⟩ | ⟨f, info, -, hb, rfl⟩⟩
  · rw [hst]
    rfl
  · rw [hl]
    exact ⟨rfl, rfl⟩
  · rw [hl]
    exact .inl (decCommandBody_st hi hl hb)
  · rw [hl]
    exact .inr ⟨decCommandBody_raise_kind hb, rfl⟩

/-- Settles O43: a command of either context follows the table. -/
theorem legalityTable : Obligations.LegalityTable := fun _ _ _ h =>
  ⟨fun hi => (exec_enc_followsTable hi h).rows, fun hi => (exec_dec_followsTable hi h).rows⟩

/-! ### Legal words by their fields (R97, R98, R102) -/

theorem cmdOp_mkWord (op : BitVec 4) (data : Byte) : cmdOp (mkWord op data) = op :=
  BitVec.extractLsb'_append_eq_left

theorem cmdData_mkWord (op : BitVec 4) (data : Byte) : cmdData (mkWord op data) = data :=
  BitVec.extractLsb'_append_eq_right

theorem mkWord_cmdOp_cmdData (w : CommandWord) : mkWord (cmdOp w) (cmdData w) = w :=
  BitVec.extractLsb'_append_extractLsb' (w := 4) (len := 8)

theorem mkWord_eq_iff (op op' : BitVec 4) (data data' : Byte) :
    mkWord op data = mkWord op' data' ↔ op = op' ∧ data = data' := by
  constructor
  · intro h
    have hop := congrArg cmdOp h
    have hdata := congrArg cmdData h
    rw [cmdOp_mkWord, cmdOp_mkWord] at hop
    rw [cmdData_mkWord, cmdData_mkWord] at hdata
    exact ⟨hop, hdata⟩
  · rintro ⟨rfl, rfl⟩
    rfl

/-- A row whose mask has every bit selects its own word alone (R98). -/
theorem OpcodeRow.selects_full (name : String) (op op' : BitVec 4) (data : Byte) :
    OpcodeRow.selects ⟨name, mkWord op' 0, 0xFFF⟩ (mkWord op data) = true ↔
      op = op' ∧ data = 0 := by
  have hmask : mkWord op data &&& 0xFFF = mkWord op data := BitVec.and_allOnes
  rw [OpcodeRow.selects, hmask, beq_iff_eq, mkWord_eq_iff]

/-- A row whose mask has the bits of `op` alone selects the words of its `op` (R98). -/
theorem OpcodeRow.selects_op (name : String) (op op' : BitVec 4) (data : Byte) :
    OpcodeRow.selects ⟨name, mkWord op' 0, 0xF00⟩ (mkWord op data) = true ↔ op = op' := by
  have hsplit : (0xF00 : CommandWord) = BitVec.allOnes 4 ++ 0#8 := by decide
  have hmask : mkWord op data &&& 0xF00 = mkWord op 0 := by
    rw [hsplit, mkWord, BitVec.and_append, BitVec.and_allOnes, BitVec.and_zero]
    rfl
  rw [OpcodeRow.selects, hmask, beq_iff_eq, mkWord_eq_iff, and_iff_left rfl]

theorem legalWord_mkWord (op : BitVec 4) (data : Byte) :
    legalWord (mkWord op data) = true ↔
      (op = 1 ∧ data = 0) ∨ op = 2 ∨ (op = 3 ∧ data = 0) ∨
      (op = 5 ∧ data = 0) ∨ op = 6 ∨ (op = 7 ∧ data = 0) := by
  rw [← OpcodeRow.selects_full "ENC_INIT", ← OpcodeRow.selects_op "ENC_BYTE" op 2 data,
    ← OpcodeRow.selects_full "ENC_END", ← OpcodeRow.selects_full "DEC_INIT",
    ← OpcodeRow.selects_op "DEC_BYTE" op 6 data, ← OpcodeRow.selects_full "DEC_END"]
  simp only [legalWord, opcodeRows, List.any_cons, List.any_nil, Bool.or_eq_true,
    Bool.false_eq_true, or_false]
  rfl

theorem withZeroData_ok_iff (w : CommandWord) (i : Instr) :
    (∃ j, withZeroData w i = .ok j) ↔ cmdData w = 0 := by
  unfold withZeroData
  split <;> simp_all

/-- The words that decode to a command are the legal ones (R98, R102). -/
theorem legalWord_iff_decode (w : CommandWord) :
    legalWord w = true ↔ ∃ i, decode w = .ok i := by
  conv_lhs => rw [← mkWord_cmdOp_cmdData w, legalWord_mkWord]
  simp only [← BitVec.toNat_inj (x := cmdOp w)]
  unfold decode
  split
  case h_7 => simp_all
  all_goals
    rename_i hop
    simp [hop, withZeroData_ok_iff]

theorem legalWord_of_decode_ok {w : CommandWord} {i : Instr} (h : decode w = .ok i) :
    legalWord w = true :=
  (legalWord_iff_decode w).2 ⟨i, h⟩

theorem legalWord_of_decode_error {w : CommandWord} {r : Reject} (h : decode w = .error r) :
    legalWord w = false := by
  rw [← Bool.not_eq_true, legalWord_iff_decode]
  rintro ⟨i, hi⟩
  cases h.symm.trans hi

/-! ### `cmd_fault` (R34) -/

theorem exec_cmdFault {i : Instr} {s t : State} (h : exec i s = .next t) :
    t.cmdFault = s.cmdFault := by
  obtain ⟨-, -, hcmd, -⟩ := commandsKeepToTheirContext i s t h
  exact hcmd

/-- Settles O48, by the event the step takes. -/
theorem cmdFaultIsSticky : Obligations.CmdFaultIsSticky := by
  intro s t h
  rcases step_cases h with
    ⟨hport, rfl⟩ | ⟨rest, hport, rfl⟩ | ⟨w, rest, hport, ⟨r, hw, rfl⟩ | ⟨i, hw, hi⟩⟩
  · simp [hport]
  · simp [hport]
  · simp [hport, legalWord_of_decode_error hw]
  · simp [hport, legalWord_of_decode_ok hw, exec_cmdFault hi]

end Sys2Proof.Machine
end

section
/-!
SUPPORT. What holds no value is never read (spec/10_state.md R24, R42, spec/93_implementation_defined.md P5): every
operation does the same, up to what is readable, on a state and on its readable part; so does every step.
-/

namespace Sys2Proof.Machine

open Sys2Proof

/-! ### Results and outcomes, seen through a view of the value they hold -/

/-- The result with its value seen through `v`. -/
def Result.view {α β : Type} (v : α → β) (r : Result α) : Result β :=
  r.andThen fun a => .ok (v a)

@[simp] theorem Result.view_ok {α β : Type} (v : α → β) (a : α) :
    Result.view v (.ok a) = .ok (v a) := rfl

/-- Results with one view, continued by functions that do the same on values with one view, have one view. -/
theorem Result.view_andThen {α β γ δ : Type} {v : α → β} {w : γ → δ} {r r' : Result α}
    {g g' : α → Result γ} (h : r.view v = r'.view v)
    (hg : ∀ a a', v a = v a' → (g a).view w = (g' a').view w) :
    (r.andThen g).view w = (r'.andThen g').view w := by
  cases r <;> cases r' <;> injection h
  case ok.ok a a' hv => exact hg a a' hv
  case raise.raise hf hi =>
    subst hf hi
    rfl
  case stop.stop hr =>
    subst hr
    rfl

/-- The outcome with the readable part of its state. -/
def readableOutcome (o : Host.Outcome State Fault Refusal) : Host.Outcome State Fault Refusal :=
  outcomeThen o fun t => .next t.readable

@[simp] theorem readableOutcome_next (t : State) :
    readableOutcome (.next t) = .next t.readable := rfl

/-! ### The dictionary memory -/

/-- An entry that a filter on codes keeps reads as before. -/
theorem Memory.read_filter (m : Memory) (q : Nat → Bool) {k : Nat} (hk : q k = true) :
    Memory.read (m.filter fun x => q x.1) k = m.read k := by
  induction m with
  | nil => rfl
  | cons x rest ih =>
    by_cases hx : x.1 = k
    · rw [List.filter_cons_of_pos (by rw [hx, hk]), Memory.read, Memory.read, if_pos hx, if_pos hx]
    · rw [Memory.read, if_neg hx, ← ih, List.filter_cons]
      split
      · rw [Memory.read, if_neg hx]
      · rfl

theorem Memory.filter_eq_nil_of_above {m : Memory} {n : Nat} (h : ∀ y ∈ m, n < y.1) {k : Nat}
    (hk : k ≤ n + 1) : m.filter (fun y => decide (y.1 < k)) = [] := by
  refine List.filter_eq_nil_iff.2 fun y hy => ?_
  have := h y hy
  rw [decide_eq_true_eq]
  omega

/-- A canonical memory up to and with a code just written is what was below that code, then the entry. -/
theorem Memory.filter_write {m : Memory} (h : m.wf) (n : Nat) (e : Entry) :
    (m.write n e).filter (fun x => decide (x.1 < n + 1)) =
      m.filter (fun x => decide (x.1 < n)) ++ [(n, e)] := by
  induction m with
  | nil => simp [Memory.write]
  | cons x rest ih =>
    obtain ⟨hx, hrest⟩ := List.pairwise_cons.1 h
    unfold Memory.write
    split
    · rename_i hlt
      have habove : ∀ y ∈ x :: rest, n < y.1 :=
        List.forall_mem_cons.2 ⟨hlt, fun y hy => hlt.trans (hx y hy)⟩
      rw [List.filter_cons_of_pos (by simp), filter_eq_nil_of_above habove le_rfl,
        filter_eq_nil_of_above habove (Nat.le_succ n)]
      rfl
    · split
      · rename_i heq
        have habove : ∀ y ∈ rest, n < y.1 := fun y hy => heq ▸ hx y hy
        rw [List.filter_cons_of_pos (by simp), filter_eq_nil_of_above habove le_rfl,
          List.filter_cons_of_neg (by simp [heq]), filter_eq_nil_of_above habove (Nat.le_succ n)]
        rfl
      · rename_i hnlt hne
        have hlt : x.1 < n := by omega
        rw [List.filter_cons_of_pos (by simp; omega), ih hrest,
          List.filter_cons_of_pos (by simpa using hlt), List.cons_append]

/-! ### The readable part of a context's common registers -/

@[simp] theorem Ctx.readable_fault (c : Ctx) : c.readable.fault = c.fault := rfl

@[simp] theorem Ctx.readable_finfo (c : Ctx) : c.readable.finfo = c.finfo := rfl

@[simp] theorem Ctx.readable_nextCode (c : Ctx) : c.readable.nextCode = c.nextCode := rfl

@[simp] theorem Ctx.readable_width (c : Ctx) : c.readable.width = c.width := rfl

theorem Ctx.readable_dict (c : Ctx) :
    c.readable.dict = c.dict.filter fun x => c.holdsValue x.1 := rfl

@[simp] theorem Ctx.holdsValue_readable (c : Ctx) (k : Nat) :
    c.readable.holdsValue k = c.holdsValue k := rfl

@[simp] theorem Ctx.readable_readable (c : Ctx) : c.readable.readable = c.readable := by
  have hdict : c.readable.readable.dict = c.readable.dict := by
    simp only [Ctx.readable_dict, Ctx.holdsValue_readable, List.filter_filter, Bool.and_self]
  exact congrArg (fun m => { c.readable with dict := m }) hdict

@[simp] theorem Ctx.dictRead_readable (c : Ctx) (k : Nat) :
    c.readable.dictRead k = c.dictRead k := by
  rw [Ctx.dictRead, Ctx.dictRead, Ctx.holdsValue_readable]
  split
  · rename_i hk
    exact Memory.read_filter c.dict c.holdsValue hk
  · rfl

@[simp] theorem Ctx.lookup_readable (c : Ctx) (pre : Nat) (b : Byte) :
    c.readable.lookup pre b = c.lookup pre b := by
  simp only [Ctx.lookup, Ctx.readable_dict, Ctx.holdsValue_readable, List.find?_filter]
  congr 2
  funext x
  cases c.holdsValue x.1 <;> simp [Bool.beq_eq_decide_eq]

theorem Ctx.strWalk_readable (c : Ctx) (fuel k : Nat) :
    c.readable.strWalk fuel k = c.strWalk fuel k := by
  induction fuel generalizing k with
  | zero => rfl
  | succ fuel ih => simp only [Ctx.strWalk, Ctx.dictRead_readable, ih]

@[simp] theorem Ctx.strOrStop_readable (c : Ctx) (k : Nat) :
    c.readable.strOrStop k = c.strOrStop k := by
  rw [Ctx.strOrStop, Ctx.strOrStop, Ctx.str, Ctx.str, Ctx.strWalk_readable]

theorem Ctx.grow_readable (c : Ctx) (occ : Nat) :
    (c.grow occ).readable = c.readable.grow occ := by
  unfold Ctx.grow
  rw [Ctx.readable_width]
  split <;> rfl

/-- With `next_code` at 256 nothing of the memory is readable (R24). -/
theorem Ctx.readable_of_nextCode_eq {c : Ctx} (h : c.nextCode = 256) :
    c.readable = { c with dict := [] } := by
  have hdict : c.readable.dict = [] := by
    refine List.filter_eq_nil_iff.2 fun x _ => ?_
    rw [Ctx.holdsValue_iff]
    omega
  exact congrArg (fun m => { c with dict := m }) hdict

/-- What is readable of a canonical memory after an insertion: what was, then the new entry (R175). -/
theorem Ctx.readable_dict_inserted {c : Ctx} (hwf : c.dict.wf) (hlow : 256 ≤ c.nextCode)
    (e : Entry) :
    Ctx.readable { c with dict := c.dict.write c.nextCode e, nextCode := c.nextCode + 1 } =
      { c with dict := c.readable.dict ++ [(c.nextCode, e)], nextCode := c.nextCode + 1 } := by
  have hsplit : ∀ (m : Memory) (n : Nat),
      m.filter (fun x => decide (Config.firstCode ≤ x.1) && decide (x.1 < n)) =
        (m.filter fun x => decide (x.1 < n)).filter fun x => decide (Config.firstCode ≤ x.1) :=
    fun m n => (List.filter_filter ..).symm
  have hlow' : Config.firstCode ≤ c.nextCode := hlow
  simp only [Ctx.readable, Ctx.holdsValue, hsplit, Memory.filter_write hwf, List.filter_append]
  simp [hlow']

theorem Ctx.readable_wf {c : Ctx} (h : c.dict.wf) : c.readable.dict.wf := h.filter _

/-- `Insert` does the same on the readable part (R175). -/
theorem Ctx.insert_readable (p : Params) (pre : Nat) (b : Byte) {c : Ctx} (hwf : c.dict.wf) :
    (c.readable.insert p pre b).view Ctx.readable = (c.insert p pre b).view Ctx.readable := by
  rw [Ctx.insert, Ctx.insert, Ctx.readable_nextCode]
  split
  · rename_i h
    rw [Result.view_ok, Result.view_ok, Ctx.readable_dict_inserted hwf h.1]
    have hinserted := Ctx.readable_dict_inserted (Ctx.readable_wf hwf) h.1 ⟨pre, b⟩
    rw [Ctx.readable_readable] at hinserted
    exact congrArg Result.ok hinserted
  · rfl

/-! ### The encoder -/

@[simp] theorem Enc.readable_toCtx (e : Enc) : e.readable.toCtx = e.toCtx.readable := rfl

@[simp] theorem Enc.readable_readable (e : Enc) : e.readable.readable = e.readable := by
  cases hv : e.curValid <;> simp [Enc.readable, hv]

@[simp] theorem Enc.currentMatch_readable (e : Enc) :
    e.readable.currentMatch = e.currentMatch := by
  cases hv : e.curValid <;> simp [Enc.currentMatch, Enc.readable, hv]

theorem Enc.flush_readable (e : Enc) : e.flush.readable = e.readable.flush := by
  unfold Enc.flush
  split
  · rename_i h
    exact (if_pos h).symm
  · rename_i h
    exact (if_neg h).symm

theorem encInitBody_readable (e : Enc) :
    (encInitBody e.readable).view Enc.readable = (encInitBody e).view Enc.readable := by
  simp [encInitBody, Enc.readable, Ctx.readable_of_nextCode_eq]

theorem encMiss_readable (p : Params) (m : Nat) (c : Byte) {e : Enc} (hwf : e.dict.wf) :
    (encMiss p m c e.readable).view Enc.readable = (encMiss p m c e).view Enc.readable := by
  unfold encMiss
  rw [Enc.readable_toCtx, Ctx.readable_width, Ctx.readable_nextCode]
  split
  · rfl
  · refine Result.view_andThen (v := Ctx.readable)
      (Ctx.insert_readable p m c (c := (e.writeBits m e.width).toCtx) hwf) fun a a' ha => ?_
    have hn : a.readable.nextCode = a'.readable.nextCode := congrArg Ctx.nextCode ha
    rw [Ctx.readable_nextCode, Ctx.readable_nextCode] at hn
    simp only [Result.view_ok, Enc.readable, Ctx.grow_readable, ha, hn]
    rfl

theorem encByteBody_readable (p : Params) (c : Byte) {e : Enc} (hwf : e.dict.wf) :
    (encByteBody p c e.readable).view Enc.readable = (encByteBody p c e).view Enc.readable := by
  unfold encByteBody
  rw [Enc.currentMatch_readable, Enc.readable_toCtx]
  cases e.currentMatch with
  | none => simp [Enc.readable]
  | some m =>
    simp only [Ctx.lookup_readable]
    cases e.toCtx.lookup m c with
    | some k => simp [Enc.readable]
    | none => exact encMiss_readable p m c hwf

theorem encFinalCode_readable (p : Params) (e : Enc) :
    (encFinalCode p e.readable).view Enc.readable = (encFinalCode p e).view Enc.readable := by
  unfold encFinalCode
  rw [Enc.currentMatch_readable]
  cases e.currentMatch with
  | none => simp
  | some m =>
    have hwrite : e.readable.writeBits m e.width = (e.writeBits m e.width).readable := rfl
    by_cases hw : p.wmax < e.width
    · simp [hw]
    · simp only [Enc.readable_toCtx, Ctx.readable_width, if_neg hw, hwrite, Result.view_ok]
      simp [Enc.readable]

theorem encEndBody_readable (p : Params) (e : Enc) :
    (encEndBody p e.readable).view Enc.readable = (encEndBody p e).view Enc.readable := by
  refine Result.view_andThen (v := Enc.readable) (encFinalCode_readable p e) fun a a' ha => ?_
  have hflush : a.flush.readable = a'.flush.readable := by
    rw [Enc.flush_readable, Enc.flush_readable, ha]
  exact congrArg (fun x : Enc => Result.ok { x with st := .done }) hflush

theorem encCommandBody_readable (p : Params) (i : Instr) {e : Enc} (hwf : e.dict.wf) :
    (encCommandBody p i e.readable).view Enc.readable =
      (encCommandBody p i e).view Enc.readable := by
  cases i with
  | encInit => exact encInitBody_readable e
  | encByte c => exact encByteBody_readable p c hwf
  | encEnd => exact encEndBody_readable p e
  | decInit | decByte _ | decEnd => exact congrArg Result.ok e.readable_readable

/-! ### The decoder -/

@[simp] theorem Dec.readable_toCtx (d : Dec) : d.readable.toCtx = d.toCtx.readable := rfl

@[simp] theorem Dec.readable_readable (d : Dec) : d.readable.readable = d.readable := by
  cases hv : d.havePrev <;> simp [Dec.readable, hv]

@[simp] theorem Dec.previous_readable (d : Dec) : d.readable.previous = d.previous := by
  cases hv : d.havePrev <;> simp [Dec.previous, Dec.readable, hv]

theorem decInitBody_readable (d : Dec) :
    (decInitBody d.readable).view Dec.readable = (decInitBody d).view Dec.readable := by
  simp [decInitBody, Dec.readable, Ctx.readable_of_nextCode_eq]

theorem resolveCode_readable (pc : Nat) (pf : Byte) (n : Nat) (c : Ctx) :
    resolveCode pc pf n c.readable = resolveCode pc pf n c := by
  simp only [resolveCode, Ctx.readable_nextCode, Ctx.strOrStop_readable]

theorem processFirst_readable (n : Nat) (d : Dec) :
    (processFirst n d.readable).view Dec.readable = (processFirst n d).view Dec.readable := by
  unfold processFirst
  rw [Dec.readable_toCtx, Ctx.readable_nextCode]
  split
  · rfl
  · rw [show d.toCtx.readable.emit [byteOf n] = (d.toCtx.emit [byteOf n]).readable from rfl]
    simp [Dec.readable]

theorem processLater_readable (p : Params) (pc : Nat) (pf : Byte) (n : Nat) {d : Dec}
    (hwf : d.dict.wf) :
    (processLater p pc pf n d.readable).view Dec.readable =
      (processLater p pc pf n d).view Dec.readable := by
  unfold processLater
  rw [Dec.readable_toCtx, resolveCode_readable]
  refine Result.view_andThen (v := id) rfl fun resolved resolved' hres => ?_
  obtain rfl : resolved = resolved' := hres
  refine Result.view_andThen (v := Ctx.readable)
    (Ctx.insert_readable p pc _ (c := d.toCtx.emit resolved) hwf) fun a a' ha => ?_
  have hn : a.readable.nextCode = a'.readable.nextCode := congrArg Ctx.nextCode ha
  rw [Ctx.readable_nextCode, Ctx.readable_nextCode] at hn
  simp only [Result.view_ok, Dec.readable, Ctx.grow_readable, ha, hn]

theorem processCode_readable (p : Params) (n : Nat) {d : Dec} (hwf : d.dict.wf) :
    (processCode p n d.readable).view Dec.readable =
      (processCode p n d).view Dec.readable := by
  unfold processCode
  rw [Dec.previous_readable]
  cases d.previous with
  | none => exact processFirst_readable n d
  | some previous => exact processLater_readable p previous.1 previous.2 n hwf

theorem decByteBody_readable (p : Params) (b : Byte) {d : Dec} (hwf : d.dict.wf) :
    (decByteBody p b d.readable).view Dec.readable =
      (decByteBody p b d).view Dec.readable := by
  simp only [decByteBody, show d.readable.appendByte b = (d.appendByte b).readable from rfl]
  rw [show (d.appendByte b).readable.nrbuf = (d.appendByte b).nrbuf from rfl,
    show (d.appendByte b).readable.width = (d.appendByte b).width from rfl]
  split
  · simp
  · split
    · rfl
    · exact processCode_readable p _ (d := ((d.appendByte b).extractCode d.width).2) hwf

theorem decCommandBody_readable (p : Params) (i : Instr) {d : Dec} (hwf : d.dict.wf) :
    (decCommandBody p i d.readable).view Dec.readable =
      (decCommandBody p i d).view Dec.readable := by
  cases i with
  | decInit => exact decInitBody_readable d
  | decByte b => exact decByteBody_readable p b hwf
  | decEnd =>
    exact congrArg (fun x : Dec => Result.ok { x with st := .done }) d.readable_readable
  | encInit | encByte _ | encEnd => exact congrArg Result.ok d.readable_readable

/-! ### The machine -/

@[simp] theorem State.readable_readable (s : State) : s.readable.readable = s.readable := by
  simp [State.readable]

theorem State.enterEncFault_readable (s : State) (f : FaultCode) (info : Nat) :
    (s.enterEncFault f info).readable = s.readable.enterEncFault f info := rfl

theorem State.enterDecFault_readable (s : State) (f : FaultCode) (info : Nat) :
    (s.enterDecFault f info).readable = s.readable.enterDecFault f info := rfl

/-- A command does the same on the readable part when its body does. -/
theorem State.onEnc_readable {kind : CmdKind} {word : CommandWord} {body : Enc → Result Enc}
    {s : State} (h : (body s.enc.readable).view Enc.readable = (body s.enc).view Enc.readable) :
    readableOutcome (s.readable.onEnc kind word body) =
      readableOutcome (s.onEnc kind word body) := by
  unfold State.onEnc
  rw [show s.readable.enc = s.enc.readable from rfl, show s.enc.readable.st = s.enc.st from rfl]
  cases legality s.enc.st kind with
  | ignored => simp
  | notLegal => simp [State.enterEncFault_readable]
  | performed =>
    cases hr : body s.enc.readable <;> cases hr' : body s.enc <;> rw [hr, hr'] at h <;>
      injection h
    case ok.ok e e' he => simp [State.readable, he]
    case raise.raise f info f' info' hf hinfo => simp [State.enterEncFault_readable, hf, hinfo]
    case stop.stop r r' hstop => rw [hstop]

/-- A command does the same on the readable part when its body does. -/
theorem State.onDec_readable {kind : CmdKind} {word : CommandWord} {body : Dec → Result Dec}
    {s : State} (h : (body s.dec.readable).view Dec.readable = (body s.dec).view Dec.readable) :
    readableOutcome (s.readable.onDec kind word body) =
      readableOutcome (s.onDec kind word body) := by
  unfold State.onDec
  rw [show s.readable.dec = s.dec.readable from rfl, show s.dec.readable.st = s.dec.st from rfl]
  cases legality s.dec.st kind with
  | ignored => simp
  | notLegal => simp [State.enterDecFault_readable]
  | performed =>
    cases hr : body s.dec.readable <;> cases hr' : body s.dec <;> rw [hr, hr'] at h <;>
      injection h
    case ok.ok d d' hd => simp [State.readable, hd]
    case raise.raise f info f' info' hf hinfo => simp [State.enterDecFault_readable, hf, hinfo]
    case stop.stop r r' hstop => rw [hstop]

theorem exec_readable (i : Instr) {s : State} (henc : s.enc.dict.wf) (hdec : s.dec.dict.wf) :
    readableOutcome (exec i s.readable) = readableOutcome (exec i s) := by
  cases hi : i.context with
  | enc =>
    rw [exec_of_context_enc hi, exec_of_context_enc hi]
    exact State.onEnc_readable (encCommandBody_readable s.params i henc)
  | dec =>
    rw [exec_of_context_dec hi, exec_of_context_dec hi]
    exact State.onDec_readable (decCommandBody_readable s.params i hdec)

theorem State.hardReset_readable (s : State) :
    s.readable.hardReset.readable = s.hardReset.readable := by
  have hfirst : Ctx.reset.nextCode = 256 := rfl
  simp [State.readable, Enc.readable, Dec.readable, Enc.reset, Dec.reset,
    Ctx.readable_of_nextCode_eq, hfirst, State.hardReset]

/-- A step does the same on the readable part of a state. -/
theorem step_readable {s : State} (henc : s.enc.dict.wf) (hdec : s.dec.dict.wf) :
    readableOutcome (step s.readable) = readableOutcome (step s) := by
  have hport' : s.readable.port = s.port := rfl
  cases hport : s.port with
  | nil =>
    rw [step_of_port_nil hport, step_of_port_nil (hport'.trans hport)]
    simp
  | cons event rest =>
    cases event with
    | reset =>
      rw [step_of_port_reset hport, step_of_port_reset (hport'.trans hport)]
      exact congrArg Host.Outcome.next (State.hardReset_readable { s with port := rest })
    | command w =>
      rw [step_of_port_command hport, step_of_port_command (hport'.trans hport)]
      cases hw : decode w with
      | error r =>
        rw [State.acceptWord_of_error hw, State.acceptWord_of_error hw]
        exact congrArg Host.Outcome.next
          (State.readable_readable (State.illegalCommand { s with port := rest }))
      | ok i =>
        rw [State.acceptWord_of_ok hw, State.acceptWord_of_ok hw]
        exact exec_readable i (s := { s with port := rest }) henc hdec

/-- Settles O53: both steps are, up to what is readable, the step of the one readable part. -/
theorem valuelessStateIsNeverRead : Obligations.ValuelessStateIsNeverRead := by
  intro s t hs ht hst
  obtain ⟨s', hs'⟩ := stepAlwaysAnswers s hs
  obtain ⟨t', ht'⟩ := stepAlwaysAnswers t ht
  have hsteps : Host.Outcome.next s'.readable = Host.Outcome.next t'.readable :=
    calc Host.Outcome.next s'.readable
        = readableOutcome (step s) := by rw [hs', readableOutcome_next]
      _ = readableOutcome (step s.readable) :=
          (step_readable hs.enc.ctx.dict_wf hs.dec.ctx.dict_wf).symm
      _ = readableOutcome (step t.readable) := by rw [hst]
      _ = readableOutcome (step t) := step_readable ht.enc.ctx.dict_wf ht.dec.ctx.dict_wf
      _ = Host.Outcome.next t'.readable := by rw [ht', readableOutcome_next]
  exact ⟨s', t', hs', ht', Host.Outcome.next.inj hsteps⟩

end Sys2Proof.Machine
end

section
/-!
SUPPORT. The proof of the statement about the output and the trace (spec/20_memory.md R63, spec/10_state.md R27): each
operation a body is made of appends, so each body but `INIT`'s does.
-/

namespace Sys2Proof.Machine

open Sys2Proof

/-! ### What the operations append (R27, R63) -/

/-- Nothing of the output or the trace of `c` is withdrawn in `c'`. -/
def Ctx.AppendedTo (c c' : Ctx) : Prop := c.out <+: c'.out ∧ c.trace <+: c'.trace

theorem Ctx.AppendedTo.of_same {c c' : Ctx} (hout : c'.out = c.out) (htrace : c'.trace = c.trace) :
    c.AppendedTo c' := by
  rw [Ctx.AppendedTo, hout, htrace]
  exact ⟨List.prefix_rfl, List.prefix_rfl⟩

theorem Ctx.AppendedTo.refl (c : Ctx) : c.AppendedTo c := .of_same rfl rfl

theorem Ctx.AppendedTo.trans {a b c : Ctx} (hab : a.AppendedTo b) (hbc : b.AppendedTo c) :
    a.AppendedTo c :=
  ⟨hab.1.trans hbc.1, hab.2.trans hbc.2⟩

theorem Ctx.AppendedTo.emit (c : Ctx) (x : List Byte) : c.AppendedTo (c.emit x) :=
  ⟨List.prefix_append _ _, List.prefix_rfl⟩

theorem Ctx.AppendedTo.grow (c : Ctx) (occ : Nat) : c.AppendedTo (c.grow occ) :=
  .of_same (c.grow_out occ) (c.grow_trace occ)

theorem Ctx.AppendedTo.of_insert {p : Params} {pre : Nat} {b : Byte} {c c' : Ctx}
    (h : c.insert p pre b = .ok c') : c.AppendedTo c' := by
  rcases Ctx.insert_cases p pre b c with ⟨-, -, h'⟩ | h' <;> rw [h'] at h <;> cases h
  exact .of_same rfl rfl

theorem Ctx.AppendedTo.writeBits (e : Enc) (v w : Nat) :
    e.toCtx.AppendedTo (e.writeBits v w).toCtx :=
  ⟨List.prefix_append _ _, List.prefix_append _ _⟩

theorem Ctx.AppendedTo.flush (e : Enc) : e.toCtx.AppendedTo e.flush.toCtx := by
  refine ⟨?_, by rw [Enc.flush_trace]⟩
  rw [Enc.flush_out]
  split
  · exact List.prefix_append _ _
  · exact List.prefix_rfl

theorem Ctx.AppendedTo.extractCode (d : Dec) (w : Nat) :
    d.toCtx.AppendedTo (d.extractCode w).2.toCtx :=
  ⟨List.prefix_rfl, List.prefix_append _ _⟩

/-! ### What the bodies append, in every state -/

theorem encMiss_appended {p : Params} {m : Nat} {c : Byte} {e e' : Enc}
    (h : encMiss p m c e = .ok e') : e.toCtx.AppendedTo e'.toCtx := by
  unfold encMiss at h
  split at h
  · cases h
  · obtain ⟨ctx, hins, h⟩ := Result.andThen_eq_ok h
    cases h
    exact (Ctx.AppendedTo.writeBits e m e.width).trans
      ((Ctx.AppendedTo.of_insert hins).trans (.grow ctx ctx.nextCode))

theorem encByteBody_appended {p : Params} {c : Byte} {e e' : Enc}
    (h : encByteBody p c e = .ok e') : e.toCtx.AppendedTo e'.toCtx := by
  cases hv : e.curValid with
  | false =>
    cases (encByteBody_empty c hv).symm.trans h
    exact .of_same rfl rfl
  | true =>
    cases hl : e.toCtx.lookup e.curCode c with
    | some k =>
      cases (encByteBody_hit hv hl).symm.trans h
      exact .of_same rfl rfl
    | none => exact encMiss_appended ((encByteBody_miss hv hl).symm.trans h)

theorem encFinalCode_appended {p : Params} {e e' : Enc} (h : encFinalCode p e = .ok e') :
    e.toCtx.AppendedTo e'.toCtx := by
  unfold encFinalCode at h
  split at h
  · cases h
    exact .refl e.toCtx
  · split at h <;> cases h
    exact .writeBits e _ e.width

theorem encEndBody_appended {p : Params} {e e' : Enc} (h : encEndBody p e = .ok e') :
    e.toCtx.AppendedTo e'.toCtx := by
  obtain ⟨e1, hfinal, h⟩ := Result.andThen_eq_ok h
  cases h
  exact (encFinalCode_appended hfinal).trans (.flush e1)

theorem processCode_appended {p : Params} {n : Nat} {d d' : Dec}
    (h : processCode p n d = .ok d') : d.toCtx.AppendedTo d'.toCtx := by
  unfold processCode at h
  split at h
  · unfold processFirst at h
    split at h <;> cases h
    exact .emit d.toCtx [byteOf n]
  · obtain ⟨resolved, -, h⟩ := Result.andThen_eq_ok h
    obtain ⟨ctx, hins, h⟩ := Result.andThen_eq_ok h
    cases h
    exact (Ctx.AppendedTo.emit d.toCtx resolved).trans
      ((Ctx.AppendedTo.of_insert hins).trans (.grow ctx (ctx.nextCode + 1)))

theorem decByteBody_appended {p : Params} {b : Byte} {d d' : Dec}
    (h : decByteBody p b d = .ok d') : d.toCtx.AppendedTo d'.toCtx := by
  simp only [decByteBody] at h
  split at h
  · cases h
    exact .of_same rfl rfl
  · split at h
    · cases h
    · exact (Ctx.AppendedTo.extractCode (d.appendByte b) (d.appendByte b).width).trans
        (processCode_appended h)

theorem encCommandBody_appended {p : Params} {i : Instr} {e e' : Enc} (hi : i ≠ .encInit)
    (h : encCommandBody p i e = .ok e') : e.toCtx.AppendedTo e'.toCtx := by
  cases i with
  | encInit => exact absurd rfl hi
  | encByte c => exact encByteBody_appended h
  | encEnd => exact encEndBody_appended h
  | decInit | decByte _ | decEnd =>
    cases h
    exact .refl e.toCtx

theorem decCommandBody_appended {p : Params} {i : Instr} {d d' : Dec} (hi : i ≠ .decInit)
    (h : decCommandBody p i d = .ok d') : d.toCtx.AppendedTo d'.toCtx := by
  cases i with
  | decInit => exact absurd rfl hi
  | decByte b => exact decByteBody_appended h
  | decEnd | encInit | encByte _ | encEnd =>
    cases h
    exact .of_same rfl rfl

/-- Settles O52: fault entry leaves the output and the trace, and a completed body but `INIT`'s only appends. -/
theorem outputsAreAppendOnly : Obligations.OutputsAreAppendOnly := by
  intro i s t h
  constructor
  · intro hi
    exact exec_keeps_enc (Q := fun e => s.enc.toCtx.AppendedTo e.toCtx) h (.refl s.enc.toCtx)
      (fun _ _ _ => .of_same rfl rfl) fun _ _ hb => encCommandBody_appended hi hb
  · intro hi
    exact exec_keeps_dec (Q := fun d => s.dec.toCtx.AppendedTo d.toCtx) h (.refl s.dec.toCtx)
      (fun _ _ _ => .of_same rfl rfl) fun _ _ hb => decCommandBody_appended hi hb

end Sys2Proof.Machine
end

section
/-!
SUPPORT. The command word (spec/30_encoding.md R97, R98, R100, R102): decoding and encoding, by the two fields of a word,
and which words are illegal.
-/

namespace Sys2Proof.Machine

open Sys2Proof

/-! ### Decoding and encoding (R97, R98, R100) -/

theorem withZeroData_eq_ok_iff (w : CommandWord) (i j : Instr) :
    withZeroData w i = .ok j ↔ cmdData w = 0 ∧ i = j := by
  unfold withZeroData
  split <;> simp_all

theorem withZeroData_eq_error_iff (w : CommandWord) (i : Instr) (r : Reject) :
    withZeroData w i = .error r ↔ cmdData w ≠ 0 ∧ r = .dataNotZero := by
  unfold withZeroData
  split <;> simp_all [eq_comm]

/-- Decoding gives back every command, with its operand (R98, R100). -/
theorem decode_encode (i : Instr) : decode (encode i) = .ok i := by
  cases i with
  | encInit | encEnd | decInit | decEnd =>
    simp [decode, encode, cmdOp_mkWord, cmdData_mkWord, withZeroData]
  | encByte c | decByte c => simp [decode, encode, cmdOp_mkWord, cmdData_mkWord]

/-- A word with these two fields. -/
theorem mkWord_eq_of_fields {w : CommandWord} {op : BitVec 4} {data : Byte}
    (hop : (cmdOp w).toNat = op.toNat) (hdata : cmdData w = data) : mkWord op data = w := by
  rw [← BitVec.eq_of_toNat_eq hop, ← hdata, mkWord_cmdOp_cmdData]

/-- A word that decodes is the word of what it decodes to: by its `op`, then by its `data` (R98). -/
theorem encode_of_decode_eq_ok {w : CommandWord} {i : Instr} (h : decode w = .ok i) :
    encode i = w := by
  unfold decode at h
  split at h
  case h_2 hop | h_5 hop =>
    cases h
    exact mkWord_eq_of_fields hop rfl
  case h_7 => cases h
  all_goals
    rename_i hop
    obtain ⟨hdata, rfl⟩ := (withZeroData_eq_ok_iff _ _ _).1 h
    exact mkWord_eq_of_fields hop hdata

/-- Settles O3: decoding undoes encoding, and a word that decodes was encoded. -/
theorem decodeEncodeAgree : Obligations.DecodeEncodeAgree := by
  intro w i
  constructor
  · exact encode_of_decode_eq_ok
  · rintro rfl
    exact decode_encode i

/-- The word of an `op` and a `data` field as a number (R97). -/
theorem ofNat_eq_mkWord (op : Nat) {data : Nat} (h : data < 256) :
    BitVec.ofNat 12 (256 * op + data) = mkWord (BitVec.ofNat 4 op) (BitVec.ofNat 8 data) := by
  apply BitVec.eq_of_toNat_eq
  rw [mkWord, BitVec.toNat_append, BitVec.toNat_ofNat, BitVec.toNat_ofNat, BitVec.toNat_ofNat,
    Nat.mod_eq_of_lt (show data < 2 ^ 8 from h), Nat.shiftLeft_eq, mul_comm (op % 2 ^ 4),
    ← Nat.two_pow_add_eq_or_of_lt (show data < 2 ^ 8 from h)]
  omega

theorem ofNat_add_byte (op : Nat) (c : Byte) :
    BitVec.ofNat 12 (256 * op + c.toNat) = mkWord (BitVec.ofNat 4 op) c := by
  rw [ofNat_eq_mkWord op c.isLt, BitVec.ofNat_toNat, BitVec.setWidth_eq]

/-- Settles O1: each row's word is its command's word. -/
theorem tableWordsDecode : Obligations.TableWordsDecode := by
  refine ⟨decode_encode .encInit, fun c => ?_, decode_encode .encEnd, decode_encode .decInit,
    fun b => ?_, decode_encode .decEnd⟩
  · exact (congrArg decode (ofNat_add_byte 2 c)).trans (decode_encode (.encByte c))
  · exact (congrArg decode (ofNat_add_byte 6 b)).trans (decode_encode (.decByte b))

/-! ### Illegal words (R102) -/

theorem cmdOp_toNat (w : CommandWord) : (cmdOp w).toNat = w.toNat / 256 := by
  have := w.isLt
  rw [cmdOp, BitVec.extractLsb'_toNat, Nat.shiftRight_eq_div_pow]
  omega

theorem cmdData_toNat (w : CommandWord) : (cmdData w).toNat = w.toNat % 256 := by
  rw [cmdData, BitVec.extractLsb'_toNat, Nat.shiftRight_zero]

theorem cmdData_eq_zero_iff (w : CommandWord) : cmdData w = 0 ↔ w.toNat % 256 = 0 := by
  rw [← cmdData_toNat, ← BitVec.toNat_inj]
  rfl

/-- The words rejected for their `op` (R102). -/
theorem decode_eq_illegalOp_iff (w : CommandWord) :
    decode w = .error .illegalOp ↔
      w.toNat / 256 = 0 ∨ w.toNat / 256 = 4 ∨ 8 ≤ w.toNat / 256 := by
  rw [← cmdOp_toNat]
  unfold decode
  split
  case h_7 =>
    simp only [imp_false, true_iff] at *
    omega
  all_goals
    rename_i hop
    simp [hop, withZeroData_eq_error_iff]

/-- The words rejected for their `data` (R102). -/
theorem decode_eq_dataNotZero_iff (w : CommandWord) :
    decode w = .error .dataNotZero ↔
      (w.toNat / 256 = 1 ∨ w.toNat / 256 = 3 ∨ w.toNat / 256 = 5 ∨ w.toNat / 256 = 7) ∧
        w.toNat % 256 ≠ 0 := by
  rw [← cmdOp_toNat, ne_eq, ← cmdData_eq_zero_iff]
  unfold decode
  split
  case h_7 => simp_all
  all_goals
    rename_i hop
    simp [hop, withZeroData_eq_error_iff]

/-- The illegal words are the rejected ones (R102). -/
theorem decode_eq_error_iff (w : CommandWord) :
    (∃ r, decode w = .error r) ↔ legalWord w = false := by
  rw [← Bool.not_eq_true, legalWord_iff_decode]
  cases decode w <;> simp

/-- Of the 256 words of one `op`, a `BYTE` command has all, an `INIT` or `END` command one, and any other `op` none
(R98). -/
theorem countP_legalWord_op (op : BitVec 4) :
    (List.range 256).countP (fun data => legalWord (mkWord op (BitVec.ofNat 8 data))) =
      if op = 2 ∨ op = 6 then 256 else if op = 1 ∨ op = 3 ∨ op = 5 ∨ op = 7 then 1 else 0 := by
  split_ifs with hbyte hzero
  · refine (List.countP_eq_length.2 fun data _ => (legalWord_mkWord op _).2 ?_).trans
      List.length_range
    tauto
  · refine (List.countP_congr fun data hdata => ?_).trans (List.count_range (a := 0))
    have hdata0 : BitVec.ofNat 8 data = 0 ↔ data = 0 := by
      rw [← BitVec.toNat_inj, BitVec.toNat_ofNat,
        Nat.mod_eq_of_lt (show data < 2 ^ 8 from List.mem_range.1 hdata)]
      rfl
    rw [legalWord_mkWord, hdata0, beq_iff_eq]
    tauto
  · refine List.countP_eq_zero.2 fun data _ hlegal => ?_
    have := (legalWord_mkWord op _).1 hlegal
    tauto

/-- `m` blocks of `n` numbers each. -/
theorem range_mul_eq_flatMap (m n : Nat) :
    List.range (m * n) = (List.range m).flatMap fun a => (List.range n).map (n * a + ·) := by
  induction m with
  | zero => simp
  | succ m ih => simp [Nat.succ_mul, List.range_add, List.range_succ, ih, mul_comm n m]

/-- 516 words match a row (R102): summed over the 16 values of `op`. -/
theorem length_filter_legalWord :
    ((List.range 4096).filter (fun n => legalWord (BitVec.ofNat 12 n))).length = 516 := by
  have hop (op : Nat) :
      ((List.range 256).map (256 * op + ·)).countP (fun n => legalWord (BitVec.ofNat 12 n)) =
        (List.range 256).countP
          (fun data => legalWord (mkWord (BitVec.ofNat 4 op) (BitVec.ofNat 8 data))) := by
    rw [List.countP_map]
    refine List.countP_congr fun data hdata => ?_
    rw [Function.comp_apply, ofNat_eq_mkWord op (List.mem_range.1 hdata)]
  rw [← List.countP_eq_length_filter, show 4096 = 16 * 256 from rfl, range_mul_eq_flatMap,
    List.countP_flatMap]
  simp only [Function.comp_def, hop, countP_legalWord_op]
  decide

theorem length_filter_not_range (n : Nat) (f : Nat → Bool) :
    ((List.range n).filter (fun k => !f k)).length = n - ((List.range n).filter f).length := by
  have hsum := List.length_eq_length_filter_add (l := List.range n) f
  rw [List.length_range] at hsum
  omega

/-- The other words match none (R102). -/
theorem length_filter_not_legalWord :
    ((List.range 4096).filter (fun n => !legalWord (BitVec.ofNat 12 n))).length = 3580 := by
  rw [length_filter_not_range, length_filter_legalWord]

theorem State.acceptWord_of_not_legalWord {w : CommandWord} (h : legalWord w = false)
    (s : State) : s.acceptWord w = .next { s with cmdFault := true } := by
  obtain ⟨r, hr⟩ := (decode_eq_error_iff w).2 h
  exact State.acceptWord_of_error hr s

/-- Settles O4: the two classes by the word's fields, the counts by `op`, and the effect of a rejected word. -/
theorem illegalWordsAreRejected : Obligations.IllegalWordsAreRejected := fun w =>
  ⟨decode_eq_illegalOp_iff w, decode_eq_dataNotZero_iff w, decode_eq_error_iff w,
    length_filter_legalWord, length_filter_not_legalWord,
    State.acceptWord_of_not_legalWord⟩

/-- Settles O2: six words are the words of their commands, the last two are of the two illegal classes. -/
theorem sampleWordsDecode : Obligations.SampleWordsDecode :=
  ⟨decode_encode .encInit, decode_encode (.encByte 0x41), decode_encode .encEnd,
    decode_encode .decInit, decode_encode (.decByte 0xC0), decode_encode .decEnd,
    (decode_eq_dataNotZero_iff _).2 (by decide), (decode_eq_illegalOp_iff _).2 (by decide)⟩

end Sys2Proof.Machine
end

section
/-!
SUPPORT. Ordinals, the packed stream of an encode call and the four code classes (spec/30_encoding.md R90, R92, R94,
R95).
-/

namespace Sys2Proof.Machine

open Sys2Proof

/-! ### The ordinals of a width (R92) -/

theorem bitlen_eq_succ_iff (n w : Nat) : bitlen n = w + 1 ↔ 2 ^ w ≤ n ∧ n < 2 ^ (w + 1) := by
  have hlow := bitlen_le_iff n w
  have hhigh := bitlen_le_iff n (w + 1)
  omega

/-- Settles O32: the numbers `255 + j` of `w` bits. -/
theorem ordinalWidthTable : Obligations.OrdinalWidthTable := by
  intro w j hw hj
  obtain ⟨v, rfl⟩ : ∃ v, w = v + 1 := ⟨w - 1, by omega⟩
  have hpow : 2 ^ 8 ≤ 2 ^ v := Nat.pow_le_pow_right (by decide) (by omega)
  rw [ordinalWidth, bitlen_eq_succ_iff, Nat.add_sub_cancel, pow_succ]
  omega

/-! ### The packed stream of an encode call (R90) -/

/-- What every command keeps, a script keeps. -/
theorem execAll_keeps {P : State → Prop} (hP : ∀ i s t, P s → exec i s = .next t → P t)
    {l : List Instr} {s t : State} (hs : P s) (h : execAll l s = .next t) : P t := by
  induction l generalizing s with
  | nil =>
    cases h
    exact hs
  | cons i rest ih =>
    rw [execAll] at h
    cases hi : exec i s with
    | next s' =>
      rw [hi] at h
      exact ih (hP i s s' hs hi) h
    | fault r | refused r =>
      rw [hi] at h
      cases h

/-- Every command keeps the encoder's stream invariant; nothing is asked of the decoder's. -/
theorem exec_keeps_encStream {i : Instr} {s t : State} (h : s.Inv) (hs : EncStream s.enc)
    (hx : exec i s = .next t) : EncStream t.enc :=
  exec_keeps_enc hx hs (fun f info _ => hs.enterFault f info)
    fun _ hl hb => hs.commandDone h.enc hl hb

/-- Between calls `ENC_INIT` is performed, and the call it starts has written nothing (R121). -/
theorem exec_encInit_of_ready {s : State} (h : s.enc.toCtx.ready) :
    ∃ e, EncStream e ∧ exec .encInit s = .next { s with enc := e } := by
  have hl : legality s.enc.st .init = .performed := by rcases h with h | h <;> rw [h] <;> rfl
  refine ⟨_, .started (e := s.enc) rfl, ?_⟩
  rw [exec_of_context_enc rfl, State.onEnc]
  simp only [Instr.kind, hl]
  rfl

/-- An encode call leaves the encoder's stream as the stream invariant has it, whatever was written before the call. -/
theorem inv_encStream_of_encodeScript {s t : State} {input : List Byte} (h : s.Inv)
    (hr : s.enc.toCtx.ready) (hx : execAll (encodeScript input) s = .next t) :
    t.Inv ∧ EncStream t.enc := by
  obtain ⟨e, he, hinit⟩ := exec_encInit_of_ready hr
  rw [encodeScript, execAll, hinit] at hx
  exact execAll_keeps (P := fun u => u.Inv ∧ EncStream u.enc)
    (fun _ _ _ ⟨hi, hs⟩ hx => ⟨hi.exec hx, exec_keeps_encStream hi hs hx⟩) ⟨h.exec hinit, he⟩ hx

/-- Settles O19: the stream invariant at the end of the call. -/
theorem packedStreamIsCodesThenPad : Obligations.PackedStreamIsCodesThenPad := by
  intro s t input h hr hx hdone
  obtain ⟨-, hs⟩ := inv_encStream_of_encodeScript h hr hx
  refine ⟨fun j hj => (hs.ordinals j hj).1, hs.done hdone, fun htrace => ?_⟩
  have hlen := congrArg List.length (hs.done hdone)
  simpa [htrace, traceWidths] using hlen

/-! ### The four code classes (R94) -/

theorem Dec.codeClass_lit_iff {d : Dec} (h : 256 ≤ d.nextCode) (n : Nat) :
    d.codeClass n = .lit ↔ n ≤ 255 := by
  unfold Dec.codeClass Config.nlit
  split_ifs <;> simp <;> omega

theorem Dec.codeClass_ref_iff (d : Dec) (n : Nat) :
    d.codeClass n = .ref ↔ 256 ≤ n ∧ n < d.nextCode := by
  unfold Dec.codeClass Config.nlit
  split_ifs <;> simp <;> omega

theorem Dec.codeClass_kwk_iff (d : Dec) (n : Nat) :
    d.codeClass n = .kwk ↔ n = d.nextCode ∧ d.havePrev = true := by
  unfold Dec.codeClass
  split_ifs with hlt hlit hkwk
  · exact iff_of_false nofun (by omega)
  · exact iff_of_false nofun (by omega)
  · exact iff_of_true rfl hkwk
  · exact iff_of_false nofun hkwk

theorem Dec.codeClass_bad_iff (d : Dec) (n : Nat) :
    d.codeClass n = .bad ↔ d.nextCode < n ∨ (n = d.nextCode ∧ d.havePrev = false) := by
  unfold Dec.codeClass
  split_ifs with hlt hlit hkwk
  · exact iff_of_false nofun (by omega)
  · exact iff_of_false nofun (by omega)
  · exact iff_of_false nofun (by simp [hkwk])
  · refine iff_of_true rfl ?_
    rcases (Nat.le_of_not_lt hlt).eq_or_lt with heq | hgt
    · exact .inr ⟨heq.symm, by simpa [heq] using hkwk⟩
    · exact .inl hgt

/-- The string of a stored code is that of a code and one byte more (R8, R173). -/
theorem CtxInv.two_le_length_str {p : Params} {c : Ctx} (h : CtxInv p c) {n : Nat} (hn : 256 ≤ n)
    (hlt : n < c.nextCode) : ∃ x, c.str n = some x ∧ 2 ≤ x.length := by
  obtain ⟨entry, hread⟩ := h.dictRead_isSome hn hlt
  have hpre := c.pre_lt_of_dictRead h.descends hread
  obtain ⟨b, s, hs⟩ := h.str_isSome (hpre.trans hlt)
  refine ⟨b :: s ++ [entry.last], ?_, by simp⟩
  rw [c.str_of_dictRead h.descends hread, hs]
  rfl

/-- A code of class `BAD` raises `CorruptCode`, as the first code of a call or later (R148). -/
theorem processCode_of_bad {p : Params} {d : Dec} {n : Nat}
    (h : d.nextCode < n ∨ (n = d.nextCode ∧ d.havePrev = false)) :
    processCode p n d = .raise .corruptCode n := by
  cases hv : d.havePrev with
  | true => exact processCode_later_corrupt hv (by simpa [hv] using h)
  | false => exact processCode_first_corrupt hv (by omega)

/-- Settles O28: each class by its condition, and what it means by the lemma about its condition. -/
theorem codeClassesAndStrings : Obligations.CodeClassesAndStrings := by
  intro p d h n
  have hlow : 256 ≤ d.nextCode := h.ctx.nextCodeLow
  have hlit := Dec.codeClass_lit_iff hlow n
  have href := d.codeClass_ref_iff n
  have hkwk := d.codeClass_kwk_iff n
  have hbad := d.codeClass_bad_iff n
  refine ⟨hlit, href, hkwk, hbad, ?_, ?_, ?_, ?_, ?_⟩
  · rw [hlit]
    exact fun hn => d.toCtx.str_literal (by omega)
  · rw [href]
    exact fun ⟨hn, hlt⟩ => h.ctx.two_le_length_str hn hlt
  · rw [hkwk]
    rintro ⟨rfl, hv⟩
    obtain ⟨s, hs⟩ := h.previousFirst hv
    exact ⟨_, hs, resolveCode_kwk hs⟩
  · rw [hbad]
    exact processCode_of_bad
  · intro hv
    have hfirst : d.nextCode = 256 := (h.noPrevious hv).1
    refine ⟨hlit, ?_⟩
    rw [hbad, hfirst, and_iff_left hv]
    omega

/-! ### The codes accepted at each ordinal (R37, R95) -/

/-- A code above the bound of the next ordinal is one of class `BAD`: above `next_code`, or `next_code` itself as the
first code (R37, R94). -/
theorem DecStream.bound_lt_iff {p : Params} {d : Dec} (hs : DecStream d) (h : DecInv p d)
    (n : Nat) :
    (if d.trace = [] then 255 else 254 + (d.trace.length + 1)) < n ↔
      d.nextCode < n ∨ d.havePrev = false ∧ d.nextCode ≤ n := by
  cases hv : d.havePrev with
  | false =>
    obtain ⟨hfirst : d.nextCode = 256, htrace⟩ := h.noPrevious hv
    rw [if_pos htrace, hfirst, and_iff_right rfl]
    omega
  | true =>
    obtain ⟨hne, hcount⟩ := hs.count hv
    rw [if_neg hne, hcount]
    simp only [Bool.true_eq_false, false_and, or_false]
    omega

/-- Settles O29: the cases of `DEC_BYTE`, with the bound told by `next_code`. -/
theorem decoderAcceptsOrdinalRange : Obligations.DecoderAcceptsOrdinalRange := by
  intro s b n h hstream hactive hfull hwidth hn
  have hexec := execDecByte_active b hactive
  rw [← not_lt, hstream.dec.bound_lt_iff h.dec]
  rcases decByteBody_cases h.dec b with
    ⟨hshort, -⟩ | ⟨-, hover, -⟩ | ⟨-, -, m, hm, hlt, hcases⟩
  · omega
  · omega
  obtain rfl : n = m := hn.trans hm.symm
  rcases hcases with ⟨hbad, hb⟩ | ⟨hv, hlit, hb⟩ | ⟨hv, hle, f, tail, -, -, hb⟩ <;>
    rw [hb] at hexec
  · have hfits : n < 2 ^ (s.params.wmax + 1) :=
      hlt.trans_le (Nat.pow_le_pow_right (by decide) (by omega))
    exact ⟨_, hexec, fun hgood => absurd hbad hgood, fun _ => ⟨rfl, rfl, zextInfo_of_lt hfits⟩⟩
  · refine ⟨_, hexec, fun _ => hactive, ?_⟩
    rintro (hgt | ⟨-, hge⟩) <;> omega
  · refine ⟨_, hexec, fun _ => hactive, ?_⟩
    rintro (hgt | ⟨hnone, -⟩)
    · omega
    · cases hv.symm.trans hnone

end Sys2Proof.Machine
end

section
/-!
SUPPORT. The meaning of the encoder commands (spec/40_encoder.md R121, R122, R127): each command where the table of R38
ignores it, where it is illegal, and in every way its body goes.
-/

namespace Sys2Proof.Machine

open Sys2Proof

/-! ### Encoder commands by the table (R38, R211, R221) -/

theorem exec_enc_of_fault {i : Instr} (hi : i.context = .enc) {s : State}
    (h : s.enc.st = .fault) : exec i s = .next s := by
  rw [exec_of_context_enc hi, State.onEnc, h]
  rfl

theorem exec_enc_of_notLegal {i : Instr} (hi : i.context = .enc) {s : State}
    (h : legality s.enc.st i.kind = .notLegal) :
    exec i s = .next (s.enterEncFault .protocolError (encode i).toNat) := by
  rw [exec_of_context_enc hi, State.onEnc, h]

/-- Outside a call a `BYTE` or `END` raises `ProtocolError` with its word (R211). -/
theorem exec_enc_of_ready {i : Instr} (hi : i.context = .enc) (hk : i.kind ≠ .init) {s : State}
    (h : s.enc.toCtx.ready) : exec i s = .next { s with enc := { s.enc with
      st := .fault, fault := .protocolError, finfo := zextInfo s.params (encode i).toNat } } :=
  exec_enc_of_notLegal hi (legality_of_ready h hk)

theorem exec_enc_of_performed {i : Instr} (hi : i.context = .enc) {s : State} {e : Enc}
    (h : legality s.enc.st i.kind = .performed)
    (hb : encCommandBody s.params i s.enc = .ok e) : exec i s = .next { s with enc := e } := by
  rw [exec_of_context_enc hi, State.onEnc, h]
  simp only [hb]

theorem legality_init_of_ready {st : CtxState} (h : st = .idle ∨ st = .done) :
    legality st .init = .performed := by
  rcases h with rfl | rfl <;> rfl

/-! ### `ENC_INIT` (R121) -/

theorem encode_encInit : encode .encInit = 0x100 := by decide

/-- Between calls `ENC_INIT` is its body, written out. -/
theorem exec_encInit_eq {s : State} (h : s.enc.toCtx.ready) :
    exec .encInit s = .next { s with enc := { s.enc with
      st := .active, nextCode := 256, width := 9, curValid := false, acc := 0, nacc := 0,
      out := [], trace := [] } } :=
  exec_enc_of_performed rfl (legality_init_of_ready h) rfl

/-- Settles O11: `ENC_INIT` by the state of the context. -/
theorem encInitMeaning : Obligations.EncInitMeaning := by
  refine ⟨encode_encInit, fun s => ⟨exec_encInit_eq, ?_, ?_, exec_enc_of_fault rfl⟩⟩
  · intro hready t ht
    rw [exec_encInit_eq hready] at ht
    cases ht
    exact Ctx.dictRead_of_nextCode_eq rfl
  · intro hactive
    refine (exec_enc_of_notLegal rfl ?_).trans ?_
    · rw [hactive]
      rfl
    · rw [encode_encInit]
      rfl

/-! ### `ENC_BYTE` (R122) -/

theorem encode_encByte_toNat (c : Byte) : (encode (.encByte c)).toNat = 0x200 + c.toNat := by
  have hword : encode (.encByte c) = BitVec.ofNat 12 (0x200 + c.toNat) := (ofNat_add_byte 2 c).symm
  have := c.isLt
  rw [hword, BitVec.toNat_ofNat, Nat.mod_eq_of_lt (by omega)]

/-- The place of a code's entry in a memory with consecutive codes. -/
theorem CtxInv.getElem?_of_dictRead {p : Params} {c : Ctx} (h : CtxInv p c) {k : Nat} {x : Entry}
    (hr : c.dictRead k = some x) :
    256 ≤ k ∧ ((c.dict.take (c.nextCode - 256)).map Prod.snd)[k - 256]? = some x := by
  obtain ⟨⟨hlow, hhigh⟩, hread⟩ := (c.dictRead_eq_some k x).1 hr
  have hplace := Memory.read_of_codes c.dict 256 (k - 256) h.codes
  rw [Nat.add_sub_cancel' hlow, hread] at hplace
  rw [List.getElem?_map, List.getElem?_take_of_lt (by omega)]
  exact ⟨hlow, hplace.symm⟩

/-- At most one code holds a pair (R174, R177 (c)). -/
theorem EncInv.eq_of_dictRead {p : Params} {e : Enc} (h : EncInv p e) {j k : Nat} {x : Entry}
    (hj : e.toCtx.dictRead j = some x) (hk : e.toCtx.dictRead k = some x) : j = k := by
  obtain ⟨hjlow, hj⟩ := h.ctx.getElem?_of_dictRead hj
  obtain ⟨hklow, hk⟩ := h.ctx.getElem?_of_dictRead hk
  obtain ⟨hlt, -⟩ := List.getElem?_eq_some_iff.1 hj
  have := (List.getElem?_inj hlt h.distinct).1 (hj.trans hk.symm)
  omega

/-- A code of 9 to 16 bits put after fewer than 8 pending bits fills one or two bytes (R122). -/
theorem EncInv.written_bytes {p : Params} {e : Enc} (hp : p.wf) (h : EncInv p e)
    (hw : e.width ≤ 16) : 1 ≤ (e.nacc + e.width) / 8 ∧ (e.nacc + e.width) / 8 ≤ 2 := by
  obtain ⟨-, -, hlow, -, -⟩ := widthAboveLimitMeansFull.1 p e hp h
  have := h.naccLow
  omega

/-- Settles O12: `ENC_BYTE` by the state of the context; in a call, the case its body takes is the one whose condition
is given. -/
theorem encByteMeaning : Obligations.EncByteMeaning := by
  intro s c
  refine ⟨encode_encByte_toNat c, exec_enc_of_fault rfl, ?_, ?_⟩
  · rw [← encode_encByte_toNat c]
    exact exec_enc_of_ready (i := .encByte c) rfl nofun
  intro h hactive
  obtain ⟨-, -, -, -, hfull⟩ := widthAboveLimitMeansFull.1 _ _ h.params h.enc
  refine ⟨hfull, h.enc.written_bytes h.params, ?_⟩
  have hexec := execEncByte_active c hactive
  rcases encByteBody_cases h.enc c with
    ⟨hv, hb⟩ | ⟨k, hv, -, hr, hb⟩ | ⟨hv, hmiss, hw, hb⟩ | ⟨hv, hmiss, hw, -, hb⟩ <;>
    rw [hb] at hexec
  · exact ⟨fun _ => hexec, fun hv' => by cases hv.symm.trans hv'⟩
  · refine ⟨fun hv' => (by cases hv.symm.trans hv'), fun _ => ⟨fun j hj => ?_, fun hmiss => ?_⟩⟩
    · rw [h.enc.eq_of_dictRead hj hr]
      exact hexec
    · exact absurd hr (hmiss k)
  · exact ⟨fun hv' => (by cases hv.symm.trans hv'), fun _ => ⟨fun j hj => absurd hj (hmiss j),
      fun _ => ⟨fun _ => hexec, fun hw' => absurd hw (Nat.not_lt.2 hw')⟩⟩⟩
  · exact ⟨fun hv' => (by cases hv.symm.trans hv'), fun _ => ⟨fun j hj => absurd hj (hmiss j),
      fun _ => ⟨fun hw' => absurd hw' (Nat.not_lt.2 hw), fun _ => hexec⟩⟩⟩

/-! ### `ENC_END` (R127) -/

theorem encode_encEnd : encode .encEnd = 0x300 := by decide

/-- The final code and the flush, written out (R127, R193). -/
theorem EncInv.encEndBody_final {p : Params} {e : Enc} (h : EncInv p e) (hv : e.curValid = true)
    (hw : e.width ≤ p.wmax) :
    encEndBody p e = .ok { e with
      out := e.out ++ leadingBytes ((e.nacc + e.width) / 8)
          (e.acc * 2 ^ e.width + e.curCode) (e.nacc + e.width) ++
        (if (e.nacc + e.width) % 8 = 0 then []
          else [byteOf ((e.acc * 2 ^ e.width + e.curCode) % 2 ^ ((e.nacc + e.width) % 8) *
            2 ^ (8 - (e.nacc + e.width) % 8))])
      nacc := 0
      acc := 0
      trace := e.trace ++ [(e.curCode, e.width)]
      curValid := false
      st := .done } := by
  rw [encEndBody_code hv hw]
  simp only [Enc.writeBits, Enc.flush, bitField_zero_of_lt (h.curCode_lt hv), bitField_zero]
  by_cases hn : (e.nacc + e.width) % 8 = 0
  · simp [hn, Nat.mod_one]
  · simp [hn, Nat.pos_of_ne_zero hn]

/-- Settles O13: `ENC_END` by the state of the context; in a call, by its match and its width. -/
theorem encEndMeaning : Obligations.EncEndMeaning := by
  refine ⟨encode_encEnd, fun s => ⟨exec_enc_of_fault rfl, ?_, fun h hactive => ?_⟩⟩
  · intro hready
    have hexec := exec_enc_of_ready (i := .encEnd) rfl nofun hready
    rwa [encode_encEnd] at hexec
  have hexec := execEncEnd_active hactive
  refine ⟨fun hv => ?_, fun hv hw => ?_, fun hv hw => ?_⟩
  · obtain ⟨-, hn, -, -⟩ := h.enc.emptyMatch hactive hv
    rwa [encEndBody_empty hv hn] at hexec
  · rwa [encEndBody_overflow hv hw] at hexec
  · rwa [h.enc.encEndBody_final hv hw] at hexec

end Sys2Proof.Machine
end

section
/-!
SUPPORT. What the encoder's codes spell (spec/40_encoder.md R128): the text of a call, one command at a time, then over
a whole call.
-/

namespace Sys2Proof.Machine

open Sys2Proof

/-! ### The text of a call (R29, R128 (d)) -/

/-- A code sequence has strings as soon as each of its codes has one. -/
theorem Ctx.strAll_isSome {c : Ctx} {l : List Nat} (h : ∀ k ∈ l, ∃ y, c.str k = some y) :
    ∃ x, c.strAll l = some x := by
  induction l with
  | nil => exact ⟨[], rfl⟩
  | cons k r ih =>
    obtain ⟨y, hy⟩ := h k (by simp)
    obtain ⟨z, hz⟩ := ih fun j hj => h j (by simp [hj])
    exact ⟨y ++ z, by simp [Ctx.strAll, hy, hz]⟩

/-- One more code in a trace adds its string. -/
theorem Ctx.strAll_snoc {c : Ctx} {t : List (Nat × Nat)} {k : Nat} {x y : List Byte}
    (hx : c.strAll (t.map Prod.fst) = some x) (hy : c.str k = some y) (w : Nat) :
    c.strAll ((t ++ [(k, w)]).map Prod.fst) = some (x ++ y) := by
  rw [List.map_append]
  exact Ctx.strAll_append hx (by simp [Ctx.strAll, hy])

/-- A context in which the codes of `c` keep their strings spells what `c` spells. -/
theorem CtxInv.strAll_of_kept {p : Params} {c c' : Ctx} (h : CtxInv p c) {l : List Nat}
    {x : List Byte} (hx : c.strAll l = some x) (hkept : ∀ k < c.nextCode, c'.str k = c.str k) :
    c'.strAll l = some x := by
  rw [← hx]
  refine Ctx.strAll_congr _ fun k hk => hkept k ?_
  obtain ⟨y, hy⟩ := Ctx.str_of_strAll hx k hk
  exact h.lt_of_str hy

/-- `Str` looks at the memory and `next_code` only. -/
theorem Ctx.strAll_of_same {c c' : Ctx} {l : List Nat} {x : List Byte} (hx : c.strAll l = some x)
    (hd : c'.dict = c.dict) (hn : c'.nextCode = c.nextCode) : c'.strAll l = some x :=
  (Ctx.strAll_congr l fun _ _ => Ctx.str_eq_of_same hd hn).trans hx

theorem Enc.text_eq_some_iff {e : Enc} {x : List Byte} :
    e.text = some x ↔ ∃ y z, e.toCtx.strAll (e.trace.map Prod.fst) = some y ∧
      e.matchText = some z ∧ x = y ++ z := by
  unfold Enc.text
  cases e.toCtx.strAll (e.trace.map Prod.fst) with
  | none => simp
  | some y =>
    cases e.matchText with
    | none => simp
    | some z => simp [eq_comm]

theorem Enc.matchText_of_valid {e : Enc} (h : e.curValid = true) :
    e.matchText = e.toCtx.str e.curCode := by
  rw [Enc.matchText, Enc.currentMatch_of_valid h]

theorem Enc.matchText_eq_some {e : Enc} {x : List Byte} (h : e.curValid = true)
    (hx : e.toCtx.str e.curCode = some x) : e.matchText = some x :=
  (Enc.matchText_of_valid h).trans hx

theorem Enc.matchText_of_empty {e : Enc} (h : e.curValid = false) : e.matchText = some [] := by
  rw [Enc.matchText, Enc.currentMatch_of_empty h]

theorem EncInv.matchText_isSome {p : Params} {e : Enc} (h : EncInv p e) :
    ∃ z, e.matchText = some z := by
  cases hv : e.curValid with
  | false => exact ⟨[], Enc.matchText_of_empty hv⟩
  | true =>
    obtain ⟨b, s, hs⟩ := h.ctx.str_isSome (h.current hv)
    exact ⟨b :: s, Enc.matchText_eq_some hv hs⟩

/-- During a call every code written is below `next_code` (R45, R95). -/
theorem EncStream.lt_of_mem_trace {e : Enc} (hs : EncStream e) (ha : e.st = .active) {k : Nat}
    (hk : k ∈ e.trace.map Prod.fst) : k < e.nextCode := by
  obtain ⟨x, hx, rfl⟩ := List.mem_map.1 hk
  obtain ⟨j, hj, rfl⟩ := List.getElem_of_mem hx
  have := (hs.ordinals j hj).2
  have := hs.count ha
  omega

/-- During a call the codes written and the current match spell a text (R128 (d)). -/
theorem EncStream.text_isSome {p : Params} {e : Enc} (hs : EncStream e) (h : EncInv p e)
    (ha : e.st = .active) : ∃ x, e.text = some x := by
  have hcodes : ∀ k ∈ e.trace.map Prod.fst, ∃ y, e.toCtx.str k = some y := by
    intro k hk
    obtain ⟨b, s, hk⟩ := h.ctx.str_isSome (hs.lt_of_mem_trace ha hk)
    exact ⟨b :: s, hk⟩
  obtain ⟨y, hy⟩ := Ctx.strAll_isSome hcodes
  obtain ⟨z, hz⟩ := h.matchText_isSome
  exact ⟨y ++ z, Enc.text_eq_some_iff.2 ⟨y, z, hy, hz, rfl⟩⟩

/-! ### One command (R122, R127) -/

/-- The string of a byte taken as a code (R172). -/
theorem Ctx.str_byte (c : Ctx) (b : Byte) : c.str b.toNat = some [b] := by
  rw [c.str_literal b.isLt, byteOf, BitVec.ofNat_toNat, BitVec.setWidth_eq]

/-- A completed `ENC_BYTE c` adds `c` to the text: as the first match, at the end of a longer match, or as the match
after the code written (R122). -/
theorem EncInv.text_byteConsumed {p : Params} {e e' : Enc} {c : Byte} {x : List Byte}
    (h : EncInv p e) (hb : encByteBody p c e = .ok e') (hx : e.text = some x) :
    e'.text = some (x ++ [c]) := by
  obtain ⟨y, z, hy, hz, rfl⟩ := Enc.text_eq_some_iff.1 hx
  rw [List.append_assoc, Enc.text_eq_some_iff]
  rcases encByteBody_cases h c with
    ⟨hv, h'⟩ | ⟨k, hv, -, hr, h'⟩ | ⟨-, -, -, h'⟩ | ⟨hv, -, -, hn, h'⟩ <;>
    rw [h'] at hb <;> cases hb
  · cases (Enc.matchText_of_empty hv).symm.trans hz
    exact ⟨y, [c], hy, Enc.matchText_eq_some rfl (Ctx.str_byte _ c), rfl⟩
  · rw [Enc.matchText_of_valid hv] at hz
    have hk := e.toCtx.str_of_dictRead h.ctx.descends hr
    rw [hz] at hk
    exact ⟨y, z ++ [c], hy, Enc.matchText_eq_some hv hk, rfl⟩
  · rw [Enc.matchText_of_valid hv] at hz
    refine ⟨y ++ z, [c], ?_, Enc.matchText_eq_some hv (Ctx.str_byte _ c), by simp⟩
    exact h.ctx.strAll_of_kept (Ctx.strAll_snoc hy hz _) fun k hk =>
      h.ctx.str_inserted hn (h.current hv) rfl rfl hk

/-- After a completed `ENC_END` the codes alone spell the text: the match was empty, or its code is the last
(R127). -/
theorem EncInv.strAll_finished {p : Params} {e e' : Enc} {x : List Byte} (h : EncInv p e)
    (ha : e.st = .active) (hb : encEndBody p e = .ok e') (hx : e.text = some x) :
    e'.toCtx.strAll (e'.trace.map Prod.fst) = some x := by
  obtain ⟨y, z, hy, hz, rfl⟩ := Enc.text_eq_some_iff.1 hx
  rcases encEndBody_cases h ha with ⟨hv, -, -, -, -, h'⟩ | ⟨-, -, h'⟩ | ⟨hv, hw, -⟩
  · rw [h'] at hb
    cases hb
    cases (Enc.matchText_of_empty hv).symm.trans hz
    rw [List.append_nil]
    exact Ctx.strAll_of_same hy rfl rfl
  · cases h'.symm.trans hb
  · rw [h.encEndBody_final hv hw] at hb
    cases hb
    rw [Enc.matchText_of_valid hv] at hz
    exact Ctx.strAll_of_same (Ctx.strAll_snoc hy hz _) rfl rfl

/-- An encoder command that leaves the context outside `FAULT` was performed and completed. -/
theorem encCommandBody_of_live {i : Instr} (hi : i.context = .enc) {s t : State}
    (h : exec i s = .next t) (ht : t.enc.st ≠ .fault) :
    legality s.enc.st i.kind = .performed ∧ encCommandBody s.params i s.enc = .ok t.enc := by
  rcases exec_enc_cases hi h with
    ⟨hst, rfl⟩ | ⟨-, rfl⟩ | ⟨hl, ⟨e, hb, rfl⟩ | ⟨f, info, -, -, rfl⟩⟩
  · exact absurd hst ht
  · exact absurd rfl ht
  · exact ⟨hl, hb⟩
  · exact absurd rfl ht

/-- An `ENC_BYTE c` that raises nothing adds `c` to the text. -/
theorem text_encByte {s t : State} {c : Byte} {x : List Byte} (h : s.Inv)
    (hx : exec (.encByte c) s = .next t) (ht : t.enc.st ≠ .fault) (htext : s.enc.text = some x) :
    t.enc.text = some (x ++ [c]) := by
  obtain ⟨-, hb⟩ := encCommandBody_of_live rfl hx ht
  exact h.enc.text_byteConsumed hb htext

/-- An `ENC_END` that raises nothing leaves codes that spell the text. -/
theorem strAll_encEnd {s t : State} {x : List Byte} (h : s.Inv) (hx : exec .encEnd s = .next t)
    (ht : t.enc.st ≠ .fault) (htext : s.enc.text = some x) :
    t.enc.toCtx.strAll (t.enc.trace.map Prod.fst) = some x := by
  obtain ⟨hl, hb⟩ := encCommandBody_of_live rfl hx ht
  exact h.enc.strAll_finished (active_of_finish_performed hl) hb htext

/-- Settles O17: the text exists by the two invariants, and the two commands do with it what is said. -/
theorem encoderSpellsItsInput : Obligations.EncoderSpellsItsInput := by
  intro s t h hs hactive
  obtain ⟨x, hx⟩ := hs.enc.text_isSome h.enc hactive
  exact ⟨fun c hc ht => ⟨x, hx, text_encByte h hc (by simp [ht]) hx⟩,
    fun hc ht => ⟨x, hx, strAll_encEnd h hc (by simp [ht]) hx⟩⟩

/-! ### A whole call (R128) -/

theorem execAll_cons_eq_next {i : Instr} {l : List Instr} {s t : State}
    (h : execAll (i :: l) s = .next t) : ∃ u, exec i s = .next u ∧ execAll l u = .next t := by
  rw [execAll] at h
  cases hi : exec i s with
  | next u => exact ⟨u, rfl, by rwa [hi] at h⟩
  | fault r | refused r =>
    rw [hi] at h
    cases h

/-- No script leaves `FAULT` (R221). -/
theorem execAll_enc_fault {l : List Instr} {s t : State} (hs : s.enc.st = .fault)
    (h : execAll l s = .next t) : t.enc.st = .fault :=
  execAll_keeps (P := fun u => u.enc.st = .fault)
    (fun i u _ hu hx => exec_keeps_enc (Q := fun e => e.st = .fault) hx hu (fun _ _ _ => rfl)
      fun _ hl _ => by
        rw [hu] at hl
        cases hl) hs h

/-- The rest of a call that ends in `DONE`: its bytes follow the text so far. -/
theorem strAll_of_restOfCall {input : List Byte} {s t : State} {x : List Byte} (h : s.Inv)
    (hx : execAll (encBytes input ++ [.encEnd]) s = .next t) (ht : t.enc.st = .done)
    (htext : s.enc.text = some x) :
    t.enc.toCtx.strAll (t.enc.trace.map Prod.fst) = some (x ++ input) := by
  induction input generalizing s x with
  | nil =>
    obtain ⟨u, hu, hrest⟩ := execAll_cons_eq_next hx
    cases hrest
    rw [List.append_nil]
    exact strAll_encEnd h hu (by simp [ht]) htext
  | cons c rest ih =>
    obtain ⟨u, hu, hrest⟩ := execAll_cons_eq_next hx
    have hlive : u.enc.st ≠ .fault := fun hf => by cases (execAll_enc_fault hf hrest).symm.trans ht
    simpa using ih (h.exec hu) hrest (text_encByte h hu hlive htext)

/-- The codes of a call that ends in `DONE` spell its input (R128 (d)). -/
theorem strAll_of_encodeScript {input : List Byte} {s t : State} (h : s.Inv)
    (hr : s.enc.toCtx.ready) (hx : execAll (encodeScript input) s = .next t)
    (ht : t.enc.st = .done) :
    t.enc.toCtx.strAll (t.enc.trace.map Prod.fst) = some input := by
  obtain ⟨u, hu, hrest⟩ := execAll_cons_eq_next hx
  have hinv := h.exec hu
  rw [exec_encInit_eq hr] at hu
  cases hu
  exact strAll_of_restOfCall hinv hrest ht rfl

/-- A code sequence spells the empty text only when it is empty: no string is (R8, R173). -/
theorem CtxInv.strAll_eq_nil {p : Params} {c : Ctx} (h : CtxInv p c) {l : List Nat}
    (hl : c.strAll l = some []) : l = [] := by
  cases l with
  | nil => rfl
  | cons k r =>
    obtain ⟨y, hy⟩ := Ctx.str_of_strAll hl k (by simp)
    obtain ⟨z, hz⟩ := Ctx.strAll_isSome (l := r) fun j hj => Ctx.str_of_strAll hl j (by simp [hj])
    obtain ⟨b, s, hs⟩ := h.str_isSome (h.lt_of_str hy)
    simp [Ctx.strAll, hs, hz] at hl

/-- Settles O18: the stream invariant at the end of the call, and the input its codes spell, which is empty exactly
when there is no code. -/
theorem encodeCallProperties : Obligations.EncodeCallProperties := by
  intro s t input h hr hx hdone
  obtain ⟨hinv, hs⟩ := inv_encStream_of_encodeScript h hr hx
  have hspell := strAll_of_encodeScript h hr hx hdone
  obtain ⟨hbytes, -⟩ := (writerAlignment _ _ hinv.enc hs).2 hdone
  refine ⟨?_, ?_, hs.ordinals, hspell, hbytes⟩
  · rintro rfl
    have htrace : t.enc.trace = [] := List.map_eq_nil_iff.1 (hinv.enc.ctx.strAll_eq_nil hspell)
    rcases hs.doneCount hdone with hnone | ⟨hne, -⟩
    · exact hnone
    · exact absurd htrace hne
  · intro hne
    rcases hs.doneCount hdone with ⟨htrace, -⟩ | hsome
    · rw [htrace] at hspell
      cases hspell
      exact absurd rfl hne
    · exact hsome

end Sys2Proof.Machine
end

section
/-!
SUPPORT. The meaning of the decoder commands (spec/41_decoder.md R141 to R151): each command where the table of R38
ignores it, where it is illegal, and in every way its body goes.
-/

namespace Sys2Proof.Machine

open Sys2Proof

/-! ### Decoder commands by the table (R38, R211, R221) -/

theorem exec_dec_of_fault {i : Instr} (hi : i.context = .dec) {s : State}
    (h : s.dec.st = .fault) : exec i s = .next s := by
  rw [exec_of_context_dec hi, State.onDec, h]
  rfl

theorem exec_dec_of_notLegal {i : Instr} (hi : i.context = .dec) {s : State}
    (h : legality s.dec.st i.kind = .notLegal) :
    exec i s = .next (s.enterDecFault .protocolError (encode i).toNat) := by
  rw [exec_of_context_dec hi, State.onDec, h]

/-- Outside a call a `BYTE` or `END` raises `ProtocolError` with its word (R211). -/
theorem exec_dec_of_ready {i : Instr} (hi : i.context = .dec) (hk : i.kind ≠ .init) {s : State}
    (h : s.dec.toCtx.ready) : exec i s = .next { s with dec := { s.dec with
      st := .fault, fault := .protocolError, finfo := zextInfo s.params (encode i).toNat } } :=
  exec_dec_of_notLegal hi (legality_of_ready h hk)

theorem exec_dec_of_performed {i : Instr} (hi : i.context = .dec) {s : State} {d : Dec}
    (h : legality s.dec.st i.kind = .performed)
    (hb : decCommandBody s.params i s.dec = .ok d) : exec i s = .next { s with dec := d } := by
  rw [exec_of_context_dec hi, State.onDec, h]
  simp only [hb]

/-! ### `DEC_INIT` (R141) -/

theorem encode_decInit : encode .decInit = 0x500 := by decide

/-- Between calls `DEC_INIT` is its body, written out. -/
theorem exec_decInit_eq {s : State} (h : s.dec.toCtx.ready) :
    exec .decInit s = .next { s with dec := { s.dec with
      st := .active, nextCode := 256, width := 9, havePrev := false, rbuf := 0, nrbuf := 0,
      out := [], trace := [] } } :=
  exec_dec_of_performed rfl (legality_init_of_ready h) rfl

/-- Settles O20: `DEC_INIT` by the state of the context. -/
theorem decInitMeaning : Obligations.DecInitMeaning := by
  refine ⟨encode_decInit, fun s => ⟨exec_decInit_eq, ?_, ?_, exec_dec_of_fault rfl⟩⟩
  · intro hready t ht
    rw [exec_decInit_eq hready] at ht
    cases ht
    exact Ctx.dictRead_of_nextCode_eq rfl
  · intro hactive
    refine (exec_dec_of_notLegal rfl ?_).trans ?_
    · rw [hactive]
      rfl
    · rw [encode_decInit]
      rfl

/-! ### `DEC_BYTE` (R142 to R150) -/

theorem encode_decByte_toNat (b : Byte) : (encode (.decByte b)).toNat = 0x600 + b.toNat := by
  have hword : encode (.decByte b) = BitVec.ofNat 12 (0x600 + b.toNat) := (ofNat_add_byte 6 b).symm
  have := b.isLt
  rw [hword, BitVec.toNat_ofNat, Nat.mod_eq_of_lt (by omega)]

/-- Settles O21: `DEC_BYTE` by the state of the context; in a call, by the bits buffered and the width. -/
theorem decByteWithoutCode : Obligations.DecByteWithoutCode := by
  intro s b
  refine ⟨exec_dec_of_fault rfl, fun hready => ?_, fun hactive hshort => ?_,
    fun hactive hfull hw => ?_⟩
  · rw [← encode_decByte_toNat b]
    exact exec_dec_of_ready (i := .decByte b) rfl nofun hready
  · have hexec := execDecByte_active b hactive
    rwa [decByteBody_buffers b hshort] at hexec
  · have hexec := execDecByte_active b hactive
    rwa [decByteBody_overflow b hfull hw] at hexec

/-- The decoder that has taken the code completed by `b` out of its buffer and not yet processed it (R195, R196). -/
def Dec.taken (d : Dec) (b : Byte) : Dec :=
  d.extracted (d.rbuf * 256 + b.toNat) (d.nrbuf + 8) d.width

theorem Dec.taken_str (d : Dec) (b : Byte) (k : Nat) : (d.taken b).toCtx.str k = d.toCtx.str k :=
  Ctx.str_eq_of_same rfl rfl

section

variable {s : State} {b : Byte} {n : Nat} (h : s.Inv) (hactive : s.dec.st = .active)
  (hfull : s.dec.width ≤ s.dec.nrbuf + 8) (hw : s.dec.width ≤ s.params.wmax)
  (hn : n = (s.dec.rbuf * 256 + b.toNat) / 2 ^ (s.dec.nrbuf + 8 - s.dec.width))

include h hactive hfull hw hn

/-- In a call, a byte that completes a code at a width the hardware has does what the code's processing does (R142). -/
theorem execDecByte_of_processed {d : Dec}
    (hp : processCode s.params n (s.dec.taken b) = .ok d) :
    exec (.decByte b) s = .next { s with dec := d } := by
  rw [hn, Dec.taken, ← decByteBody_code h.dec.rbufFits b hfull hw] at hp
  rw [execDecByte_active b hactive, hp]

theorem execDecByte_of_raised {f : FaultCode} {info : Nat}
    (hp : processCode s.params n (s.dec.taken b) = .raise f info) :
    exec (.decByte b) s = .next (s.enterDecFault f info) := by
  rw [hn, Dec.taken, ← decByteBody_code h.dec.rbufFits b hfull hw] at hp
  rw [execDecByte_active b hactive, hp]

/-- A later code that resolves to a string: output, insertion, growth (R145 step 3). -/
theorem execDecByte_later (hv : s.dec.havePrev = true) {f : Byte} {tail : List Byte}
    (hr : resolveCode s.dec.prevCode s.dec.prevFirst n (s.dec.taken b).toCtx = .ok (f :: tail)) :
    exec (.decByte b) s = .next { s with dec := { s.dec with
      rbuf := (s.dec.rbuf * 256 + b.toNat) % 2 ^ (s.dec.nrbuf + 8 - s.dec.width),
      nrbuf := s.dec.nrbuf + 8 - s.dec.width,
      trace := s.dec.trace ++ [(n, s.dec.width)],
      out := s.dec.out ++ (f :: tail),
      dict := s.dec.dict.write s.dec.nextCode ⟨s.dec.prevCode, f⟩,
      nextCode := s.dec.nextCode + 1,
      width := if s.dec.nextCode + 2 = 2 ^ s.dec.width then s.dec.width + 1 else s.dec.width,
      prevCode := n, prevFirst := f } } := by
  rw [execDecByte_of_processed h hactive hfull hw hn
    (processCode_later (d := s.dec.taken b) hv h.dec.ctx.nextCodeLow h.dec.nextCodeHigh hr), hn]
  rfl

end

/-- Settles O22: a literal is below `next_code`, which is 256 before the first code. -/
theorem decByteFirstCode : Obligations.DecByteFirstCode := by
  intro s b n h hactive hfull hw hn hv hlit
  obtain ⟨hfirst : s.dec.nextCode = 256, -⟩ := h.dec.noPrevious hv
  have hlt : n < s.dec.nextCode := by omega
  rw [execDecByte_of_processed h hactive hfull hw hn
    (processCode_first (d := s.dec.taken b) hv hlt), hn]
  rfl

/-- Settles O23: the string of a present code is not empty, and the code is processed with it. -/
theorem decBytePresentCode : Obligations.DecBytePresentCode := by
  intro s b n h hactive hfull hw hn hv hlt
  obtain ⟨f, tail, hs⟩ := h.dec.ctx.str_isSome hlt
  refine ⟨f, tail, hs, fun hlit => ?_, execDecByte_later h hactive hfull hw hn hv
    (resolveCode_present hlt ((s.dec.taken_str b n).trans hs))⟩
  rw [Ctx.str_literal _ (by omega)] at hs
  simpa [eq_comm] using hs

/-- Settles O24: the code is resolved to the previous string and its first byte, which is the string of the entry then
inserted. -/
theorem decByteNotYetDefinedCode : Obligations.DecByteNotYetDefinedCode := by
  intro s b h hactive hfull hw hn hv
  obtain ⟨tail, hs⟩ := h.dec.previousFirst hv
  refine ⟨tail, _, hs, execDecByte_later h hactive hfull hw hn hv
    (resolveCode_kwk ((s.dec.taken_str b _).trans hs)), rfl, ?_, Nat.lt_succ_self _⟩
  rw [h.dec.ctx.str_new h.dec.nextCodeHigh (h.dec.previous hv) rfl rfl, hs]
  rfl

/-- Settles O25: the code is of class `BAD`, and its value fits the information register. -/
theorem decByteCorruptCode : Obligations.DecByteCorruptCode := by
  intro s b n h hactive hfull hw hn hbad
  have hclass : s.dec.nextCode < n ∨ (n = s.dec.nextCode ∧ s.dec.havePrev = false) := by
    rcases hbad with hgt | ⟨hv, hge⟩
    · exact .inl hgt
    · obtain ⟨hfirst : s.dec.nextCode = 256, -⟩ := h.dec.noPrevious hv
      rw [hfirst, and_iff_left hv]
      omega
  have hfits : n < 2 ^ (s.params.wmax + 1) :=
    hn ▸ (Dec.code_lt h.dec.rbufFits b hfull).trans_le (Nat.pow_le_pow_right (by decide) (by omega))
  rw [execDecByte_of_raised h hactive hfull hw hn
    (processCode_of_bad (d := s.dec.taken b) hclass)]
  simp only [State.enterDecFault, Ctx.enterFault, zextInfo_of_lt hfits]

/-- Settles O26: the cases of `DEC_BYTE` that stay in the call; fewer bits than a code are left because the invariant is
kept. -/
theorem atMostOneCodePerByte : Obligations.AtMostOneCodePerByte := by
  intro s t b h hactive hx ht
  have hlow := (h.exec hx).dec.nrbufLow
  have hleft : s.dec.nrbuf + 8 - s.dec.width ≤ 7 := by
    have := h.dec.nrbufLow
    omega
  rw [execDecByte_active b hactive] at hx
  rcases decByteBody_cases h.dec b with
    ⟨hshort, hb⟩ | ⟨-, -, hb⟩ |
    ⟨hfull, -, n, rfl, hlt, ⟨-, hb⟩ | ⟨-, -, hb⟩ | ⟨-, -, f, tail, -, -, hb⟩⟩ <;>
    rw [hb] at hx <;> cases hx
  · exact ⟨fun _ => rfl, fun _ => by omega⟩
  · cases ht
  · cases ht
  · exact ⟨fun _ => by omega, fun _ => ⟨hleft, hlow, _, hlt, rfl⟩⟩
  · exact ⟨fun _ => by omega, fun _ => ⟨hleft, hlow, _, hlt, rfl⟩⟩

/-! ### `DEC_END` (R151) -/

theorem encode_decEnd : encode .decEnd = 0x700 := by decide

theorem exec_decEnd_of_active {s : State} (h : s.dec.st = .active) :
    exec .decEnd s = .next { s with dec := { s.dec with st := .done } } :=
  exec_dec_of_performed rfl (by rw [h]; rfl) rfl

/-- Settles O27: `DEC_END` by the state of the context. -/
theorem decEndMeaning : Obligations.DecEndMeaning := by
  refine ⟨encode_decEnd, fun s => ⟨exec_decEnd_of_active, fun hready => ?_, exec_dec_of_fault rfl⟩⟩
  have hexec := exec_dec_of_ready (i := .decEnd) rfl nofun hready
  rwa [encode_decEnd] at hexec

end Sys2Proof.Machine
end

section
/-!
SUPPORT. The entries an encode call makes (spec/40_encoder.md R124): each one is the code written, then the first byte
of the string of the code after it.
-/

namespace Sys2Proof.Machine

open Sys2Proof

/-! ### Codes linked to the dictionary (R124, R146) -/

/-- The entry made when a code of the sequence was followed by another: that code, then the first byte of the other's
string, at 256 for the first code, 257 for the second, and so on. -/
def Ctx.Linked (c : Ctx) (l : List Nat) : Prop :=
  ∀ j pre next, l[j]? = some pre → l[j + 1]? = some next →
    ∃ b s, c.dictRead (256 + j) = some ⟨pre, b⟩ ∧ c.str next = some (b :: s)

theorem Ctx.Linked.nil (c : Ctx) : c.Linked [] := nofun

theorem Ctx.Linked.of_append {c : Ctx} {l m : List Nat} (h : c.Linked (l ++ m)) : c.Linked l := by
  intro j pre next hpre hnext
  refine h j pre next ?_ ?_
  · rwa [List.getElem?_append_left (List.getElem?_eq_some_iff.1 hpre).1]
  · rwa [List.getElem?_append_left (List.getElem?_eq_some_iff.1 hnext).1]

theorem Ctx.linked_snoc_iff {c : Ctx} {l : List Nat} {k : Nat} :
    c.Linked (l ++ [k]) ↔ c.Linked l ∧ ∀ pre, l.getLast? = some pre →
      ∃ b s, c.dictRead (255 + l.length) = some ⟨pre, b⟩ ∧ c.str k = some (b :: s) := by
  constructor
  · refine fun h => ⟨h.of_append, fun pre hpre => ?_⟩
    rw [List.getLast?_eq_getElem?] at hpre
    obtain ⟨hlt, -⟩ := List.getElem?_eq_some_iff.1 hpre
    have hlink := h (l.length - 1) pre k (by rwa [List.getElem?_append_left hlt])
      (by simp [Nat.sub_add_cancel (Nat.one_le_of_lt hlt)])
    rwa [show 256 + (l.length - 1) = 255 + l.length by omega] at hlink
  · rintro ⟨hold, hlast⟩ j pre next hpre hnext
    obtain ⟨hlt, -⟩ := List.getElem?_eq_some_iff.1 hnext
    rw [List.length_append, List.length_singleton] at hlt
    rw [List.getElem?_append_left (by omega)] at hpre
    rcases Nat.lt_or_eq_of_le (Nat.le_of_lt_succ hlt) with hj | hj
    · rw [List.getElem?_append_left hj] at hnext
      exact hold j pre next hpre hnext
    · rw [hj, List.getElem?_concat_length] at hnext
      cases hnext
      rw [show 256 + j = 255 + l.length by omega]
      exact hlast pre (by rwa [List.getLast?_eq_getElem?, ← hj])

/-- Another last code whose string begins with the same byte is linked as well. -/
theorem Ctx.Linked.replace_last {c : Ctx} {l : List Nat} {k k' : Nat} (h : c.Linked (l ++ [k]))
    (hk : ∀ b s, c.str k = some (b :: s) → ∃ s', c.str k' = some (b :: s')) :
    c.Linked (l ++ [k']) := by
  obtain ⟨hold, hlast⟩ := Ctx.linked_snoc_iff.1 h
  refine Ctx.linked_snoc_iff.2 ⟨hold, fun pre hpre => ?_⟩
  obtain ⟨b, s, hread, hs⟩ := hlast pre hpre
  obtain ⟨s', hs'⟩ := hk b s hs
  exact ⟨b, s', hread, hs'⟩

/-- Entries that hold a value and strings stay, so links stay. -/
theorem Ctx.Linked.mono {c c' : Ctx} {l : List Nat} (h : c.Linked l)
    (hread : ∀ k < c.nextCode, c'.dictRead k = c.dictRead k)
    (hstr : ∀ k y, c.str k = some y → c'.str k = some y) : c'.Linked l := by
  intro j pre next hpre hnext
  obtain ⟨b, s, hr, hs⟩ := h j pre next hpre hnext
  have hlt : 256 + j < c.nextCode := ((c.dictRead_eq_some _ _).1 hr).1.2
  exact ⟨b, s, (hread _ hlt).trans hr, hstr _ _ hs⟩

/-- `Linked` looks at the memory and `next_code` only. -/
theorem Ctx.Linked.of_same {c c' : Ctx} {l : List Nat} (h : c.Linked l) (hd : c'.dict = c.dict)
    (hn : c'.nextCode = c.nextCode) : c'.Linked l :=
  h.mono (fun _ _ => Ctx.dictRead_congr hd hn) fun _ _ hs => (Ctx.str_eq_of_same hd hn).trans hs

/-! ### The encoder keeps its codes linked (R122, R127) -/

/-- The codes written, then the code of the current match. -/
def Enc.codes (e : Enc) : List Nat := e.trace.map Prod.fst ++ e.currentMatch.toList

theorem Enc.codes_of_valid {e : Enc} (h : e.curValid = true) :
    e.codes = e.trace.map Prod.fst ++ [e.curCode] := by
  rw [Enc.codes, Enc.currentMatch_of_valid h, Option.toList_some]

theorem Enc.codes_of_empty {e : Enc} (h : e.curValid = false) :
    e.codes = e.trace.map Prod.fst := by
  rw [Enc.codes, Enc.currentMatch_of_empty h, Option.toList_none, List.append_nil]

/-- What the decoder needs of the encoder beside its stream: linked codes, at widths the hardware has. -/
structure EncLinked (p : Params) (e : Enc) : Prop where
  linked : e.toCtx.Linked e.codes
  widths : ∀ x ∈ e.trace, x.2 ≤ p.wmax

theorem EncLinked.of_match {p : Params} {e : Enc} (hv : e.curValid = true)
    (h : e.toCtx.Linked (e.trace.map Prod.fst ++ [e.curCode])) (hw : ∀ x ∈ e.trace, x.2 ≤ p.wmax) :
    EncLinked p e :=
  ⟨by rwa [Enc.codes_of_valid hv], hw⟩

theorem EncLinked.linked_match {p : Params} {e : Enc} (h : EncLinked p e)
    (hv : e.curValid = true) : e.toCtx.Linked (e.trace.map Prod.fst ++ [e.curCode]) := by
  rw [← Enc.codes_of_valid hv]
  exact h.linked

theorem EncLinked.started {p : Params} {e e' : Enc} (hb : encInitBody e = .ok e') :
    EncLinked p e' := by
  cases hb
  exact ⟨.nil _, nofun⟩

theorem EncLinked.enterFault {p : Params} {e : Enc} (h : EncLinked p e) (f : FaultCode)
    (info : Nat) : EncLinked p { e with toCtx := e.toCtx.enterFault p f info } :=
  ⟨h.linked.of_same rfl rfl, h.widths⟩

/-- One more code is written at a width the hardware has. -/
theorem EncLinked.widths_snoc {p : Params} {e : Enc} (hs : EncLinked p e) (hw : e.width ≤ p.wmax) :
    ∀ x ∈ e.trace ++ [(e.curCode, e.width)], x.2 ≤ p.wmax := by
  intro x hx
  rcases List.mem_append.1 hx with hx | hx
  · exact hs.widths x hx
  · rw [List.mem_singleton.1 hx]
    exact hw

/-- `ENC_BYTE` keeps the links: the first match has no code before it, a hit keeps the first byte of the match, a miss
makes the entry that links the code written to the new match. -/
theorem EncLinked.byteConsumed {p : Params} {e e' : Enc} {c : Byte} (hl : EncLinked p e)
    (hs : EncStream e) (h : EncInv p e) (ha : e.st = .active) (hb : encByteBody p c e = .ok e') :
    EncLinked p e' := by
  have hgrown := (encByteBody_ok hb).1
  rcases encByteBody_cases h c with
    ⟨hv, h'⟩ | ⟨k, hv, -, hr, h'⟩ | ⟨-, -, -, h'⟩ | ⟨hv, -, hw, hn, h'⟩ <;>
    rw [h'] at hb <;> cases hb
  · obtain ⟨-, -, -, htrace⟩ := h.emptyMatch ha hv
    refine .of_match rfl ?_ hl.widths
    rw [htrace]
    exact Ctx.linked_snoc_iff.2 ⟨.nil _, nofun⟩
  · have hhit := (hl.linked_match hv).replace_last (k' := k) fun b x hx => ⟨x ++ [c], ?_⟩
    · exact .of_match hv (hhit.of_same rfl rfl) hl.widths
    rw [e.toCtx.str_of_dictRead h.ctx.descends hr, hx]
    rfl
  · refine .of_match hv ?_ (hl.widths_snoc hw)
    rw [List.map_append]
    refine Ctx.linked_snoc_iff.2 ⟨(hl.linked_match hv).mono (fun _ => hgrown.dictRead) fun k y hy =>
      (h.ctx.str_inserted hn (h.current hv) rfl rfl (h.ctx.lt_of_str hy)).trans hy,
      fun pre hpre => ⟨c, [], ?_, Ctx.str_byte _ c⟩⟩
    obtain rfl : e.curCode = pre := by simpa using hpre
    have hread := e.toCtx.dictRead_inserted ⟨e.curCode, c⟩ h.ctx.nextCodeLow e.nextCode
    rw [if_pos rfl] at hread
    rw [← hread, show 255 + _ = e.nextCode by simp [hs.count ha]; omega]
    exact Ctx.dictRead_congr rfl rfl

/-- `ENC_END` keeps the links: the match becomes the last code written. -/
theorem EncLinked.finished {p : Params} {e e' : Enc} (hl : EncLinked p e) (h : EncInv p e)
    (ha : e.st = .active) (hb : encEndBody p e = .ok e') : EncLinked p e' := by
  rcases encEndBody_cases h ha with ⟨-, -, -, -, -, h'⟩ | ⟨-, -, h'⟩ | ⟨hv, hw, -⟩
  · rw [h'] at hb
    cases hb
    exact ⟨hl.linked.of_same rfl rfl, hl.widths⟩
  · cases h'.symm.trans hb
  · rw [h.encEndBody_final hv hw] at hb
    cases hb
    refine ⟨?_, hl.widths_snoc hw⟩
    rw [Enc.codes_of_empty rfl, List.map_append]
    exact (hl.linked_match hv).of_same rfl rfl

theorem EncLinked.commandDone {p : Params} {e e' : Enc} {i : Instr} (hk : EncLinked p e)
    (hs : EncStream e) (h : EncInv p e) (hl : legality e.st i.kind = .performed)
    (hb : encCommandBody p i e = .ok e') : EncLinked p e' := by
  cases i with
  | encInit => exact .started hb
  | encByte c => exact hk.byteConsumed hs h (active_of_byte_performed hl) hb
  | encEnd => exact hk.finished h (active_of_finish_performed hl) hb
  | decInit | decByte _ | decEnd =>
    cases hb
    exact hk

/-- Every command keeps the links, as it keeps the stream. -/
theorem exec_keeps_encLinked {i : Instr} {s t : State} (h : s.Inv) (hs : EncStream s.enc)
    (hk : EncLinked s.params s.enc) (hx : exec i s = .next t) : EncLinked t.params t.enc := by
  rw [exec_params hx]
  exact exec_keeps_enc hx hk (fun f info _ => hk.enterFault f info)
    fun _ hl hb => hk.commandDone hs h.enc hl hb

/-- A finished encode call as a decoder sees it: its codes are its trace, each in range at the width of its ordinal, and
linked. -/
structure EncodedCall (p : Params) (c : Ctx) : Prop where
  ctx : CtxInv p c
  ordinals : TraceOrdinals c.trace
  widths : ∀ x ∈ c.trace, x.2 ≤ p.wmax
  linked : c.Linked (c.trace.map Prod.fst)

/-- An encode call leaves such a context when it ends in `DONE` (R128). -/
theorem encodedCall_of_encodeScript {s t : State} {input : List Byte} (h : s.Inv)
    (hr : s.enc.toCtx.ready) (hx : execAll (encodeScript input) s = .next t)
    (ht : t.enc.st = .done) : EncodedCall t.params t.enc.toCtx := by
  obtain ⟨hinv, hstream⟩ := inv_encStream_of_encodeScript h hr hx
  obtain ⟨u, hu, hrest⟩ := execAll_cons_eq_next hx
  have hbegun : u.Inv ∧ EncStream u.enc ∧ EncLinked u.params u.enc := by
    refine ⟨h.exec hu, ?_⟩
    rw [exec_encInit_eq hr] at hu
    cases hu
    exact ⟨.started (e := s.enc) rfl, .started (e := s.enc) rfl⟩
  obtain ⟨-, -, hlinked⟩ := execAll_keeps
    (P := fun u => u.Inv ∧ EncStream u.enc ∧ EncLinked u.params u.enc)
    (fun _ _ _ ⟨hi, hs, hk⟩ hx => ⟨hi.exec hx, exec_keeps_encStream hi hs hx,
      exec_keeps_encLinked hi hs hk hx⟩) hbegun hrest
  refine ⟨hinv.enc.ctx, hstream.ordinals, hlinked.widths, ?_⟩
  rw [← Enc.codes_of_empty (hinv.enc.doneEmpty ht).1]
  exact hlinked.linked

end Sys2Proof.Machine
end

section
/-!
SUPPORT. The round trip (spec/41_decoder.md R152): a decoder that reads the packed stream of a finished encode call reads
the encoder's codes and rebuilds its dictionary, entry by entry.
-/

namespace Sys2Proof.Machine

open Sys2Proof

/-! ### The decoder follows the codes (R142 to R150) -/

/-- The width the decoder reads the next code at is that of the code's ordinal (R44, R92). -/
theorem DecStream.width_eq {p : Params} {d : Dec} (hs : DecStream d) (h : DecInv p d) :
    d.width = ordinalWidth (d.trace.length + 1) := by
  cases hv : d.havePrev with
  | false =>
    obtain ⟨hn : d.nextCode = 256, htrace⟩ := h.noPrevious hv
    rw [h.width, hn, htrace]
    rfl
  | true =>
    obtain ⟨-, hcount⟩ := hs.count hv
    exact h.width.trans (widthOf_eq_ordinalWidth (by omega))

/-- A code in range at its ordinal fits the ordinal's width (R92, R95). -/
theorem lt_two_pow_ordinalWidth {n j : Nat} (h : n ≤ 254 + j) : n < 2 ^ ordinalWidth j := by
  have := lt_two_pow_bitlen (255 + j)
  rw [ordinalWidth]
  omega

/-- A byte put behind the buffered bits, in stream order (R195). -/
theorem Dec.bitsMSB_appended (d : Dec) (b : Byte) :
    bitsMSB (d.rbuf * 256 + b.toNat) (d.nrbuf + 8) = bitsMSB d.rbuf d.nrbuf ++ byteBits b :=
  bitsMSB_mul_add d.rbuf b.toNat d.nrbuf 8 b.isLt

/-- The bits of a buffer are those of the code taken out, then those that stay (R196). -/
theorem bitsMSB_extracted (total : Nat) {t w : Nat} (h : w ≤ t) :
    bitsMSB total t =
      bitsMSB (total / 2 ^ (t - w)) w ++ bitsMSB (total % 2 ^ (t - w)) (t - w) := by
  rw [bitsMSB_mod le_rfl, ← bitsMSB_add, Nat.add_sub_cancel' h]

/-- A decoder part-way through the stream of the finished encode call `c`: it has read the codes before `codes`, what is
buffered and `rest` are the bits of `codes` and the pad, and its entries are those of `c`. -/
structure DecFollows (p : Params) (c : Ctx) (codes : List (Nat × Nat)) (rest : List Byte)
    (d : Dec) : Prop where
  inv : DecInv p d
  stream : DecStream d
  active : d.st = .active
  split : c.trace = d.trace ++ codes
  bits : ∃ pad < 8, bitsMSB d.rbuf d.nrbuf ++ streamBits rest =
    codeBits codes ++ List.replicate pad false
  sameDict : ∀ k < d.nextCode, d.toCtx.dictRead k = c.dictRead k
  lastRead : d.havePrev = true → (d.trace.map Prod.fst).getLast? = some d.prevCode

section

variable {p : Params} {c : Ctx} {codes : List (Nat × Nat)} {rest : List Byte} {d : Dec}

/-- Below the decoder's `next_code` a code has the same string in both contexts. -/
theorem DecFollows.str_eq (h : DecFollows p c codes rest d) (hc : EncodedCall p c) {k : Nat}
    (hk : k < d.nextCode) : d.toCtx.str k = c.str k :=
  Ctx.str_congr _ _ h.inv.ctx.descends hc.ctx.descends k fun j hj =>
    h.sameDict j (hj.trans_lt hk)

/-- The next code: its width is the decoder's and one the hardware has, and it is in range (R92, R95). -/
theorem DecFollows.next_code {n w : Nat} (h : DecFollows p c ((n, w) :: codes) rest d)
    (hc : EncodedCall p c) : w = d.width ∧ w ≤ p.wmax ∧ n < 2 ^ w ∧ n ≤ 255 + d.trace.length := by
  have hmem : (n, w) ∈ c.trace := by simp [h.split]
  have hget : c.trace[d.trace.length]? = some (n, w) := by simp [h.split]
  obtain ⟨hlt, hget⟩ := List.getElem?_eq_some_iff.1 hget
  obtain ⟨hwidth, hcode⟩ := hc.ordinals _ hlt
  rw [hget] at hwidth hcode
  refine ⟨hwidth.trans (h.stream.width_eq h.inv).symm, hc.widths _ hmem, ?_, by omega⟩
  rw [show w = _ from hwidth]
  exact lt_two_pow_ordinalWidth hcode

/-- The next code is not one of class `BAD` (R37, R95). -/
theorem DecFollows.not_corrupt {n w : Nat} (h : DecFollows p c ((n, w) :: codes) rest d)
    (hc : EncodedCall p c) : ¬ (d.nextCode < n ∨ d.havePrev = false ∧ d.nextCode ≤ n) := by
  obtain ⟨-, -, -, hle⟩ := h.next_code hc
  rw [← h.stream.bound_lt_iff h.inv]
  split_ifs with htrace
  · rw [htrace, List.length_nil] at hle
    omega
  · omega

/-- When the stream has ended, so have the codes: what is left is pad (R69, R198). -/
theorem DecFollows.codes_eq_nil (h : DecFollows p c codes [] d) (hc : EncodedCall p c) :
    codes = [] := by
  cases codes with
  | nil => rfl
  | cons x codes =>
    obtain ⟨n, w⟩ := x
    obtain ⟨rfl, -⟩ := h.next_code hc
    obtain ⟨pad, -, hbits⟩ := h.bits
    have hlen := congrArg List.length hbits
    have := h.inv.nrbufLow
    simp only [List.length_append, length_bitsMSB, length_streamBits, codeBits_cons,
      List.length_nil] at hlen
    omega

/-- A byte that completes no code is buffered (R142). -/
theorem DecFollows.buffered {b : Byte} (h : DecFollows p c codes (b :: rest) d)
    (hb : decByteBody p b d = .ok (d.appendByte b)) :
    DecFollows p c codes rest (d.appendByte b) :=
  { h with
    inv := h.inv.byteRead hb
    stream := h.stream.byteRead h.inv hb
    bits := by
      obtain ⟨pad, hpad, hbits⟩ := h.bits
      refine ⟨pad, hpad, ?_⟩
      rw [← hbits, Dec.appendByte_rbuf, Dec.appendByte_nrbuf, Dec.bitsMSB_appended,
        streamBits_cons, List.append_assoc] }

/-- A byte that completes a code completes the next code of the call, and leaves the bits of those after it. -/
theorem DecFollows.completed {b : Byte} (h : DecFollows p c codes (b :: rest) d)
    (hc : EncodedCall p c) (hfull : d.width ≤ d.nrbuf + 8) {n : Nat}
    (hn : n = (d.rbuf * 256 + b.toNat) / 2 ^ (d.nrbuf + 8 - d.width)) (hlt : n < 2 ^ d.width) :
    ∃ codes', codes = (n, d.width) :: codes' ∧ ∃ pad < 8,
      bitsMSB ((d.rbuf * 256 + b.toNat) % 2 ^ (d.nrbuf + 8 - d.width)) (d.nrbuf + 8 - d.width) ++
        streamBits rest = codeBits codes' ++ List.replicate pad false := by
  obtain ⟨pad, hpad, hbits⟩ := h.bits
  rw [streamBits_cons, ← List.append_assoc, ← Dec.bitsMSB_appended] at hbits
  cases codes with
  | nil =>
    have hlen := congrArg List.length hbits
    simp only [List.length_append, length_bitsMSB, codeBits_nil, List.length_nil,
      List.length_replicate] at hlen
    omega
  | cons x codes =>
    obtain ⟨m, w⟩ := x
    obtain ⟨rfl, -, hm, -⟩ := h.next_code hc
    rw [bitsMSB_extracted _ hfull, ← hn, codeBits_cons, List.append_assoc, List.append_assoc]
      at hbits
    obtain ⟨hcode, hleft⟩ := List.append_inj hbits (by simp)
    obtain rfl := bitsMSB_inj hlt hm hcode
    exact ⟨codes, rfl, pad, hpad, hleft⟩

/-- The entry that a later code makes is the one the encoder made after the code before (R124, R146, R147). -/
theorem DecFollows.entry_eq {n w : Nat} (h : DecFollows p c ((n, w) :: codes) rest d)
    (hc : EncodedCall p c) (hv : d.havePrev = true) {f : Byte} {tail : List Byte}
    (hle : n ≤ d.nextCode) (hpresent : n < d.nextCode → d.toCtx.str n = some (f :: tail))
    (hnew : n = d.nextCode → ∃ s, d.toCtx.str d.prevCode = some (f :: s)) :
    c.dictRead d.nextCode = some ⟨d.prevCode, f⟩ := by
  have hlinked : c.Linked (d.trace.map Prod.fst ++ [n]) := by
    have := hc.linked
    rw [h.split, List.map_append, List.map_cons, List.append_cons] at this
    exact this.of_append
  obtain ⟨b, s, hread, hs⟩ := (Ctx.linked_snoc_iff.1 hlinked).2 _ (h.lastRead hv)
  obtain ⟨-, hcount⟩ := h.stream.count hv
  rw [List.length_map, ← hcount] at hread
  suffices hbf : b = f by rw [hread, hbf]
  rcases hle.lt_or_eq with hlt | rfl
  · rw [← h.str_eq hc hlt, hpresent hlt] at hs
    exact (List.cons.inj (Option.some.inj hs)).1.symm
  · obtain ⟨s', hs'⟩ := hnew rfl
    have hstr := c.str_of_dictRead hc.ctx.descends hread
    rw [← h.str_eq hc (h.inv.previous hv), hs', hs] at hstr
    exact (List.cons.inj (Option.some.inj hstr)).1

/-- One byte of the stream: no fault, and the decoder follows on. -/
theorem DecFollows.byteRead {b : Byte} (h : DecFollows p c codes (b :: rest) d)
    (hc : EncodedCall p c) :
    ∃ d' codes', decByteBody p b d = .ok d' ∧ DecFollows p c codes' rest d' := by
  rcases decByteBody_cases h.inv b with
    ⟨-, hb⟩ | ⟨hfull, hw, -⟩ | ⟨hfull, -, n, hn, hlt, hcases⟩
  · exact ⟨_, codes, hb, h.buffered hb⟩
  · obtain ⟨codes', rfl, -⟩ := h.completed hc hfull rfl (Dec.code_lt h.inv.rbufFits b hfull)
    obtain ⟨-, hwmax, -⟩ := h.next_code hc
    exact absurd hwmax (Nat.not_le.2 hw)
  obtain ⟨codes', rfl, hbits⟩ := h.completed hc hfull hn hlt
  have hsplit : c.trace = (d.trace ++ [(n, d.width)]) ++ codes' := by rw [h.split]; simp
  rcases hcases with ⟨hbad, -⟩ | ⟨hv, hn', hb⟩ | ⟨hv, hn', f, tail, hpresent, hnew, hb⟩
  · exact absurd hbad (h.not_corrupt hc)
  · exact ⟨_, codes', hb,
      { inv := h.inv.byteRead hb
        stream := h.stream.byteRead h.inv hb
        active := h.active
        split := hn ▸ hsplit
        bits := hbits
        sameDict := h.sameDict
        lastRead := fun _ => by simp [Dec.extracted, hn] }⟩
  · have hentry := h.entry_eq hc hv hn' hpresent fun he => (hnew he).2.imp fun _ hs => hs.2
    refine ⟨_, codes', hb,
      { inv := h.inv.byteRead hb
        stream := h.stream.byteRead h.inv hb
        active := h.active
        split := hn ▸ hsplit
        bits := hbits
        sameDict := fun k hk => ?_
        lastRead := fun _ => by simp [Dec.extracted, hn] }⟩
    refine (Ctx.dictRead_congr rfl rfl).trans
      ((d.toCtx.dictRead_inserted ⟨d.prevCode, f⟩ h.inv.ctx.nextCodeLow k).trans ?_)
    split
    · rename_i hk'
      rw [hk', hentry]
    · exact h.sameDict k (by have : k < d.nextCode + 1 := hk; omega)

/-- The bytes of the stream, then `DEC_END`: the call ends in `DONE` with the codes of `c` read (R151, R152). -/
theorem execAll_restOfDecode {s : State} {input : List Byte} (hc : EncodedCall s.params c)
    (hinput : c.strAll (c.trace.map Prod.fst) = some input)
    (h : DecFollows s.params c codes rest s.dec) :
    ∃ d, execAll (decBytes rest ++ [.decEnd]) s = .next { s with dec := d } ∧ d.st = .done ∧
      d.trace = c.trace ∧ d.out = input := by
  induction rest generalizing s codes with
  | nil =>
    obtain rfl := h.codes_eq_nil hc
    have htrace : c.trace = s.dec.trace := by rw [h.split, List.append_nil]
    refine ⟨{ s.dec with st := .done }, ?_, rfl, htrace.symm, ?_⟩
    · rw [decBytes, List.map_nil, List.nil_append, execAll, exec_decEnd_of_active h.active]
      rfl
    · have hout := h.stream.output
      rw [← htrace] at hout
      refine Option.some.inj (hout.symm.trans (Eq.trans (Ctx.strAll_congr _ fun k hk => ?_) hinput))
      obtain ⟨y, hy⟩ := Ctx.str_of_strAll hout k hk
      exact h.str_eq hc (h.inv.ctx.lt_of_str hy)
  | cons b rest ih =>
    obtain ⟨d, codes', hb, hd⟩ := h.byteRead hc
    obtain ⟨d', hrun, hdone⟩ := ih (s := { s with dec := d }) hc hd
    have hexec := execDecByte_active b h.active
    rw [hb] at hexec
    refine ⟨d', ?_, hdone⟩
    rw [decBytes, List.map_cons, List.cons_append, execAll, hexec]
    exact hrun

end

/-! ### A whole call (R152) -/

/-- Encoder commands leave the decoder context as it is (R12, R20). -/
theorem execAll_enc_dec {l : List Instr} (hl : ∀ i ∈ l, i.context = .enc) {s t : State}
    (h : execAll l s = .next t) : t.dec = s.dec := by
  induction l generalizing s with
  | nil =>
    cases h
    rfl
  | cons i rest ih =>
    obtain ⟨u, hu, hrest⟩ := execAll_cons_eq_next h
    rw [ih (fun j hj => hl j (List.mem_cons_of_mem _ hj)) hrest,
      exec_enc_eq_setEnc (hl i List.mem_cons_self) hu]

theorem context_of_mem_encodeScript {input : List Byte} {i : Instr}
    (h : i ∈ encodeScript input) : i.context = .enc := by
  simp only [encodeScript, encBytes, List.mem_cons, List.mem_append, List.mem_map,
    List.not_mem_nil, or_false] at h
  rcases h with rfl | ⟨c, -, rfl⟩ | rfl <;> rfl

/-- `DEC_INIT` starts a decoder that follows the finished encode call from its first code (R141). -/
theorem DecFollows.started {p : Params} {e : Enc} {d d' : Dec} (hp : p.wf) (hs : EncStream e)
    (hdone : e.st = .done) (h : DecInv p d) (hready : d.toCtx.ready)
    (hb : decInitBody d = .ok d') : DecFollows p e.toCtx e.trace e.out d' := by
  have hinv := h.started hp hready hb
  cases hb
  exact
    { inv := hinv
      stream := .of_fresh rfl rfl rfl
      active := rfl
      split := rfl
      bits := ⟨_, Nat.mod_lt _ (by decide), hs.done hdone⟩
      sameDict := fun k (hk : k < 256) =>
        (Ctx.dictRead_of_outside _ (.inl hk)).trans (Ctx.dictRead_of_outside _ (.inl hk)).symm
      lastRead := nofun }

/-- Settles O30: the call starts a decoder that follows the encoder's codes, and it follows them to the end. -/
theorem decodeRestoresEncodedInput : Obligations.DecodeRestoresEncodedInput := by
  intro s t input h henc hdec hx hdone
  obtain ⟨hinv, hstream⟩ := inv_encStream_of_encodeScript h henc hx
  have hready : t.dec.toCtx.ready := by
    rwa [execAll_enc_dec (fun _ => context_of_mem_encodeScript) hx]
  obtain ⟨d, hb⟩ : ∃ d, decInitBody t.dec = .ok d := ⟨_, rfl⟩
  have hinit := exec_dec_of_performed (i := .decInit) rfl (legality_init_of_ready hready) hb
  have hcall := encodedCall_of_encodeScript h henc hx hdone
  have hspell := strAll_of_encodeScript h henc hx hdone
  obtain ⟨d', hrun, hd', htrace, hout⟩ :=
    execAll_restOfDecode (s := { t with dec := d }) hcall hspell
      (.started hinv.params hstream hdone hinv.dec hready hb)
  refine ⟨{ t with dec := d' }, ?_, hd', htrace, hout, rfl⟩
  rw [decodeScript, execAll, hinit]
  exact hrun

end Sys2Proof.Machine
end

section
/-!
SUPPORT. The width policy, `Lookup` and the dictionary's strings (spec/42_width_policy_dictionary.md).
-/

namespace Sys2Proof.Machine

open Sys2Proof

/-! ### The width policy (R178, R179) -/

/-- Settles O31: the numbers of `w` bits. -/
theorem widthOfSteps : Obligations.WidthOfSteps := by
  refine ⟨widthOf_firstCode, fun w occ hw _ => ?_⟩
  obtain ⟨v, rfl⟩ : ∃ v, w = v + 1 := ⟨w - 1, by omega⟩
  exact bitlen_eq_succ_iff occ v

/-- Settles O33: the test of `Grow` is the condition under which `bitlen` steps up. -/
theorem growKeepsWidthOf : Obligations.GrowKeepsWidthOf := by
  intro c occ hw
  rw [← widthOf_succ hw, Ctx.grow]
  split <;> rfl

/-! ### The string of every code (R173) -/

/-- A stored code's string is its prefix code's string and the entry's byte. -/
theorem CtxInv.str_of_stored {p : Params} {c : Ctx} (h : CtxInv p c) {k : Nat} (hk : 256 ≤ k)
    (hlt : k < c.nextCode) : ∃ e x, c.dictRead k = some e ∧ e.pre < k ∧ c.str e.pre = some x ∧
      c.str k = some (x ++ [e.last]) := by
  obtain ⟨e, hread⟩ := h.dictRead_isSome hk hlt
  have hpre := c.pre_lt_of_dictRead h.descends hread
  obtain ⟨b, s, hs⟩ := h.str_isSome (hpre.trans hlt)
  refine ⟨e, b :: s, hread, hpre, hs, ?_⟩
  rw [c.str_of_dictRead h.descends hread, hs, Option.map_some]

/-- Settles O35: literals are hardwired, stored codes have an entry, and no other code has one. -/
theorem strOfEveryCode : Obligations.StrOfEveryCode := by
  intro p c h k
  refine ⟨fun hk => c.str_literal (Nat.lt_succ_of_le hk), fun hk => ?_, fun hk hlt => ?_⟩
  · exact Option.eq_none_iff_forall_not_mem.2 fun _ hx => (h.lt_of_str hx).not_ge hk
  · obtain ⟨e, x, hread, hpre, hx, hstr⟩ := h.str_of_stored hk hlt
    obtain ⟨y, hy, hlen⟩ := h.two_le_length_str hk hlt
    obtain rfl : x ++ [e.last] = y := Option.some_inj.1 (hstr.symm.trans hy)
    exact ⟨e, x, hread, hpre, hx, hstr, hlen⟩

/-! ### Prefix closure (R176) -/

/-- Settles O36, by induction along the prefix codes: a prefix of a stored code's string is that string or a prefix of
the prefix code's string. -/
theorem dictionaryIsPrefixClosed : Obligations.DictionaryIsPrefixClosed := by
  intro p c h k
  induction k using Nat.strong_induction_on with
  | _ k ih =>
    intro x hk hx y hy hne
    by_cases hlit : k < 256
    · rw [c.str_literal hlit, Option.some_inj] at hx
      subst hx
      have hwhole : y = [byteOf k] := hy.eq_of_length_le (List.length_pos_of_ne_nil hne)
      exact ⟨k, hk, hwhole ▸ c.str_literal hlit⟩
    · obtain ⟨e, s, -, hpre, hs, hstr⟩ := h.str_of_stored (Nat.le_of_not_lt hlit) hk
      rw [hstr, Option.some_inj] at hx
      subst hx
      rcases List.prefix_concat_iff.1 hy with rfl | hy
      · exact ⟨k, hk, hstr⟩
      · exact ih e.pre hpre s (hpre.trans hk) hs y hy hne

/-! ### Distinct strings and `Lookup` (R174, R177 (c)) -/

/-- Only literal codes have a string one byte long (R172, R173). -/
theorem CtxInv.literal_of_str_singleton {p : Params} {c : Ctx} (h : CtxInv p c) {k : Nat} {b : Byte}
    (hk : c.str k = some [b]) : k < 256 := by
  by_contra hlit
  obtain ⟨x, hx, hlen⟩ := h.two_le_length_str (Nat.le_of_not_lt hlit) (h.lt_of_str hk)
  obtain rfl : [b] = x := Option.some_inj.1 (hk.symm.trans hx)
  exact absurd hlen (by simp)

theorem byteOf_inj {j k : Nat} (hj : j < 256) (hk : k < 256) (h : byteOf j = byteOf k) : j = k := by
  have := congrArg BitVec.toNat h
  simp only [byteOf, BitVec.toNat_ofNat] at this
  omega

/-- A code whose string is one byte more than a string of the dictionary is stored, with that byte, on a prefix code
of that string. -/
theorem CtxInv.dictRead_of_str_append {p : Params} {c : Ctx} (h : CtxInv p c) {j k : Nat}
    {x : List Byte} {b : Byte} (hj : c.str j = some x) (hk : c.str k = some (x ++ [b])) :
    ∃ q < k, c.dictRead k = some ⟨q, b⟩ ∧ c.str q = some x := by
  have hlt := h.lt_of_str hk
  have hstored : 256 ≤ k := by
    by_contra hlit
    obtain ⟨a, s, hs⟩ := h.str_isSome (h.lt_of_str hj)
    rw [hj, Option.some_inj] at hs
    rw [c.str_literal (Nat.lt_of_not_le hlit), hs] at hk
    simp at hk
  obtain ⟨e, y, hread, hpre, hy, hstr⟩ := h.str_of_stored hstored hlt
  rw [hk, Option.some_inj] at hstr
  obtain ⟨rfl, rfl⟩ := List.append_singleton_inj.1 hstr
  exact ⟨e.pre, hpre, hread, hy⟩

/-- Settles O37, by induction along the prefix codes: stored codes of the same string have the same pair. -/
theorem encoderStringsAreDistinct : Obligations.EncoderStringsAreDistinct := by
  intro p e h j
  induction j using Nat.strong_induction_on with
  | _ j ih =>
    intro k hj hk heq
    by_cases hlit : j < 256
    · have hstr := e.toCtx.str_literal hlit
      have hlit' := h.ctx.literal_of_str_singleton (heq.symm.trans hstr)
      rw [hstr, e.toCtx.str_literal hlit'] at heq
      exact byteOf_inj hlit hlit' (by simpa using heq)
    · obtain ⟨⟨pre, b⟩, x, hread, hpre, hx, hstr⟩ :=
        h.ctx.str_of_stored (Nat.le_of_not_lt hlit) hj
      obtain ⟨q, hq, hread', hx'⟩ := h.ctx.dictRead_of_str_append hx (heq.symm.trans hstr)
      have hpair : pre = q := ih pre hpre q (hpre.trans hj) (hq.trans hk) (hx.trans hx'.symm)
      subst hpair
      exact h.eq_of_dictRead hread hread'

/-- In `enc`, `Lookup` hits exactly the code whose entry is the pair. -/
theorem EncInv.lookup_eq_some_iff {p : Params} {e : Enc} (h : EncInv p e) (pre : Nat) (b : Byte)
    (k : Nat) : e.toCtx.lookup pre b = some k ↔ e.toCtx.dictRead k = some ⟨pre, b⟩ := by
  refine ⟨Ctx.dictRead_of_lookup h.ctx, fun hread => ?_⟩
  cases hl : e.toCtx.lookup pre b with
  | none => exact absurd hread (Ctx.dictRead_ne_of_lookup_none hl k)
  | some j => rw [h.eq_of_dictRead (Ctx.dictRead_of_lookup h.ctx hl) hread]

/-- Since strings are distinct, the pair `(pre, b)` is the entry of exactly the code of the extended string. -/
theorem EncInv.dictRead_iff_str {p : Params} {e : Enc} (h : EncInv p e) {pre : Nat} {b : Byte}
    {k : Nat} : e.toCtx.dictRead k = some ⟨pre, b⟩ ↔
      k < e.nextCode ∧ ∃ x, e.toCtx.str pre = some x ∧ e.toCtx.str k = some (x ++ [b]) := by
  constructor
  · intro hread
    obtain ⟨⟨hlow, hlt⟩, -⟩ := (e.toCtx.dictRead_eq_some k _).1 hread
    obtain ⟨entry, x, hread', -, hx, hstr⟩ := h.ctx.str_of_stored hlow hlt
    obtain rfl : entry = ⟨pre, b⟩ := Option.some_inj.1 (hread'.symm.trans hread)
    exact ⟨hlt, x, hx, hstr⟩
  · rintro ⟨-, x, hx, hstr⟩
    obtain ⟨q, -, hread, hx'⟩ := h.ctx.dictRead_of_str_append hx hstr
    rwa [encoderStringsAreDistinct p e h pre q (h.ctx.lt_of_str hx) (h.ctx.lt_of_str hx')
      (hx.trans hx'.symm)]

/-- Settles O34: the hit by the entry of the pair, and the entry by the extended string. -/
theorem lookupFindsThePair : Obligations.LookupFindsThePair := by
  intro p e h pre b
  have hhit := h.lookup_eq_some_iff pre b
  refine ⟨hhit, ?_, fun _ k => (hhit k).trans h.dictRead_iff_str⟩
  simp only [Option.eq_none_iff_forall_ne_some, ne_eq, hhit]

end Sys2Proof.Machine
end

section
/-!
SUPPORT. The bit writer and the bit reader keep the order of the bits (spec/43_bit_channel.md R191 to R196): the writer's
bits after `WriteBits` and after `Flush`, then the reader's after `AppendByte` and after `ExtractCode`.
-/

namespace Sys2Proof.Machine

open Sys2Proof

/-- Settles O39: the whole bytes and the kept bits are the bits of the number the writer forms. -/
theorem writeBitsAppendsCode : Obligations.WriteBitsAppendsCode := by
  intro e v w _ _
  have hlow : bitField v 0 w < 2 ^ w := Nat.mod_lt _ (Nat.two_pow_pos w)
  refine ⟨_, _, _, by rw [← bitField_zero]; rfl, length_leadingBytes _ _ _, rfl,
    e.writeBits_acc_lt v w, ?_⟩
  rw [Enc.writeBits_acc, bitField_zero _ ((e.nacc + w) % 8), streamBits_written _ _ _ _ hlow,
    bitField_zero, bitsMSB_mod le_rfl]

/-- The byte `Flush` writes holds the pending bits, then zeros (R193). -/
theorem byteBits_padded (acc : Nat) {nacc : Nat} (h : nacc ≤ 8) :
    byteBits (byteOf (acc * 2 ^ (8 - nacc))) =
      bitsMSB acc nacc ++ List.replicate (8 - nacc) false := by
  rw [byteBits_byteOf, ← bitsMSB_shift_zero, Nat.add_sub_cancel' h]

/-- Settles O40, by whether a bit is pending. -/
theorem flushPadsWithZeros : Obligations.FlushPadsWithZeros := by
  intro e _ hlow
  constructor
  · intro hnone
    exact if_neg (Nat.not_lt.2 hnone.le)
  · intro hpending
    exact ⟨_, if_pos hpending, byteBits_padded e.acc hlow.le⟩

/-- Settles O41: the number in the reader with a byte put below it, and cut `w` bits from its top. -/
theorem readerKeepsBitOrder : Obligations.ReaderKeepsBitOrder := by
  intro d hfits
  constructor
  · intro b
    exact ⟨rfl, Dec.appended_lt hfits b, d.bitsMSB_appended b⟩
  · intro w hw
    have hcode : (d.extractCode w).1 < 2 ^ w := Nat.mod_lt _ (Nat.two_pow_pos w)
    have hleft : (d.extractCode w).2.rbuf < 2 ^ (d.nrbuf - w) := Nat.mod_lt _ (Nat.two_pow_pos _)
    refine ⟨hcode, hleft, rfl, ?_⟩
    rw [bitsMSB_extracted d.rbuf hw, Dec.extractCode_code, Dec.extractCode_rbuf,
      Dec.extractCode_nrbuf, bitField_zero, bitField, bitsMSB_mod le_rfl]

end Sys2Proof.Machine
end

section
/-!
SUPPORT. The faults (spec/60_exceptions.md): the illegal word (R215), the command that is not legal (R211), what fault
entry changes (R219), how `FAULT` is left (R221), and the width limit (R213).
-/

namespace Sys2Proof.Machine

open Sys2Proof

/-! ### An illegal word (R215) -/

theorem step_of_not_legalWord {s : State} {w : CommandWord} {rest : List HostEvent}
    (hport : s.port = .command w :: rest) (hw : legalWord w = false) :
    step s = .next { s with port := rest, cmdFault := true } :=
  (step_of_port_command hport).trans (State.acceptWord_of_not_legalWord hw _)

theorem State.onEnc_setCmdFault (kind : CmdKind) (word : CommandWord) (body : Enc → Result Enc)
    (s : State) (flag : Bool) :
    State.onEnc kind word body { s with cmdFault := flag } =
      outcomeThen (s.onEnc kind word body) fun t => .next { t with cmdFault := flag } := by
  unfold State.onEnc
  cases legality s.enc.st kind with
  | ignored | notLegal => rfl
  | performed => cases body s.enc <;> rfl

theorem State.onDec_setCmdFault (kind : CmdKind) (word : CommandWord) (body : Dec → Result Dec)
    (s : State) (flag : Bool) :
    State.onDec kind word body { s with cmdFault := flag } =
      outcomeThen (s.onDec kind word body) fun t => .next { t with cmdFault := flag } := by
  unfold State.onDec
  cases legality s.dec.st kind with
  | ignored | notLegal => rfl
  | performed => cases body s.dec <;> rfl

/-- A command does the same whatever `cmd_fault` is. -/
theorem exec_setCmdFault {i : Instr} {s t : State} (h : exec i s = .next t) (flag : Bool) :
    exec i { s with cmdFault := flag } = .next { t with cmdFault := flag } := by
  cases hi : i.context with
  | enc =>
    rw [exec_of_context_enc hi] at h ⊢
    rw [State.onEnc_setCmdFault, h, outcomeThen]
  | dec =>
    rw [exec_of_context_dec hi] at h ⊢
    rw [State.onDec_setCmdFault, h, outcomeThen]

/-- Settles O6: the step by its word, and no command writes or reads `cmd_fault`. -/
theorem illegalWordSetsCmdFault : Obligations.IllegalWordSetsCmdFault := fun _ =>
  ⟨fun _ _ => step_of_not_legalWord, fun _ _ h => ⟨exec_cmdFault h, exec_setCmdFault h true⟩⟩

/-! ### A command that is not legal (R211) -/

/-- The rows of R38 that are not legal, as R211 names them. -/
theorem legality_eq_notLegal_iff (st : CtxState) (kind : CmdKind) :
    legality st kind = .notLegal ↔
      (st = .active ∧ kind = .init) ∨ ((st = .idle ∨ st = .done) ∧ kind ≠ .init) := by
  cases st <;> cases kind <;> decide

/-- Settles O44: the table's rows that are not legal. -/
theorem protocolErrorWhereNotLegal : Obligations.ProtocolErrorWhereNotLegal := fun _ _ =>
  ⟨fun hi h => exec_enc_of_notLegal hi ((legality_eq_notLegal_iff _ _).2 h),
    fun hi h => exec_dec_of_notLegal hi ((legality_eq_notLegal_iff _ _).2 h)⟩

/-! ### Fault entry (R219) -/

theorem completedState_ne_fault (kind : CmdKind) : completedState kind ≠ .fault := by
  cases kind <;> decide

/-- An encoder command that does not end in `FAULT` is performed and completes. -/
theorem exec_enc_of_ne_fault {i : Instr} (hi : i.context = .enc) {s t : State}
    (h : exec i s = .next t) (ht : t.enc.st ≠ .fault) :
    legality s.enc.st i.kind = .performed ∧
      ∃ e, encCommandBody s.params i s.enc = .ok e ∧ t = { s with enc := e } := by
  rcases exec_enc_cases hi h with
    ⟨hst, rfl⟩ | ⟨-, rfl⟩ | ⟨hl, ⟨e, hb, rfl⟩ | ⟨f, info, -, -, rfl⟩⟩
  · exact absurd hst ht
  · exact absurd rfl ht
  · exact ⟨hl, e, hb, rfl⟩
  · exact absurd rfl ht

/-- A decoder command that does not end in `FAULT` is performed and completes. -/
theorem exec_dec_of_ne_fault {i : Instr} (hi : i.context = .dec) {s t : State}
    (h : exec i s = .next t) (ht : t.dec.st ≠ .fault) :
    legality s.dec.st i.kind = .performed ∧
      ∃ d, decCommandBody s.params i s.dec = .ok d ∧ t = { s with dec := d } := by
  rcases exec_dec_cases hi h with
    ⟨hst, rfl⟩ | ⟨-, rfl⟩ | ⟨hl, ⟨d, hb, rfl⟩ | ⟨f, info, -, -, rfl⟩⟩
  · exact absurd hst ht
  · exact absurd rfl ht
  · exact ⟨hl, d, hb, rfl⟩
  · exact absurd rfl ht

/-- An encoder command that takes its context to `FAULT` does fault entry and nothing else. -/
theorem exec_enc_enters_fault {i : Instr} (hi : i.context = .enc) {s t : State}
    (h : exec i s = .next t) (hs : s.enc.st ≠ .fault) (ht : t.enc.st = .fault) :
    ∃ f info, f ≠ FaultCode.none ∧ t = s.enterEncFault f info := by
  rcases exec_enc_cases hi h with
    ⟨hst, -⟩ | ⟨-, rfl⟩ | ⟨hl, ⟨e, hb, rfl⟩ | ⟨f, info, hf, -, rfl⟩⟩
  · exact absurd hst hs
  · exact ⟨_, _, by decide, rfl⟩
  · exact absurd ((encCommandBody_st hi hl hb).symm.trans ht) (completedState_ne_fault _)
  · exact ⟨f, info, hf, rfl⟩

/-- A decoder command that takes its context to `FAULT` does fault entry and nothing else. -/
theorem exec_dec_enters_fault {i : Instr} (hi : i.context = .dec) {s t : State}
    (h : exec i s = .next t) (hs : s.dec.st ≠ .fault) (ht : t.dec.st = .fault) :
    ∃ f info, f ≠ FaultCode.none ∧ t = s.enterDecFault f info := by
  rcases exec_dec_cases hi h with
    ⟨hst, -⟩ | ⟨-, rfl⟩ | ⟨hl, ⟨d, hb, rfl⟩ | ⟨f, info, hf, -, rfl⟩⟩
  · exact absurd hst hs
  · exact ⟨_, _, by decide, rfl⟩
  · exact absurd ((decCommandBody_st hi hl hb).symm.trans ht) (completedState_ne_fault _)
  · exact ⟨f, info, hf, rfl⟩

/-- Settles O46: a command leaves the other context as it was, so the context that enters `FAULT` is its own, by fault
entry. -/
theorem faultEntryIsPrecise : Obligations.FaultEntryIsPrecise := by
  intro i s t h
  obtain ⟨-, -, -, hdec, henc⟩ := commandsKeepToTheirContext i s t h
  cases hi : i.context with
  | enc =>
    refine ⟨fun hs ht => ⟨rfl, exec_enc_enters_fault hi h hs ht⟩, fun hs ht => ?_⟩
    rw [hdec hi] at ht
    exact absurd ht hs
  | dec =>
    refine ⟨fun hs ht => ?_, fun hs ht => ⟨rfl, exec_dec_enters_fault hi h hs ht⟩⟩
    rw [henc hi] at ht
    exact absurd ht hs

/-! ### `FAULT` is terminal (R221) -/

theorem exec_keeps_faulted_enc {i : Instr} {s t : State} (h : exec i s = .next t)
    (hs : s.enc.st = .fault) : t.enc = s.enc := by
  cases hi : i.context with
  | enc =>
    cases (exec_enc_of_fault hi hs).symm.trans h
    rfl
  | dec => rw [exec_dec_eq_setDec hi h]

theorem exec_keeps_faulted_dec {i : Instr} {s t : State} (h : exec i s = .next t)
    (hs : s.dec.st = .fault) : t.dec = s.dec := by
  cases hi : i.context with
  | enc => rw [exec_enc_eq_setEnc hi h]
  | dec =>
    cases (exec_dec_of_fault hi hs).symm.trans h
    rfl

/-- No event but the reset input changes a context in `FAULT`. -/
theorem step_keeps_faulted {s t : State} (h : step s = .next t)
    (hport : ∀ rest, s.port ≠ .reset :: rest) :
    (s.enc.st = .fault → t.enc = s.enc) ∧ (s.dec.st = .fault → t.dec = s.dec) := by
  rcases step_cases h with
    ⟨-, rfl⟩ | ⟨rest, hreset, -⟩ | ⟨w, rest, -, ⟨r, -, rfl⟩ | ⟨i, -, hi⟩⟩
  · exact ⟨fun _ => rfl, fun _ => rfl⟩
  · exact absurd hreset (hport rest)
  · exact ⟨fun _ => rfl, fun _ => rfl⟩
  · exact ⟨exec_keeps_faulted_enc (s := { s with port := rest }) hi,
      exec_keeps_faulted_dec (s := { s with port := rest }) hi⟩

/-- Settles O47: the table ignores every command in `FAULT`, and the reset input writes its registers. -/
theorem faultIsTerminal : Obligations.FaultIsTerminal := by
  refine fun s => ⟨fun i => ⟨fun hi => exec_enc_of_fault hi, fun hi => exec_dec_of_fault hi⟩,
    fun _ => step_keeps_faulted, fun t rest h hport => ?_⟩
  cases (step_of_port_reset hport).symm.trans h
  exact ⟨rfl, rfl, rfl, rfl, rfl, rfl⟩

/-! ### A larger width limit (R213)

Every test of `WMAX` that a body passes on its way to completion is an upper bound, which a larger `WMAX` meets too. -/

/-- Computations whose parts complete as before complete as before. -/
theorem Result.andThen_ok_of_imp {α β : Type} {r r' : Result α} {g g' : α → Result β} {b : β}
    (h : r.andThen g = .ok b) (hr : ∀ a, r = .ok a → r' = .ok a)
    (hg : ∀ a, g a = .ok b → g' a = .ok b) : r'.andThen g' = .ok b := by
  obtain ⟨a, ha, hb⟩ := Result.andThen_eq_ok h
  rw [hr a ha]
  exact hg a hb

section

variable {p q : Params} (hpq : p.wmax ≤ q.wmax)

include hpq

theorem Ctx.insert_ok_of_wmax_le {pre : Nat} {b : Byte} {c c' : Ctx}
    (h : c.insert p pre b = .ok c') : c.insert q pre b = .ok c' := by
  rcases c.insert_cases p pre b with ⟨hlow, hhigh, h'⟩ | h'
  · have hhigh' : c.nextCode < 2 ^ q.wmax :=
      hhigh.trans_le (Nat.pow_le_pow_right (by decide) hpq)
    rw [Ctx.insert_eq_ok q pre b c hlow hhigh', ← h', h]
  · cases h'.symm.trans h

theorem encMiss_ok_of_wmax_le {m : Nat} {c : Byte} {e e' : Enc}
    (h : encMiss p m c e = .ok e') : encMiss q m c e = .ok e' := by
  unfold encMiss at h ⊢
  split at h
  · cases h
  · rename_i hw
    rw [if_neg (by omega)]
    exact Result.andThen_ok_of_imp h (fun _ => Ctx.insert_ok_of_wmax_le hpq) fun _ => id

theorem encByteBody_ok_of_wmax_le {c : Byte} {e e' : Enc}
    (h : encByteBody p c e = .ok e') : encByteBody q c e = .ok e' := by
  cases hv : e.curValid with
  | false => rwa [encByteBody_empty c hv] at h ⊢
  | true =>
    cases hl : e.toCtx.lookup e.curCode c with
    | some k => rwa [encByteBody_hit hv hl] at h ⊢
    | none =>
      rw [encByteBody_miss hv hl] at h ⊢
      exact encMiss_ok_of_wmax_le hpq h

theorem encFinalCode_ok_of_wmax_le {e e' : Enc} (h : encFinalCode p e = .ok e') :
    encFinalCode q e = .ok e' := by
  unfold encFinalCode at h ⊢
  cases hm : e.currentMatch with
  | none => rwa [hm] at h
  | some m =>
    simp only [hm] at h ⊢
    split at h
    · cases h
    · rwa [if_neg (by omega)]

theorem encCommandBody_ok_of_wmax_le {i : Instr} {e e' : Enc}
    (h : encCommandBody p i e = .ok e') : encCommandBody q i e = .ok e' := by
  cases i with
  | encByte c => exact encByteBody_ok_of_wmax_le hpq h
  | encEnd =>
    exact Result.andThen_ok_of_imp h (fun _ => encFinalCode_ok_of_wmax_le hpq) fun _ => id
  | encInit | decInit | decByte _ | decEnd => exact h

theorem processCode_ok_of_wmax_le {n : Nat} {d d' : Dec} (h : processCode p n d = .ok d') :
    processCode q n d = .ok d' := by
  unfold processCode at h ⊢
  cases hprev : d.previous with
  | none => rwa [hprev] at h
  | some previous =>
    simp only [hprev] at h ⊢
    refine Result.andThen_ok_of_imp h (fun _ => id) fun resolved hins => ?_
    exact Result.andThen_ok_of_imp hins (fun _ => Ctx.insert_ok_of_wmax_le hpq) fun _ => id

theorem decByteBody_ok_of_wmax_le {b : Byte} {d d' : Dec} (h : decByteBody p b d = .ok d') :
    decByteBody q b d = .ok d' := by
  simp only [decByteBody] at h ⊢
  split at h
  · rename_i hshort
    rwa [if_pos hshort]
  · rename_i hfull
    split at h
    · cases h
    · rw [if_neg hfull, if_neg (by omega)]
      exact processCode_ok_of_wmax_le hpq h

theorem decCommandBody_ok_of_wmax_le {i : Instr} {d d' : Dec}
    (h : decCommandBody p i d = .ok d') : decCommandBody q i d = .ok d' := by
  cases i with
  | decByte b => exact decByteBody_ok_of_wmax_le hpq h
  | decInit | decEnd | encInit | encByte _ | encEnd => exact h

end

/-- Settles O49: such a command is performed and completes, and so does its body with the larger `WMAX`. -/
theorem widthLimitOnlyRemovesBehaviour : Obligations.WidthLimitOnlyRemovesBehaviour := by
  intro i s t p hp h henc hdec
  cases hi : i.context with
  | enc =>
    obtain ⟨hl, e, hb, rfl⟩ := exec_enc_of_ne_fault hi h henc
    exact exec_enc_of_performed (s := { s with params := p }) hi hl
      (encCommandBody_ok_of_wmax_le hp hb)
  | dec =>
    obtain ⟨hl, d, hb, rfl⟩ := exec_dec_of_ne_fault hi h hdec
    exact exec_dec_of_performed (s := { s with params := p }) hi hl
      (decCommandBody_ok_of_wmax_le hp hb)

end Sys2Proof.Machine
end

section
/-!
SUPPORT. While it waits the block holds its state (spec R242, R252), and the entry a miss inserts is there for the next search
(R246).
-/

namespace Sys2Proof.Machine

open Sys2Proof

/-- Settles O7: with an empty port the step takes its waiting branch. -/
theorem waitingChangesNothing : Obligations.WaitingChangesNothing := fun _ => step_of_port_nil

/-- After a miss at a width the hardware has, the old `next_code` reads as the missed pair (R122, R175). -/
theorem dictRead_of_encByte_miss {s t : State} {c : Byte} (h : s.Inv)
    (hactive : s.enc.st = .active) (hv : s.enc.curValid = true)
    (hmiss : ∀ k, s.enc.toCtx.dictRead k ≠ some ⟨s.enc.curCode, c⟩)
    (hw : s.enc.width ≤ s.params.wmax) (hx : exec (.encByte c) s = .next t) :
    t.enc.toCtx.dictRead s.enc.nextCode = some ⟨s.enc.curCode, c⟩ := by
  obtain ⟨-, -, -, hmeaning⟩ := encByteMeaning s c
  obtain ⟨-, -, -, hmatch⟩ := hmeaning h hactive
  obtain ⟨-, hmissed⟩ := hmatch hv
  obtain ⟨-, hinserted⟩ := hmissed hmiss
  cases (hinserted hw).symm.trans hx
  have hread :=
    s.enc.toCtx.dictRead_inserted ⟨s.enc.curCode, c⟩ h.enc.ctx.nextCodeLow s.enc.nextCode
  rw [if_pos rfl] at hread
  exact (Ctx.dictRead_congr rfl rfl).trans hread

/-- Settles O14: the new state meets the invariant, so `Lookup` hits the one code whose entry is the pair, and that is the
inserted one. -/
theorem insertedEntryIsFoundNext : Obligations.InsertedEntryIsFoundNext := by
  intro s t c h hactive hv hmiss hw hx
  exact ((h.exec hx).enc.lookup_eq_some_iff _ _ _).2
    (dictRead_of_encByte_miss h hactive hv hmiss hw hx)

end Sys2Proof.Machine
end
